-- ==== Sys2Proof/Word.lean ====
section
/-! DEFINITION. The word types of the block: bytes of a frame, 16-bit protocol values, and buffers as sparse lists
of cells. (00_scope.md R9, R10; 20_memory.md R62) -/

namespace Sys2Proof

/-- A byte: 8 bits, a value 0..255 (R9). -/
abbrev Byte := BitVec 8

/-- A 16-bit protocol value: an address, a quantity, a register value, a checksum as a number (R9). -/
abbrev Word := BitVec 16

/-- What the host moves in one register access: an unsigned number (R9). HOST_BUS is open and gives it no width; a
register takes the low bits of what is written, as many as it has (R40). Log entry 26. -/
abbrev HostWord := Nat

/-- A buffer: cells of `w` bits at offsets from 0, offsets strictly rising, an offset nothing has written unlisted
(R62). With `w = 8` it is a list of `Host.Cell`. -/
abbrev Memory (w : Nat) := List (Nat × BitVec w)

end Sys2Proof
end

