-- ==== Sys2Proof/Machine/Memory.lean ====
section
/-! DEFINITION. The operations over a buffer (00_scope.md R10, 20_memory.md R62). A cell nothing has written is
unlisted and reads as no value; who reads one supplies a free value. -/

namespace Sys2Proof.Machine

/-- The value of the cell at offset `a`; `none` where nothing has been written. -/
def memGet {w : Nat} : Memory w → Nat → Option (BitVec w)
  | [], _ => none
  | (k, v) :: m, a => if a = k then some v else memGet m a

/-- The buffer with `v` at offset `a`. -/
def memSet {w : Nat} : Memory w → Nat → BitVec w → Memory w
  | [], a, v => [(a, v)]
  | (k, u) :: m, a, v =>
    if a < k then (a, v) :: (k, u) :: m
    else if a = k then (a, v) :: m
    else (k, u) :: memSet m a v

/-- `MemWrite(BUF, off, n, s)` with `n` the length of `s` (R10). -/
def memWrite {w : Nat} (m : Memory w) (off : Nat) : List (BitVec w) → Memory w
  | [] => m
  | v :: s => memWrite (memSet m off v) (off + 1) s

/-- `MemRead(BUF, 0, n)` (R10), where `unwritten a` stands for what an unlisted offset `a` holds. -/
def memRead {w : Nat} (m : Memory w) (unwritten : Nat → BitVec w) (n : Nat) : List (BitVec w) :=
  (List.range n).map fun a => (memGet m a).getD (unwritten a)

/-- The canonical form: offsets strictly rising. No entry can equal what an unlisted offset reads as, since that is
no value. -/
abbrev memWf {w : Nat} (m : Memory w) : Prop := m.Pairwise fun p q => p.1 < q.1

/-- Every offset lies below the buffer's capacity (R62). -/
abbrev memBelow {w : Nat} (cap : Nat) (m : Memory w) : Prop := ∀ p ∈ m, p.1 < cap

end Sys2Proof.Machine
end

