-- ==== Sys2Proof/Config.lean ====
section
/-! DEFINITION. What an implementation of the block fixes (R6) and the values the spec leaves open (R48, U4, U5,
U6, U10, U17). The numbers the spec itself fixes (R5) stand with the rules that use them, under Machine/. -/

namespace Sys2Proof.Config

/-- TXCAP, the capacity of TXBUF in bytes (R6, D3). -/
def txCap : Nat := 256

/-- VCAP, the capacity of VBUF in entries (R6, D3). -/
def vCap : Nat := 1968

/-- RCAP, the capacity of RBUF in entries (R6, D3). -/
def rCap : Nat := 2000

/-- The parameters R6 leaves to the implementation and calls "a named argument of the model". The host's interface
gives `step` no argument but the state, so they ride in the state's field `cfg`, which no step writes; a statement
about every state is a statement about every choice of them. Log entry 3. -/
structure Params where
  /-- RXCAP, the capacity of RXBUF in bytes; `none` is the spec's ∞. -/
  rxCap : Option Nat
  /-- QTY_FLOOR, the smallest quantity the coordinator admits, 0 or 1. -/
  qtyFloor : Word
  /-- TW, the width in bits of T_CFG and IBT. -/
  tw : Nat
  /-- T_DEFAULT, the value of T_CFG after reset; the spec leaves it OPEN. -/
  tDefault : Nat
  deriving DecidableEq, Repr

/-- The range R6 gives each parameter: RXCAP ≥ 8 or ∞, QTY_FLOOR 0 or 1, TW ≥ 1, T_DEFAULT from 0 to 2^TW − 1. -/
def Params.legal (p : Params) : Bool :=
  (match p.rxCap with
    | none => true
    | some c => decide (8 ≤ c)) && (p.qtyFloor == 0 || p.qtyFloor == 1) && decide (1 ≤ p.tw) &&
    decide (p.tDefault < 2 ^ p.tw)

/-- The defaults of R6: RXCAP = 256, QTY_FLOOR = 0, TW = 32. T_DEFAULT has no default there; 0 is a DESIGN CHOICE, log
entry 3. -/
def Params.default : Params := { rxCap := some 256, qtyFloor := 0, tw := 32, tDefault := 0 }

/-- FREE VALUE: what operand register number `reg` (0x00 to 0x04) holds after the `resets`-th reset until the host
writes it (R48, U10). Log entry 5. -/
opaque freeOperand : (resets reg : Nat) → Word

/-- FREE VALUE: what entry `i` of VBUF holds after the `resets`-th reset until the host writes it (R48, U10). Log
entry 5. -/
opaque freeEntry : (resets i : Nat) → Word

/-- FREE VALUE: what the host sees in CRC when the content `crc` of the register is not of its own making: after a
reset with no seed since, and after an accepted `Start` (R48, R133, R140, U5). Log entry 6. -/
opaque freeCrc : (resets : Nat) → (crc : Word) → Word

/-- FREE VALUE: what a read of the result group gives while a transaction is in flight, and what an entry of RBUF at
or beyond RES_LEN holds (R39, R291, U4, U17). Log entry 7. -/
opaque freeResult : (draws reg : Nat) → Word

/-- FREE VALUE: what a byte of TXBUF or RXBUF holds that nothing has written since reset (R48). No run reads one.
Log entry 8. -/
opaque freeByte : (resets offset : Nat) → Byte

/-- FREE VALUE: byte number `k` of the endless sequence of answers that R12 admits of the Line (U6, U20). Log
entry 30. -/
opaque freeAnswer : (k : Nat) → Byte

end Sys2Proof.Config
end

