-- ==== Sys2Proof/Machine/Bytes.lean ====
section
/-! DEFINITION. Byte order and bit packing: R9, R63 to R65, R100 to R104. -/

namespace Sys2Proof.Machine

/-- `hi(v)`: bits 15..8 (R9). -/
def hi (v : Word) : Byte := (v >>> 8).setWidth 8

/-- `lo(v)`: bits 7..0 (R9). -/
def lo (v : Word) : Byte := v.setWidth 8

/-- `be16(b0, b1)`: the first byte is the more significant (R9, R63). -/
def be16 (b0 b1 : Byte) : Word := (b0.setWidth 16 <<< 8) ||| b1.setWidth 16

/-- `le16(b0, b1)`: the first byte is the less significant (R9, R64). -/
def le16 (b0 b1 : Byte) : Word := be16 b1 b0

/-- `be16bytes(v)`: high byte first (R9, R63). -/
def be16bytes (v : Word) : List Byte := [hi v, lo v]

/-- `le16bytes(v)`: low byte first (R9, R64). -/
def le16bytes (v : Word) : List Byte := [lo v, hi v]

/-- `ceil(n/8)`: the bytes that `n` packed bits occupy (R102, R103). -/
def bitBytes (n : Nat) : Nat := (n + 7) / 8

/-- The byte whose bit `j` is `f j`, least significant bit first (R65). -/
def byteOfBits (f : Nat → Bool) : Byte :=
  BitVec.ofNat 8 ((f 0).toNat + 2 * (f 1).toNat + 4 * (f 2).toNat + 8 * (f 3).toNat + 16 * (f 4).toNat
    + 32 * (f 5).toNat + 64 * (f 6).toNat + 128 * (f 7).toNat)

/-- `pack_bits`: bit `i` of the sequence goes to bit `i mod 8` of byte `i div 8`; unused bits are 0 (R103, D21). -/
def packBits (c : List Bool) : List Byte :=
  (List.range (bitBytes c.length)).map fun k => byteOfBits fun j => c.getD (8 * k + j) false

/-- Bit `i` of packed data: bit `i mod 8` of byte `i div 8` (R65, R103). -/
def packedBit (d : List Byte) (i : Nat) : Bool := (d.getD (i / 8) 0).getLsbD (i % 8)

/-- The first `q` bits of packed data, whatever follows them (R103). -/
def unpackBits (d : List Byte) (q : Nat) : List Bool := (List.range q).map (packedBit d)

/-- `reg_bytes`: every value high byte first, in order (R104). -/
def regBytes (r : List Word) : List Byte := r.flatMap be16bytes

/-- Consecutive big-endian 16-bit values; an odd last byte is left out (R104). -/
def regWords : List Byte → List Word
  | b0 :: b1 :: rest => be16 b0 b1 :: regWords rest
  | _ => []

end Sys2Proof.Machine
end

