-- ==== Sys2Proof/Machine/Crc.lean ====
section
/-! DEFINITION. The Checksum Engine's functions: 40_crc.md R130 to R137. -/

namespace Sys2Proof.Machine

/-- CRC_SEED (R5). -/
def crcSeedValue : Word := 0xFFFF

/-- CRC_POLY (R5). -/
def crcPoly : Word := 0xA001

/-- One of the eight iterations: "if low bit set: shift right 1 and xor 0xA001; else shift right 1" (R130). -/
def crcShift (c : Word) : Word := if c.getLsbD 0 then (c >>> 1) ^^^ crcPoly else c >>> 1

/-- `crc_update(c, b)`: the byte is xored into the low byte, then eight iterations (R134). -/
def crcUpdate (c : Word) (b : Byte) : Word :=
  crcShift (crcShift (crcShift (crcShift (crcShift (crcShift (crcShift (crcShift (c ^^^ b.setWidth 16))))))))

/-- `k c`, written so that Lean's kernel computes `c` to a number before it goes on (`strictly_eq`); it makes a
checksum over a long frame cheap to evaluate and means nothing else. -/
def strictly {α : Type} (c : Word) (k : Word → α) : α :=
  match c.toNat with
  | 0 => k 0#16
  | n + 1 => k (BitVec.ofNat 16 (n + 1))

/-- The bytes fed in order, from the register value `c` (R135, R138 law 4). -/
def crcFeed (c : Word) : List Byte → Word
  | [] => c
  | b :: rest => strictly (crcUpdate c b) fun c' => crcFeed c' rest

/-- `checksum(s)`: the register seeded, then every byte fed in order (R135). -/
def checksum (s : List Byte) : Word := crcFeed crcSeedValue s

/-- `checksum_bytes(s)`: the checksum on the wire, low byte first (R136). -/
def checksumBytes (s : List Byte) : List Byte := le16bytes (checksum s)

/-- `seal(s)`: the frame whose body is `s` (R136). -/
def sealed (s : List Byte) : List Byte := s ++ checksumBytes s

/-- `crc_calc(f)`: the checksum of all but the last two bytes (R137). -/
def crcCalc (f : List Byte) : Word := checksum (f.take (f.length - 2))

/-- `crc_rx(f)`: the last two bytes, low byte first (R137). For `f` of at least two bytes, as everywhere it is
used. -/
def crcRx (f : List Byte) : Word := le16 (f.getD (f.length - 2) 0) (f.getD (f.length - 1) 0)

/-- The comparison of R137. -/
def crcGood (f : List Byte) : Bool := crcCalc f == crcRx f

end Sys2Proof.Machine
end

