-- ==== Sys2Proof/Syntax.lean ====
section
/-! DEFINITION. The instructions: one constructor per row of spec/opcode_table.json, and the words they come in. -/

namespace Sys2Proof

/-- The eight public operations (R4, R96). -/
inductive Op where
  | readCoils
  | readDiscreteInputs
  | readHoldingRegisters
  | readInputRegisters
  | writeSingleCoil
  | writeSingleRegister
  | writeMultipleCoils
  | writeMultipleRegisters
  deriving DecidableEq, Repr

/-- One constructor per row of spec/opcode_table.json.

* The eight request rows are the public operations with the operands of R125's call syntax: the host's blocking call
  of the operation. A request's byte count and checksum are computed, so they are no operands.
* The nine reply rows are reply frames as the Line delivers them, field by field: the bytes, then the stalled read
  that ends the frame. Their checksum is an operand, since the block compares it (R173).
* The five HOST_REG rows are the host events that are accesses to one register (R110). -/
inductive Instr where
  /-- ReadCoils(unit, start, qty): R221. -/
  | readCoils (unit : Byte) (start qty : Word)
  /-- ReadDiscreteInputs(unit, start, qty): R222. -/
  | readDiscreteInputs (unit : Byte) (start qty : Word)
  /-- ReadHoldingRegisters(unit, start, qty): R223. -/
  | readHoldingRegisters (unit : Byte) (start qty : Word)
  /-- ReadInputRegisters(unit, start, qty): R224. -/
  | readInputRegisters (unit : Byte) (start qty : Word)
  /-- WriteSingleCoil(unit, addr, on): R225. -/
  | writeSingleCoil (unit : Byte) (addr : Word) (on : Bool)
  /-- WriteSingleRegister(unit, addr, value): R226. -/
  | writeSingleRegister (unit : Byte) (addr value : Word)
  /-- WriteMultipleCoils(unit, start, values): R227. -/
  | writeMultipleCoils (unit : Byte) (start : Word) (values : List Bool)
  /-- WriteMultipleRegisters(unit, start, values): R228. -/
  | writeMultipleRegisters (unit : Byte) (start : Word) (values : List Word)
  /-- ReadCoils.reply, format RSP_BITS: R94, R181. `count` is the byte-count byte, `data` every byte between it and
  the checksum; the decoder does not ask the two to agree (R180). -/
  | readCoilsReply (unit count : Byte) (data : List Byte) (crc : Word)
  /-- ReadDiscreteInputs.reply, format RSP_BITS: R94, R182. -/
  | readDiscreteInputsReply (unit count : Byte) (data : List Byte) (crc : Word)
  /-- ReadHoldingRegisters.reply, format RSP_REGS: R95, R184. -/
  | readHoldingRegistersReply (unit count : Byte) (data : List Byte) (crc : Word)
  /-- ReadInputRegisters.reply, format RSP_REGS: R95, R185. -/
  | readInputRegistersReply (unit count : Byte) (data : List Byte) (crc : Word)
  /-- WriteSingleCoil.reply, format RSP_ECHO, 8 bytes exactly: R97, R187. -/
  | writeSingleCoilReply (unit : Byte) (addr value crc : Word)
  /-- WriteSingleRegister.reply, format RSP_ECHO: R97, R188. -/
  | writeSingleRegisterReply (unit : Byte) (addr value crc : Word)
  /-- WriteMultipleCoils.reply, format RSP_ECHO: R97, R189. -/
  | writeMultipleCoilsReply (unit : Byte) (start qty crc : Word)
  /-- WriteMultipleRegisters.reply, format RSP_ECHO: R97, R190. -/
  | writeMultipleRegistersReply (unit : Byte) (start qty crc : Word)
  /-- Exception.reply, format RSP_EXC: R98, R174. `func` is the low seven bits of the function byte; `extra` are the
  bytes between the code and the checksum, none in the 5-byte frame a device sends. -/
  | exceptionReply (unit : Byte) (func : BitVec 7) (code : Byte) (extra : List Byte) (crc : Word)
  /-- CRC.SEED, a write of any value to register 0x12: R131. -/
  | crcSeed
  /-- CRC.BYTE b, a write of `b` to register 0x13: R132. -/
  | crcByte (b : Byte)
  /-- CRC.READ, a read of register 0x14: R133. -/
  | crcRead
  /-- SetTimeout(t), a write of `t` to register 0x07: R216. -/
  | setTimeout (t : HostWord)
  /-- Start, a write to register 0x05 whose bit 0 is `go`: R201, R40. -/
  | start (go : Bool)
  deriving DecidableEq, Repr

/-- The words an instruction comes in. The block fetches no instructions (R30): what it consumes arrives on two
sides, and the same bytes mean different things on each (R110, R111), so a packet says where it arrived. -/
inductive Packet where
  /-- The host calls a public operation; the bytes are laid out as the operation's request row of the table. -/
  | call (frame : List Byte)
  /-- The Line delivers these bytes, each as one `Byte(b)` answer, and then stalls once. -/
  | reply (frame : List Byte)
  /-- The host writes `data` to register number `reg` (R40). -/
  | write (reg : Word) (data : HostWord)
  /-- The host reads register number `reg` (R40). -/
  | read (reg : Word)
  deriving DecidableEq, Repr

end Sys2Proof
end

