-- ==== Sys2Proof/Machine/Frames.lean ====
section
/-! DEFINITION. The function-code map (R96) and the encode side of the Frame Codec (41_encode.md R150 to R160). -/

namespace Sys2Proof.Machine

/-- The function code of an operation: the value of CMD_FUNC that selects it and the second byte of its request and
of its normal reply (R96). -/
def funcCode : Op → Byte
  | .readCoils => 0x01
  | .readDiscreteInputs => 0x02
  | .readHoldingRegisters => 0x03
  | .readInputRegisters => 0x04
  | .writeSingleCoil => 0x05
  | .writeSingleRegister => 0x06
  | .writeMultipleCoils => 0x0F
  | .writeMultipleRegisters => 0x10

/-- The operation a function code selects; `none` for a reserved code (R96, R118). -/
def opOfCode (c : Byte) : Option Op :=
  match c.toNat with
  | 0x01 => some .readCoils
  | 0x02 => some .readDiscreteInputs
  | 0x03 => some .readHoldingRegisters
  | 0x04 => some .readInputRegisters
  | 0x05 => some .writeSingleCoil
  | 0x06 => some .writeSingleRegister
  | 0x0F => some .writeMultipleCoils
  | 0x10 => some .writeMultipleRegisters
  | _ => none

/-- COIL_ON / COIL_OFF, the wire value of a coil (R5, R101). -/
def coilWord (on : Bool) : Word := if on then 0xFF00 else 0x0000

/-- The body of a REQ8 request: unit, function, two big-endian 16-bit fields (R92, R150). -/
def body8 (u f : Byte) (a b : Word) : List Byte := [u, f] ++ be16bytes a ++ be16bytes b

/-- The body of a REQ_WM request with quantity field `q`: the byte count is `trunc_8` of the number of data bytes,
all of which follow (R93, R160). -/
def bodyWm (u f : Byte) (start q : Word) (data : List Byte) : List Byte :=
  [u, f] ++ be16bytes start ++ be16bytes q ++ [BitVec.ofNat 8 data.length] ++ data

/-- `req8(u, f, A, B)` (R150). -/
def req8 (u f : Byte) (a b : Word) : List Byte := sealed (body8 u f a b)

/-- Body of the ReadCoils request (R151). -/
def bodyReadCoils (u : Byte) (start qty : Word) : List Byte := body8 u 0x01 start qty

/-- Body of the ReadDiscreteInputs request (R152). -/
def bodyReadDiscreteInputs (u : Byte) (start qty : Word) : List Byte := body8 u 0x02 start qty

/-- Body of the ReadHoldingRegisters request (R153). -/
def bodyReadHoldingRegisters (u : Byte) (start qty : Word) : List Byte := body8 u 0x03 start qty

/-- Body of the ReadInputRegisters request (R154). -/
def bodyReadInputRegisters (u : Byte) (start qty : Word) : List Byte := body8 u 0x04 start qty

/-- Body of the WriteSingleCoil request; `value` is REQ_VALUE, already the coil's wire value (R155). -/
def bodyWriteSingleCoil (u : Byte) (addr value : Word) : List Byte := body8 u 0x05 addr value

/-- Body of the WriteSingleRegister request (R156). -/
def bodyWriteSingleRegister (u : Byte) (addr value : Word) : List Byte := body8 u 0x06 addr value

/-- Body of the WriteMultipleCoils request for the coil sequence `c`, with quantity field `q` (R157). -/
def bodyWriteMultipleCoils (u : Byte) (start q : Word) (c : List Bool) : List Byte :=
  bodyWm u 0x0F start q (packBits c)

/-- Body of the WriteMultipleRegisters request for the values `r`, with quantity field `q` (R158). -/
def bodyWriteMultipleRegisters (u : Byte) (start q : Word) (r : List Word) : List Byte :=
  bodyWm u 0x10 start q (regBytes r)

/-- The first two bytes of a reply and the checksum as received, around its payload (R90). -/
def replyFrame (u f : Byte) (payload : List Byte) (crc : Word) : List Byte := [u, f] ++ payload ++ le16bytes crc

end Sys2Proof.Machine
end

