-- ==== Sys2Proof/WellFormed.lean ====
section
/-! DEFINITION. Which instructions the encodings of the table can hold. -/

namespace Sys2Proof

/-- An instruction its row can encode: the number of values of a multiple write fits its 16-bit quantity field (R93,
R100), and the function byte of an exception reply is above 0x80 (R98). Every other operand is as wide as its field,
and a quantity above its ceiling is encoded like any other (R121), its byte count truncated where it does not fit
(R160). -/
def Instr.wellFormed : Instr → Bool
  | .readCoils _ _ _ => true
  | .readDiscreteInputs _ _ _ => true
  | .readHoldingRegisters _ _ _ => true
  | .readInputRegisters _ _ _ => true
  | .writeSingleCoil _ _ _ => true
  | .writeSingleRegister _ _ _ => true
  | .writeMultipleCoils _ _ values => decide (values.length ≤ 65535)
  | .writeMultipleRegisters _ _ values => decide (values.length ≤ 65535)
  | .readCoilsReply _ _ _ _ => true
  | .readDiscreteInputsReply _ _ _ _ => true
  | .readHoldingRegistersReply _ _ _ _ => true
  | .readInputRegistersReply _ _ _ _ => true
  | .writeSingleCoilReply _ _ _ _ => true
  | .writeSingleRegisterReply _ _ _ _ => true
  | .writeMultipleCoilsReply _ _ _ _ => true
  | .writeMultipleRegistersReply _ _ _ _ => true
  | .exceptionReply _ func _ _ _ => func != 0
  | .crcSeed => true
  | .crcByte _ => true
  | .crcRead => true
  | .setTimeout _ => true
  | .start _ => true

end Sys2Proof
end

