-- ==== Sys2Proof/Decode.lean ====
section
/-! DEFINITION. From words to instructions, total on any bytes and rejecting by name, and back: 30_encoding.md
R90 to R98, R102 to R105, R110, R111; 10_state.md R40. -/

namespace Sys2Proof

open Machine

/-- Why a packet is no instruction of the table. -/
inductive Reject where
  /-- A register access that is none of the five HOST_REG events (R110); R40 says what it does. -/
  | plainAccess
  /-- The function byte of a call is none of the eight codes (R118). -/
  | callFunction
  /-- A call whose length is not that of its format and quantity (R92, R93). -/
  | callLength
  /-- The value field of a WriteSingleCoil call is neither 0xFF00 nor 0x0000 (R101). -/
  | callCoilValue
  /-- The byte count of a multiple-write call is not the one its quantity has (R102, R160). -/
  | callByteCount
  /-- A reply shorter than its format, or not of its format's exact length (R90, R94 to R98). -/
  | replyLength
  /-- The function byte of a reply is neither above 0x80 nor one of the eight codes (R119). -/
  | replyFunction
  deriving DecidableEq, Repr

/-- The two 16-bit fields of a REQ8 call after its function byte. The two checksum bytes are not examined: the call
syntax has no checksum operand (R125) and the block computes the one it sends (R150). Log entry 10. -/
def callFields (rest : List Byte) (k : Word → Word → Except Reject Instr) : Except Reject Instr :=
  match rest with
  | [a1, a0, b1, b0, _, _] => k (be16 a1 a0) (be16 b1 b0)
  | _ => .error .callLength

/-- The WriteSingleCoil call: the value field is one of the two legal wire values (R101). -/
def callCoil (u : Byte) (addr value : Word) : Except Reject Instr :=
  if value = coilWord true then .ok (.writeSingleCoil u addr true)
  else if value = coilWord false then .ok (.writeSingleCoil u addr false)
  else .error .callCoilValue

/-- The start address, quantity and data bytes of a REQ_WM call: `need quantity` data bytes, and that number truncated
to 8 bits as the byte count (R93, R160). -/
def callData (rest : List Byte) (need : Nat → Nat) (k : Word → Nat → List Byte → Except Reject Instr) :
    Except Reject Instr :=
  match rest with
  | a1 :: a0 :: q1 :: q0 :: n :: tail =>
    let size := need (be16 q1 q0).toNat
    if n ≠ BitVec.ofNat 8 size then .error .callByteCount
    else if tail.length ≠ size + 2 then .error .callLength
    else k (be16 a1 a0) (be16 q1 q0).toNat (tail.take size)
  | _ => .error .callLength

/-- A call of a public operation, laid out as its request row: R92, R93, R96. The unused bits of the last byte of packed
coils are no coils and are not examined (R103, log entry 10). -/
def decodeCall (frame : List Byte) : Except Reject Instr :=
  match frame with
  | u :: f :: rest =>
    match opOfCode f with
    | none => .error .callFunction
    | some .readCoils => callFields rest fun a q => .ok (.readCoils u a q)
    | some .readDiscreteInputs => callFields rest fun a q => .ok (.readDiscreteInputs u a q)
    | some .readHoldingRegisters => callFields rest fun a q => .ok (.readHoldingRegisters u a q)
    | some .readInputRegisters => callFields rest fun a q => .ok (.readInputRegisters u a q)
    | some .writeSingleCoil => callFields rest (callCoil u)
    | some .writeSingleRegister => callFields rest fun a v => .ok (.writeSingleRegister u a v)
    | some .writeMultipleCoils =>
      callData rest bitBytes fun a q d => .ok (.writeMultipleCoils u a (unpackBits d q))
    | some .writeMultipleRegisters =>
      callData rest (2 * ·) fun a _ d => .ok (.writeMultipleRegisters u a (regWords d))
  | _ => .error .callLength

/-- The last two bytes, as a checksum, and what stands before them (R105). -/
def splitCrc : List Byte → Option (List Byte × Word)
  | [] => none
  | [_] => none
  | [l, h] => some ([], le16 l h)
  | b :: c :: d :: rest => (splitCrc (c :: d :: rest)).map fun p => (b :: p.1, p.2)

/-- The fields of an RSP_BITS or RSP_REGS reply after its function byte (R94, R95). -/
def replyData (rest : List Byte) (k : Byte → List Byte → Word → Instr) : Except Reject Instr :=
  match rest with
  | n :: tail =>
    match splitCrc tail with
    | some (d, crc) => .ok (k n d crc)
    | none => .error .replyLength
  | [] => .error .replyLength

/-- The fields of an RSP_ECHO reply after its function byte: 8 bytes in all, exactly (R97). -/
def replyEcho (rest : List Byte) (k : Word → Word → Word → Instr) : Except Reject Instr :=
  match rest with
  | [a1, a0, b1, b0, l, h] => .ok (k (be16 a1 a0) (be16 b1 b0) (le16 l h))
  | _ => .error .replyLength

/-- A reply frame, by its function byte: above 0x80 an exception reply, else the normal reply of that code (R91,
R111, R119). Whether the code is the requested one is the machine's check (R175), not the syntax's. -/
def decodeReply (frame : List Byte) : Except Reject Instr :=
  match frame with
  | u :: f :: rest =>
    if 0x80#8 < f then replyData rest fun code extra crc => .exceptionReply u (f.setWidth 7) code extra crc
    else
      match opOfCode f with
      | none => .error .replyFunction
      | some .readCoils => replyData rest (.readCoilsReply u)
      | some .readDiscreteInputs => replyData rest (.readDiscreteInputsReply u)
      | some .readHoldingRegisters => replyData rest (.readHoldingRegistersReply u)
      | some .readInputRegisters => replyData rest (.readInputRegistersReply u)
      | some .writeSingleCoil => replyEcho rest (.writeSingleCoilReply u)
      | some .writeSingleRegister => replyEcho rest (.writeSingleRegisterReply u)
      | some .writeMultipleCoils => replyEcho rest (.writeMultipleCoilsReply u)
      | some .writeMultipleRegisters => replyEcho rest (.writeMultipleRegistersReply u)
  | _ => .error .replyLength

/-- A host write: four register numbers are instructions (R110). CTRL and CRC_DIN take the bits of the data they have
(R40), CRC_SEED none; T_CFG's width is a parameter, and the meaning truncates (R216). -/
def decodeWrite (reg : Word) (data : HostWord) : Except Reject Instr :=
  match reg.toNat with
  | 0x05 => .ok (.start (data.testBit 0))
  | 0x07 => .ok (.setTimeout data)
  | 0x12 => .ok .crcSeed
  | 0x13 => .ok (.crcByte (BitVec.ofNat 8 data))
  | _ => .error .plainAccess

/-- A host read: one register number is an instruction (R110). -/
def decodeRead (reg : Word) : Except Reject Instr :=
  match reg.toNat with
  | 0x14 => .ok .crcRead
  | _ => .error .plainAccess

/-- The instruction a packet holds. -/
def decode : Packet → Except Reject Instr
  | .call frame => decodeCall frame
  | .reply frame => decodeReply frame
  | .write reg data => decodeWrite reg data
  | .read reg => decodeRead reg

/-- The words of an instruction. A request is the frame the block itself sends for it (R151 to R158); a write to
CRC_SEED carries 0, which the block ignores (R131). -/
def encode : Instr → Packet
  | .readCoils u start qty => .call (sealed (bodyReadCoils u start qty))
  | .readDiscreteInputs u start qty => .call (sealed (bodyReadDiscreteInputs u start qty))
  | .readHoldingRegisters u start qty => .call (sealed (bodyReadHoldingRegisters u start qty))
  | .readInputRegisters u start qty => .call (sealed (bodyReadInputRegisters u start qty))
  | .writeSingleCoil u addr on => .call (sealed (bodyWriteSingleCoil u addr (coilWord on)))
  | .writeSingleRegister u addr value => .call (sealed (bodyWriteSingleRegister u addr value))
  | .writeMultipleCoils u start values =>
    .call (sealed (bodyWriteMultipleCoils u start (BitVec.ofNat 16 values.length) values))
  | .writeMultipleRegisters u start values =>
    .call (sealed (bodyWriteMultipleRegisters u start (BitVec.ofNat 16 values.length) values))
  | .readCoilsReply u n d crc => .reply (replyFrame u 0x01 (n :: d) crc)
  | .readDiscreteInputsReply u n d crc => .reply (replyFrame u 0x02 (n :: d) crc)
  | .readHoldingRegistersReply u n d crc => .reply (replyFrame u 0x03 (n :: d) crc)
  | .readInputRegistersReply u n d crc => .reply (replyFrame u 0x04 (n :: d) crc)
  | .writeSingleCoilReply u a b crc => .reply (replyFrame u 0x05 (be16bytes a ++ be16bytes b) crc)
  | .writeSingleRegisterReply u a b crc => .reply (replyFrame u 0x06 (be16bytes a ++ be16bytes b) crc)
  | .writeMultipleCoilsReply u a b crc => .reply (replyFrame u 0x0F (be16bytes a ++ be16bytes b) crc)
  | .writeMultipleRegistersReply u a b crc => .reply (replyFrame u 0x10 (be16bytes a ++ be16bytes b) crc)
  | .exceptionReply u func code extra crc => .reply (replyFrame u (1#1 ++ func) (code :: extra) crc)
  | .crcSeed => .write 0x12 0
  | .crcByte b => .write 0x13 b.toNat
  | .crcRead => .read 0x14
  | .setTimeout t => .write 0x07 t
  | .start go => .write 0x05 (if go then 1 else 0)

/-- The `n` bytes that follow each other in the table word `w`. R91 numbers the first two bytes only, the first the more
significant. DESIGN CHOICE, log entry 11: the bytes after them stand likewise in further 16-bit words, in higher bits, each
big-endian, and an odd last byte in the upper half of its word. -/
def tableBytes (w : Nat) : Nat → List Byte
  | 0 => []
  | 1 => [BitVec.ofNat 8 (w / 256)]
  | n + 2 => BitVec.ofNat 8 (w / 256) :: BitVec.ofNat 8 w :: tableBytes (w / 65536) n

/-- The quantity field of a REQ_WM word, the bytes at offsets 4 and 5 (R93). -/
def tableQuantity (w : Nat) : Nat := (be16 ((tableBytes w 6).getD 4 0) ((tableBytes w 6).getD 5 0)).toNat

/-- The packet a table word stands for. The table gives a request row, the reply row of the same code and the
HOST_REG rows overlapping words (R91, R110, R111), so the choice is this one. Register numbers that are no function
code are host accesses; 0x05 is both, and is CTRL unless the row has 8 bits only. Any other word is a frame by its
function byte: above 0x80 a 5-byte reply, else a call, as long as its format makes it. Log entry 11. -/
def tablePacket (nbits w : Nat) : Packet :=
  let first := w % 65536
  let data : HostWord := w / 65536
  if first = 0x14 then .read 0x14
  else if first = 0x07 || first = 0x12 || first = 0x13 || (first = 0x05 && decide (8 < nbits)) then
    .write (BitVec.ofNat 16 first) data
  else if 0x80 < w % 256 then .reply (tableBytes w 5)
  else if w % 256 = 0x0F then .call (tableBytes w (9 + bitBytes (tableQuantity w)))
  else if w % 256 = 0x10 then .call (tableBytes w (9 + 2 * tableQuantity w))
  else .call (tableBytes w 8)

/-- The instruction the decoder reads from a word numbered as spec/opcode_table.json numbers it. -/
def decodeTableWord (nbits w : Nat) : Option Instr :=
  match decode (tablePacket nbits w) with
  | .ok i => some i
  | .error _ => none

end Sys2Proof
end

