-- ==== Sys2Proof/Machine/State.lean ====
section
/-! DEFINITION. The state of one CORE instance (10_state.md R20 to R48) with the environment it meets step by step,
and the reasons a step can stop. Plain data throughout. -/

namespace Sys2Proof.Machine

/-- STATE: the five states of the coordinator (R30). -/
inductive Phase where
  | idle
  | sending
  | awaitingReply
  | decoding
  | failed
  deriving DecidableEq, Repr

/-- Where the block stands inside Sending: the event it emits next (R205, R206). -/
inductive SendStage where
  | discardIn
  | discardOut
  | write
  deriving DecidableEq, Repr

/-- The operand registers (R21 to R25). -/
structure Operands where
  /-- CMD_UNIT. -/
  unit : Byte
  /-- CMD_FUNC. -/
  func : Byte
  /-- CMD_ADDR. -/
  addr : Word
  /-- CMD_COUNT. -/
  count : Word
  /-- CMD_VALUE. -/
  value : Word
  deriving DecidableEq, Repr

/-- Which operand registers the host has written since reset. R48 leaves an unwritten one unspecified and U10 says a
model must not read its value: until the flag is set a read of the register gives a free value. The model's own
field. -/
structure Written where
  unit : Bool
  func : Bool
  addr : Bool
  count : Bool
  value : Bool
  deriving DecidableEq, Repr

/-- The latched request (R27): REQ_UNIT, REQ_FUNC, REQ_ADDR, REQ_COUNT, REQ_VALUE. -/
structure Latched where
  unit : Byte
  func : Byte
  addr : Word
  count : Word
  value : Word
  deriving DecidableEq, Repr

/-- The result group less RBUF (R36 to R39). -/
structure ResultGroup where
  /-- RES_KIND. -/
  resKind : BitVec 3
  /-- FC_KIND. -/
  fcKind : BitVec 3
  /-- EXC_CODE. -/
  excCode : Byte
  /-- CRC_RX. -/
  crcRx : Word
  /-- CRC_CALC. -/
  crcCalc : Word
  /-- EXP. -/
  exp : Word
  /-- GOT. -/
  got : Word
  /-- MIS_FIELD: false the address field, true the value/quantity field. -/
  misField : Bool
  /-- RES_LEN. -/
  resLen : Word
  deriving DecidableEq, Repr

/-- The result group after reset, and what a failure's own fields are written over: every field 0 (R48, R248). -/
def ResultGroup.zero : ResultGroup :=
  { resKind := 0, fcKind := 0, excCode := 0, crcRx := 0, crcCalc := 0, exp := 0, got := 0, misField := false,
    resLen := 0 }

/-- The Line's own buffers (R44): bytes received and not yet delivered, bytes queued and not yet transmitted. Not
state of the block, but the discards and the reads act on them. -/
structure Line where
  inBuf : List Byte
  outBuf : List Byte
  deriving DecidableEq, Repr

/-- The failures an operation can end with, each with what it records (R240 to R245). -/
inductive Failure where
  /-- The bound violated and the quantity given (R241). -/
  | parameterError (bound quantity : Word)
  /-- No byte before the first stall (R242). -/
  | transportTimeout
  /-- FrameCorruption(Short): the received length (R172). -/
  | short (n : Word)
  /-- FrameCorruption(Checksum): received and computed (R173). -/
  | checksum (received computed : Word)
  /-- FrameCorruption(Function): requested and found (R175). -/
  | function (requested found : Byte)
  /-- FrameCorruption(ByteCount): the count required and the byte found (R180, R183). -/
  | byteCount (required found : Word)
  /-- FrameCorruption(Length): the length required and the received one (R180, R183, R186). -/
  | length (required n : Word)
  /-- FrameCorruption(Echo): which field, the value sent, the value received (R186). -/
  | echo (field : Bool) (sent received : Word)
  /-- FrameCorruption(Overflow): RXCAP and the received length (R171). -/
  | overflow (cap n : Word)
  /-- DeviceException: the raw code (R174, R245). -/
  | deviceException (code : Byte)
  deriving DecidableEq, Repr

/-- The typed result an operation ends with (R211, R212): the data of a read, nothing for a write, or a failure. -/
inductive Result where
  | ok (data : List Word)
  | failed (f : Failure)
  deriving DecidableEq, Repr

/-- The Line's answer to a read (R261). -/
inductive Answer where
  | byte (b : Byte)
  | timeout
  deriving DecidableEq, Repr

/-- What reaches the block from outside (R8), one at a time. -/
inductive Input where
  /-- A packet: a host access or call, or a whole reply. Consumed in Idle or AwaitingReply, after the block's own
  moves. -/
  | packet (p : Packet)
  /-- The same, landing before the block's next move of its own, in whatever state the block is in (R78: host
  accesses and block steps form one total order). -/
  | early (p : Packet)
  /-- The block makes its next move of its own before the events that follow, so that a host access marked `early`, or
  a reset, can land between any two events of the block (R7, R78). Where the block has no such move nothing happens. The
  model's own, log entry 17. -/
  | own
  /-- The Line answers the outstanding read, at the level of the contract (R261). -/
  | answer (a : Answer)
  /-- `rx(b)`: the Line receives a byte (R262). -/
  | rx (b : Byte)
  /-- `tick`: one period of the time base (R262). -/
  | tick
  /-- The Line transmits the next byte it has queued (R270). -/
  | sent
  /-- Reset, in whatever state the block is in (R281). -/
  | reset
  deriving DecidableEq, Repr

/-- What the block emits (R8), and what a host read returns. -/
inductive Output where
  | discardIn
  | discardOut
  | write (frame : List Byte)
  | readReq
  /-- `Return(result)` (R211, R212). -/
  | ret (r : Result)
  /-- A host read of register `reg` returns `value` (R40). -/
  | data (reg : Word) (value : HostWord)
  /-- The host-side wrapper raises ParameterError before touching the block, with the bound and the quantity that the
  failure names (R125, R241, D7). Log entry 20. -/
  | wrapperError (bound : Word) (quantity : Nat)
  /-- The host-side wrapper is given bytes that are no call of an operation and turns them away (R8, R125). DESIGN
  CHOICE, log entry 24. -/
  | noCall (why : Reject)
  deriving DecidableEq, Repr

/-- Raised by the machine in states no run reaches; safe, since the machine stops where the spec gives no effect. -/
inductive Fault where
  /-- Raised by the decode move when REQ_FUNC is none of the eight codes: R177 says it holds one whenever the decoder
  runs, and gives no extraction for another. Safe. -/
  | reservedRequest
  /-- Raised by the decode move when the decoded data does not fit RBUF: R62 gives a write beyond a buffer's capacity
  no meaning. Safe. -/
  | resultOverrun
  deriving DecidableEq, Repr

/-- Events the spec gives no transition and says a model refuses (U7 to U9). All are safe: the model stops where the
spec gives no effect. -/
inductive Refusal where
  /-- Raised by an arm of `exec` whose instruction has no meaning yet. Safe. -/
  | notModelled (mnemonic : String)
  /-- Raised by `Start`, and by a call of an operation, outside Idle (R201, R290, U7). Safe. -/
  | startWhileBusy
  /-- Raised by `Start`, and by a call, with a function code that is none of the eight (R118, R201, U8). Safe. -/
  | reservedFunction
  /-- Raised by a host access to a register number not in the map (R40, U9). Safe. -/
  | reservedRegister (reg : Word)
  /-- Raised by a host write to a read-only register (R40, U9). Safe. -/
  | readOnlyRegister (reg : Word)
  /-- Raised by a host read of CRC_SEED or CRC_DIN, which R40 makes write-only and gives nothing to read. Safe. -/
  | writeOnlyRegister (reg : Word)
  /-- Raised by a host write to an operand register, VBUF or T_CFG outside Idle (R291, U9). Safe. -/
  | writeWhileBusy
  /-- Raised by an access to the checksum port outside Idle (R140, R291, U9). Safe. -/
  | checksumPortBusy
  /-- Raised by an answer of the Line when no read is outstanding: the Line answers requests and nothing else (R250,
  R270). A read that a reset has abandoned is no longer outstanding (DESIGN CHOICE, log entry 31). Safe. -/
  | unsolicitedAnswer
  deriving DecidableEq, Repr

/-- The state: all that R20 lists, then the environment, then the model's own fields. -/
structure State where
  /-- The parameters of R6; no step writes them. -/
  cfg : Config.Params
  /-- CMD_UNIT, CMD_FUNC, CMD_ADDR, CMD_COUNT, CMD_VALUE. -/
  cmd : Operands
  /-- The model's own: which of them hold a value of the host's. -/
  written : Written
  /-- VBUF, at most VCAP entries (R26). -/
  vbuf : Memory 16
  /-- REQ_UNIT, REQ_FUNC, REQ_ADDR, REQ_COUNT, REQ_VALUE. -/
  req : Latched
  /-- CRC (R28). -/
  crc : Word
  /-- The model's own: the content of CRC is the host's, made through the checksum port; else what the host sees
  there is a free value (U5). -/
  crcOwned : Bool
  /-- STATE (R30). -/
  phase : Phase
  /-- The model's own: the event Sending emits next, since a step is one event (R7). Log entry 28. -/
  sendStage : SendStage
  /-- The model's own: a `ReadReq` is outstanding, emitted and not yet answered (R208, R261). Log entry 28. -/
  reading : Bool
  /-- DONE (R31). -/
  done : Bool
  /-- TXBUF, at most TXCAP bytes (R32). -/
  txBuf : List Host.Cell
  /-- TXLEN, 9 bits (R32). -/
  txLen : BitVec 9
  /-- RXBUF, at most RXCAP bytes (R33). -/
  rxBuf : List Host.Cell
  /-- RXLEN, "an unbounded counter in the model" (R33). -/
  rxLen : Nat
  /-- RXOVF (R33). -/
  rxOvf : Bool
  /-- T_CFG, TW bits (R34): a number below 2^TW, which the invariant of Safety.lean says and every step keeps. -/
  tCfg : Nat
  /-- IBT, TW bits (R35). -/
  ibt : Nat
  /-- The result group less RBUF. -/
  res : ResultGroup
  /-- RBUF, at most RCAP entries (R39). -/
  rbuf : Memory 16
  /-- The Line's buffers (R44). -/
  line : Line
  /-- The model's own: what is still to reach the block from outside, next first; the oracle of R12. -/
  inputs : List Input
  /-- The model's own: what the Line does once `inputs` is used up. `none`: it is silent. `some k`: it answers every
  read with a byte, for ever, the next being number `k` of `Config.freeAnswer` (R12, R295). Log entry 30. -/
  endless : Option Nat
  /-- The model's own: what the block has emitted, oldest first. -/
  out : List Output
  /-- The model's own: how many resets there have been, an argument of the free values of unwritten state. -/
  resets : Nat
  /-- The model's own: a counter that gives each unspecified read of the result group a value of its own. -/
  draws : Nat
  deriving DecidableEq, Repr

/-- The machine right after reset under parameters `p` (R48, R280): Idle, no result, counters 0, T_CFG at T_DEFAULT;
what R48 leaves unspecified is 0 and unwritten here, so that no run reads the 0. Log entry 5. -/
def State.resetWith (p : Config.Params) : State :=
  { cfg := p
    cmd := { unit := 0, func := 0, addr := 0, count := 0, value := 0 }
    written := { unit := false, func := false, addr := false, count := false, value := false }
    vbuf := []
    req := { unit := 0, func := 0, addr := 0, count := 0, value := 0 }
    crc := 0
    crcOwned := false
    phase := .idle
    sendStage := .discardIn
    reading := false
    done := false
    txBuf := []
    txLen := 0
    rxBuf := []
    rxLen := 0
    rxOvf := false
    tCfg := p.tDefault
    ibt := 0
    res := ResultGroup.zero
    rbuf := []
    line := { inBuf := [], outBuf := [] }
    inputs := []
    endless := none
    out := []
    resets := 0
    draws := 0 }

/-- The machine right after reset, with the default parameters of R6. -/
def State.reset : State := State.resetWith Config.Params.default

end Sys2Proof.Machine
end

