-- ==== Sys2Proof/Machine/Operands.lean ====
section
/-! DEFINITION. Where operands come from and go: the operand registers and VBUF, the request they are latched into,
and the host's register numbers (10_state.md R21 to R27, R40; 43_transaction.md R202, R203). -/

namespace Sys2Proof.Machine

/-! ### Reading the operand registers. Before the host's first write since reset each gives a free value (R48, U10). -/

/-- CMD_UNIT as read (R21). -/
def unitOperand (s : State) : Byte :=
  if s.written.unit then s.cmd.unit else (Config.freeOperand s.resets 0x00).setWidth 8

/-- CMD_FUNC as read (R22). -/
def funcOperand (s : State) : Byte :=
  if s.written.func then s.cmd.func else (Config.freeOperand s.resets 0x01).setWidth 8

/-- CMD_ADDR as read (R23). -/
def addrOperand (s : State) : Word :=
  if s.written.addr then s.cmd.addr else Config.freeOperand s.resets 0x02

/-- CMD_COUNT as read (R24). -/
def countOperand (s : State) : Word :=
  if s.written.count then s.cmd.count else Config.freeOperand s.resets 0x03

/-- CMD_VALUE as read (R25). -/
def valueOperand (s : State) : Word :=
  if s.written.value then s.cmd.value else Config.freeOperand s.resets 0x04

/-- VBUF[i] as read (R26): what the host last wrote there, whatever CMD_COUNT is. DESIGN CHOICE, log entry 32: U4 calls
the contents of the entries at or beyond CMD_COUNT any value, where R26 and R40 make VBUF readable. -/
def vbufEntry (s : State) (i : Nat) : Word := (memGet s.vbuf i).getD (Config.freeEntry s.resets i)

/-- VBUF[0 .. q−1] as read (R26). -/
def vbufEntries (s : State) (q : Nat) : List Word := memRead s.vbuf (Config.freeEntry s.resets) q

/-! ### Writing them -/

/-- A write of CMD_UNIT. -/
def setUnit (v : Byte) (s : State) : State :=
  { s with cmd := { s.cmd with unit := v }, written := { s.written with unit := true } }

/-- A write of CMD_FUNC. -/
def setFunc (v : Byte) (s : State) : State :=
  { s with cmd := { s.cmd with func := v }, written := { s.written with func := true } }

/-- A write of CMD_ADDR. -/
def setAddr (v : Word) (s : State) : State :=
  { s with cmd := { s.cmd with addr := v }, written := { s.written with addr := true } }

/-- A write of CMD_COUNT. -/
def setCount (v : Word) (s : State) : State :=
  { s with cmd := { s.cmd with count := v }, written := { s.written with count := true } }

/-- A write of CMD_VALUE. -/
def setValue (v : Word) (s : State) : State :=
  { s with cmd := { s.cmd with value := v }, written := { s.written with value := true } }

/-- A write of VBUF[i]. -/
def setVbuf (i : Nat) (v : Word) (s : State) : State := { s with vbuf := memSet s.vbuf i v }

/-- Writes of VBUF[0 ..], as many as VBUF has entries (R26, R125). -/
def loadVbuf (values : List Word) (s : State) : State :=
  { s with vbuf := memWrite s.vbuf 0 (values.take Config.vCap) }

/-- A write of T_CFG: `x[T_CFG] <- trunc_TW(t)` (R216, R40). -/
def setTimer (t : HostWord) (s : State) : State := { s with tCfg := t % 2 ^ s.cfg.tw }

/-! ### The parameter check and the latch -/

/-- The ceiling MBL §3 sets for an operation's quantity (R5, R202); the single writes have no quantity. -/
def ceiling : Op → Option Word
  | .readCoils => some 2000
  | .readDiscreteInputs => some 2000
  | .readHoldingRegisters => some 125
  | .readInputRegisters => some 125
  | .writeSingleCoil => none
  | .writeSingleRegister => none
  | .writeMultipleCoils => some 1968
  | .writeMultipleRegisters => some 123

/-- The parameter check: the bound that quantity `q` violates, `none` when it is admitted (R202). -/
def violatedBound (p : Config.Params) (op : Op) (q : Word) : Option Word :=
  match ceiling op with
  | none => none
  | some c => if c < q then some c else if q < p.qtyFloor then some p.qtyFloor else none

/-- REQ_VALUE: the value as it goes on the wire (R27, R203). Of CMD_VALUE the coil takes bit 0 only (R25). -/
def wireValue (op : Op) (v : Word) : Word :=
  match op with
  | .writeSingleCoil => coilWord (v.getLsbD 0)
  | _ => v

/-- The latch of R203. -/
def latched (op : Op) (s : State) : Latched :=
  { unit := unitOperand s, func := funcOperand s, addr := addrOperand s, count := countOperand s,
    value := wireValue op (valueOperand s) }

/-- The body of the request that the latched operands and the entries of VBUF make (R204; R151 to R158). -/
def requestBody (op : Op) (r : Latched) (entries : List Word) : List Byte :=
  match op with
  | .readCoils => bodyReadCoils r.unit r.addr r.count
  | .readDiscreteInputs => bodyReadDiscreteInputs r.unit r.addr r.count
  | .readHoldingRegisters => bodyReadHoldingRegisters r.unit r.addr r.count
  | .readInputRegisters => bodyReadInputRegisters r.unit r.addr r.count
  | .writeSingleCoil => bodyWriteSingleCoil r.unit r.addr r.value
  | .writeSingleRegister => bodyWriteSingleRegister r.unit r.addr r.value
  | .writeMultipleCoils => bodyWriteMultipleCoils r.unit r.addr r.count (entries.map (·.getLsbD 0))
  | .writeMultipleRegisters => bodyWriteMultipleRegisters r.unit r.addr r.count entries

/-! ### The register map -/

/-- The registers the host reaches by number (R40). -/
inductive Reg where
  | cmdUnit
  | cmdFunc
  | cmdAddr
  | cmdCount
  | cmdValue
  | ctrl
  | status
  | tCfg
  | resKind
  | fcKind
  | excCode
  | crcRx
  | crcCalc
  | exp
  | got
  | misField
  | resLen
  | rxLen
  | crcSeed
  | crcDin
  | crcVal
  | vbuf (i : Nat)
  | rbuf (i : Nat)
  deriving DecidableEq, Repr

/-- The register a number below 0x1000 names (R40). -/
def lowRegister (n : Nat) : Option Reg :=
  match n with
  | 0x00 => some .cmdUnit
  | 0x01 => some .cmdFunc
  | 0x02 => some .cmdAddr
  | 0x03 => some .cmdCount
  | 0x04 => some .cmdValue
  | 0x05 => some .ctrl
  | 0x06 => some .status
  | 0x07 => some .tCfg
  | 0x08 => some .resKind
  | 0x09 => some .fcKind
  | 0x0A => some .excCode
  | 0x0B => some .crcRx
  | 0x0C => some .crcCalc
  | 0x0D => some .exp
  | 0x0E => some .got
  | 0x0F => some .misField
  | 0x10 => some .resLen
  | 0x11 => some .rxLen
  | 0x12 => some .crcSeed
  | 0x13 => some .crcDin
  | 0x14 => some .crcVal
  | _ => none

/-- The register a number names, `none` for a reserved number (R40). -/
def registerAt (reg : Word) : Option Reg :=
  let n := reg.toNat
  if n < 0x1000 then lowRegister n
  else if n < 0x1000 + Config.vCap then some (.vbuf (n - 0x1000))
  else if n < 0x2000 then none
  else if n < 0x2000 + Config.rCap then some (.rbuf (n - 0x2000))
  else none

end Sys2Proof.Machine
end

