-- ==== Sys2Proof/Machine/Decoder.lean ====
section
/-! DEFINITION. The decode-and-validate side of the Frame Codec: 42_decode.md R170 to R192. Pure functions of the
received bytes and the latched request (R193 item 5). -/

namespace Sys2Proof.Machine

/-- What the decoder is given: RXCAP, RXOVF, the received count `n`, the stored bytes `f`, and the latched request
(R170, R193 item 5). -/
structure Received where
  rxCap : Option Nat
  ovf : Bool
  n : Nat
  f : List Byte
  req : Latched
  deriving DecidableEq, Repr

/-- `min(v, 0xFFFF)` as a register's value (R244). -/
def saturate (v : Nat) : Word := BitVec.ofNat 16 (min v 0xFFFF)

/-- RXCAP as the Overflow failure records it (R171, R244). -/
def capWord : Option Nat → Word
  | some c => saturate c
  | none => 0xFFFF

/-- `f[k]`. Every use stands behind a length check that makes `k` an offset of `f` (R62, R172). -/
def byteAt (f : List Byte) (k : Nat) : Byte := f.getD k 0

/-- Checks 0 to 4, in order; `none` when all pass (R170 to R175). -/
def commonFailure (x : Received) : Option Failure :=
  if x.ovf then some (.overflow (capWord x.rxCap) (saturate x.n))
  else if x.n < 5 then some (.short (BitVec.ofNat 16 x.n))
  else if crcCalc x.f ≠ crcRx x.f then some (.checksum (crcRx x.f) (crcCalc x.f))
  else if 0x80#8 < byteAt x.f 1 then some (.deviceException (byteAt x.f 2))
  else if byteAt x.f 1 ≠ x.req.func then some (.function x.req.func (byteAt x.f 1))
  else none

/-- `dec_bits(f, n, qty)` (R180): one bit an entry, in bit 0 (R39). -/
def decBits (f : List Byte) (n qty : Nat) : Result :=
  let need := bitBytes qty
  let bc := byteAt f 2
  if bc.toNat < need then .failed (.byteCount (BitVec.ofNat 16 need) (bc.setWidth 16))
  else if n - 5 < need then .failed (.length (saturate (5 + need)) (saturate n))
  else .ok ((List.range qty).map fun i => if (byteAt f (3 + i / 8)).getLsbD (i % 8) then 1 else 0)

/-- `dec_regs(f, n, qty)`, with `2 × qty` on unbounded integers (R183, D10). -/
def decRegs (f : List Byte) (n qty : Nat) : Result :=
  let bc := byteAt f 2
  if bc.toNat ≠ 2 * qty then .failed (.byteCount (saturate (2 * qty)) (bc.setWidth 16))
  else if n < 5 + 2 * qty then .failed (.length (saturate (5 + 2 * qty)) (saturate n))
  else .ok ((List.range qty).map fun i => be16 (byteAt f (3 + 2 * i)) (byteAt f (4 + 2 * i)))

/-- `dec_echo(f, n, A, B)`: the address field is compared first (R186, D12). -/
def decEcho (f : List Byte) (n : Nat) (a b : Word) : Result :=
  if n ≠ 8 then .failed (.length 8 (saturate n))
  else if be16 (byteAt f 2) (byteAt f 3) ≠ a then .failed (.echo false a (be16 (byteAt f 2) (byteAt f 3)))
  else if be16 (byteAt f 4) (byteAt f 5) ≠ b then .failed (.echo true b (be16 (byteAt f 4) (byteAt f 5)))
  else .ok []

/-- Checks 0 to 4, then the extraction `k` (R170, R177). -/
def checked (x : Received) (k : Result) : Result :=
  match commonFailure x with
  | some e => .failed e
  | none => k

/-- Decode ReadCoils reply (R181). -/
def decReadCoils (x : Received) : Result := checked x (decBits x.f x.n x.req.count.toNat)

/-- Decode ReadDiscreteInputs reply (R182). -/
def decReadDiscreteInputs (x : Received) : Result := checked x (decBits x.f x.n x.req.count.toNat)

/-- Decode ReadHoldingRegisters reply (R184). -/
def decReadHoldingRegisters (x : Received) : Result := checked x (decRegs x.f x.n x.req.count.toNat)

/-- Decode ReadInputRegisters reply (R185). -/
def decReadInputRegisters (x : Received) : Result := checked x (decRegs x.f x.n x.req.count.toNat)

/-- Decode WriteSingleCoil reply (R187). -/
def decWriteSingleCoil (x : Received) : Result := checked x (decEcho x.f x.n x.req.addr x.req.value)

/-- Decode WriteSingleRegister reply (R188). -/
def decWriteSingleRegister (x : Received) : Result := checked x (decEcho x.f x.n x.req.addr x.req.value)

/-- Decode WriteMultipleCoils reply (R189). -/
def decWriteMultipleCoils (x : Received) : Result := checked x (decEcho x.f x.n x.req.addr x.req.count)

/-- Decode WriteMultipleRegisters reply (R190). -/
def decWriteMultipleRegisters (x : Received) : Result := checked x (decEcho x.f x.n x.req.addr x.req.count)

/-- The decoder for the requested operation (R177). -/
def decodeFor (op : Op) (x : Received) : Result :=
  match op with
  | .readCoils => decReadCoils x
  | .readDiscreteInputs => decReadDiscreteInputs x
  | .readHoldingRegisters => decReadHoldingRegisters x
  | .readInputRegisters => decReadInputRegisters x
  | .writeSingleCoil => decWriteSingleCoil x
  | .writeSingleRegister => decWriteSingleRegister x
  | .writeMultipleCoils => decWriteMultipleCoils x
  | .writeMultipleRegisters => decWriteMultipleRegisters x

/-- What CRC holds after the decode: the computed checksum if check 2 was reached, else what it held (R173). -/
def crcAfterDecode (x : Received) (crc : Word) : Word := if x.ovf || decide (x.n < 5) then crc else crcCalc x.f

end Sys2Proof.Machine
end

