-- ==== Sys2Proof/Machine/Flags.lean ====
section
/-! DEFINITION. The block's flags: what each result writes into the result group, the STATUS register, and the
description of an exception code (10_state.md R30, R31, R36 to R40; 60_exceptions.md R240 to R248). -/

namespace Sys2Proof.Machine

/-- The result group a failure records; what R241 to R245 do not name is 0 (R36, R37, R244, R248). -/
def failureGroup : Failure → ResultGroup
  | .parameterError bound q => { ResultGroup.zero with resKind := 1, exp := bound, got := q }
  | .transportTimeout => { ResultGroup.zero with resKind := 2 }
  | .short n => { ResultGroup.zero with resKind := 3, fcKind := 1, exp := 5, got := n }
  | .checksum rx computed =>
    { ResultGroup.zero with resKind := 3, fcKind := 2, crcRx := rx, crcCalc := computed }
  | .function e g => { ResultGroup.zero with resKind := 3, fcKind := 3, exp := e.setWidth 16, got := g.setWidth 16 }
  | .byteCount e g => { ResultGroup.zero with resKind := 3, fcKind := 4, exp := e, got := g }
  | .length e n => { ResultGroup.zero with resKind := 3, fcKind := 5, exp := e, got := n }
  | .echo field e g => { ResultGroup.zero with resKind := 3, fcKind := 6, exp := e, got := g, misField := field }
  | .overflow cap n => { ResultGroup.zero with resKind := 3, fcKind := 7, exp := cap, got := n }
  | .deviceException code => { ResultGroup.zero with resKind := 4, excCode := code }

/-- The result group of a success with `n` result entries (R211, R248). -/
def okGroup (n : Nat) : ResultGroup := { ResultGroup.zero with resLen := BitVec.ofNat 16 n }

/-- The whole result group an operation's end writes (R248). -/
def resultGroup : Result → ResultGroup
  | .ok data => okGroup data.length
  | .failed f => failureGroup f

/-- The value of STATE for each state (R30). -/
def phaseCode : Phase → BitVec 3
  | .idle => 0
  | .sending => 1
  | .awaitingReply => 2
  | .decoding => 3
  | .failed => 4

/-- BUSY = (STATE ≠ Idle) (R40). -/
def busy (s : State) : Bool := s.phase != .idle

/-- STATUS: bits 2..0 STATE, bit 3 BUSY, bit 4 DONE (R40). -/
def statusWord (s : State) : BitVec 5 :=
  BitVec.ofBool s.done ++ BitVec.ofBool (busy s) ++ phaseCode s.phase

/-- The descriptions of device exception codes (R246). -/
inductive Description where
  | illegalFunction
  | illegalAddress
  | illegalValue
  | deviceFailure
  | unknown
  deriving DecidableEq, Repr

/-- The description of a raw code, a function of the code and not stored (R120, R245, R246). -/
def describe (code : Byte) : Description :=
  match code.toNat with
  | 0x01 => .illegalFunction
  | 0x02 => .illegalAddress
  | 0x03 => .illegalValue
  | 0x04 => .deviceFailure
  | _ => .unknown

end Sys2Proof.Machine
end

