-- ==== Sys2Proof/Machine/Ops.lean ====
section
/-! DEFINITION. The named operations of the block over its state: the checksum port (40_crc.md), the Transaction
Coordinator's transitions (43_transaction.md R200 to R214), and the one operation that ends an operation with a
result or a failure (60_exceptions.md R248). -/

namespace Sys2Proof.Machine

/-- What one event leads to. -/
abbrev Outcome := Host.Outcome State Fault Refusal

/-- The block emits `es` (R8). -/
def emit (es : List Output) (s : State) : State := { s with out := s.out ++ es }

/-- The state that is to meet the events `xs`, next first (R12). -/
def withInputs (xs : List Input) (s : State) : State := { s with inputs := xs }

/-- The outcome of an event the block accepts in Idle only, refused elsewhere as `r` (R40, R140, R200, R291). -/
def whenIdle (r : Refusal) (s : State) (t : State) : Outcome := if busy s then .refused r else .next t

/-! ### The checksum port -/

/-- What the host sees in CRC: its own computation, else a free value (R133, R140, U5). -/
def hostCrc (s : State) : Word := if s.crcOwned then s.crc else Config.freeCrc s.resets s.crc

/-- CRC.SEED (R131). -/
def seedCrc (s : State) : State := { s with crc := crcSeedValue, crcOwned := true }

/-- CRC.BYTE b (R132). -/
def feedCrc (b : Byte) (s : State) : State := { s with crc := crcUpdate (hostCrc s) b, crcOwned := true }

/-! ### Ending an operation: the place of taking an exception, and of returning from it -/

/-- RBUF after a result: the data of a read at offsets 0 on; a failure and a write leave it (R39, R211, R248). -/
def resultBuffer (m : Memory 16) : Result → Memory 16
  | .ok data => memWrite m 0 data
  | .failed _ => m

/-- The end of an operation, successful or not: the whole result group written, STATE ← Idle, DONE ← 1,
`Return(result)` emitted, nothing else changed (R211, R212, R248). A failure passes through Failed inside this step,
and there is no other return operation (R254, C6). -/
def finish (r : Result) (s : State) : State :=
  { s with res := resultGroup r, rbuf := resultBuffer s.rbuf r, phase := .idle, done := true,
           out := s.out ++ [.ret r], draws := s.draws + 1 }

/-- `raise <Failure>(info)` (R10, R212). -/
def fail (f : Failure) (s : State) : State := finish (.failed f) s

/-- What R212 does last, from a state in Failed: only an implementation that spreads the step over cycles is ever in
one. -/
def leaveFailed (s : State) : State := { s with phase := .idle, done := true }

/-! ### Start -/

/-- Latch and encode (R203, R204): the REQ registers, the request in TXBUF, CRC left holding its checksum (R150),
STATE ← Sending. -/
def latchAndEncode (op : Op) (s : State) : State :=
  let r := latched op s
  let body := requestBody op r (vbufEntries s r.count.toNat)
  { s with req := r, crc := checksum body, crcOwned := false, txBuf := memWrite s.txBuf 0 (sealed body),
           txLen := BitVec.ofNat 9 (sealed body).length, phase := .sending, sendStage := .discardIn }

/-- The first thing an accepted `Start` does: DONE ← 0 (R31, R201). -/
def clearDone (s : State) : State := { s with done := false }

/-- An accepted `Start` of operation `op`: DONE ← 0, then the parameter check, then latch and encode (R201 to
R204). -/
def accept (op : Op) (s : State) : State :=
  match violatedBound s.cfg op (countOperand s) with
  | some bound => fail (.parameterError bound (countOperand s)) (clearDone s)
  | none => latchAndEncode op (clearDone s)

/-- `Start(cmd)`: accepted only in Idle and with one of the eight codes in CMD_FUNC (R201). -/
def startOperation (s : State) : Outcome :=
  if busy s then .refused .startWhileBusy
  else
    match opOfCode (funcOperand s) with
    | none => .refused .reservedFunction
    | some op => .next (accept op s)

/-! ### Sending -/

/-- The request as written: TXBUF[0 .. TXLEN−1] (R206). -/
def requestFrame (s : State) : List Byte := memRead s.txBuf (Config.freeByte s.resets) s.txLen.toNat

/-- The block emits `DiscardIn` (R205), and the Line drops what it has received (R82). -/
def discardIn (s : State) : State :=
  { s with line := { s.line with inBuf := [] }, sendStage := .discardOut, out := s.out ++ [.discardIn] }

/-- The block emits `DiscardOut` (R205), and the Line drops what it has queued (R82). -/
def discardOut (s : State) : State :=
  { s with line := { s.line with outBuf := [] }, sendStage := .write, out := s.out ++ [.discardOut] }

/-- The block emits `Write(frame)`, the whole request in one event (R206), which the Line queues (R270), and enters
AwaitingReply with no byte received (R207) and no read issued. -/
def writeRequest (s : State) : State :=
  { s with line := { s.line with outBuf := s.line.outBuf ++ requestFrame s }, rxLen := 0, rxOvf := false,
           phase := .awaitingReply, reading := false, out := s.out ++ [.write (requestFrame s)] }

/-- One step of Sending: one event of the three, in their order (R205, R206). -/
def sendStep (s : State) : State :=
  match s.sendStage with
  | .discardIn => discardIn s
  | .discardOut => discardOut s
  | .write => writeRequest s

/-- The block emits `ReadReq`: a read is outstanding, and IBT is loaded (R208, R262). -/
def issueRead (s : State) : State :=
  { s with reading := true, ibt := s.tCfg, out := s.out ++ [.readReq] }

/-- Sending, whole, with the first read (R205 to R208, D22): the four steps that follow a built request. -/
def sendRequest (s : State) : State := issueRead (writeRequest (discardOut (discardIn s)))

/-! ### AwaitingReply -/

/-- There is room in RXBUF for the next byte (R33). -/
def hasRoom (s : State) : Bool :=
  match s.cfg.rxCap with
  | none => true
  | some c => decide (s.rxLen < c)

/-- A read is outstanding: the Line may answer it (R261). -/
def awaitsAnswer (s : State) : Bool := s.phase == .awaitingReply && s.reading

/-- The read is answered `Byte(b)`: the byte is stored while it fits, and counted always (R208, R33). -/
def receiveByte (b : Byte) (s : State) : State :=
  { s with rxBuf := if hasRoom s then memSet s.rxBuf s.rxLen b else s.rxBuf,
           rxOvf := if hasRoom s then s.rxOvf else true, rxLen := s.rxLen + 1, reading := false }

/-- Bytes answered one after the other, the next read issued after each (R208). -/
def receiveBytes (bs : List Byte) (s : State) : State := bs.foldl (fun s b => issueRead (receiveByte b s)) s

/-- The block's own move where no read is outstanding in AwaitingReply, made; else nothing (R208). -/
def readOn (s : State) : State := if s.phase = .awaitingReply ∧ s.reading = false then issueRead s else s

/-- The Line's events to come are used up: it answers an outstanding read with the next byte of its endless sequence, if
it has one (R12, R295); else nothing happens and the block waits (R274). Log entry 30. -/
def receiveEndless (s : State) : State :=
  match s.endless with
  | none => s
  | some k =>
    if awaitsAnswer s then receiveByte (Config.freeAnswer k) { s with endless := some (k + 1) } else s

/-- The read is answered `Timeout`: with no byte the operation ends in TransportTimeout, else STATE ← Decoding
(R209). IBT has run down to 0, as R262 says. -/
def stall (s : State) : State :=
  if s.rxLen = 0 then fail .transportTimeout { s with ibt := 0, reading := false }
  else { s with ibt := 0, reading := false, phase := .decoding }

/-- A byte arrives: it answers an outstanding read if no byte waits before it, else it waits in the Line's input
buffer (R44, R262). -/
def arrive (b : Byte) (s : State) : State :=
  if awaitsAnswer s && s.line.inBuf.isEmpty then receiveByte b s
  else { s with line := { s.line with inBuf := s.line.inBuf ++ [b] } }

/-- A byte that waits in the Line's input buffer answers the outstanding read, before any tick (R262). -/
def takeWaiting (s : State) : State :=
  match s.line.inBuf with
  | [] => s
  | b :: rest => receiveByte b { s with line := { s.line with inBuf := rest } }

/-- IBT counted down by one, not below 0 (R262). -/
def countDown (t : Nat) : Nat := t - 1

/-- `tick`: while a read is outstanding IBT counts down, and at 0 the read is answered `Timeout`; elsewhere the
counter does not run (R262). -/
def tickTimer (s : State) : State :=
  if awaitsAnswer s then
    if countDown s.ibt = 0 then stall s else { s with ibt := countDown s.ibt }
  else s

/-- The Line transmits the next byte it has queued (R270); nothing of the block changes (R206). -/
def lineSent (s : State) : State := { s with line := { s.line with outBuf := s.line.outBuf.tail } }

/-! ### Decoding -/

/-- How many bytes of the reply are stored: RXLEN, as far as RXBUF goes (R33). -/
def storedCount (s : State) : Nat :=
  match s.cfg.rxCap with
  | none => s.rxLen
  | some c => min s.rxLen c

/-- What is stored of the reply: RXBUF[0 .. RXLEN−1], as far as RXBUF goes (R33, R170). -/
def storedReply (s : State) : List Byte := memRead s.rxBuf (Config.freeByte s.resets) (storedCount s)

/-- What the decoder is given (R210). -/
def received (s : State) : Received :=
  { rxCap := s.cfg.rxCap, ovf := s.rxOvf, n := s.rxLen, f := storedReply s, req := s.req }

/-- The end that verdict `r` gives: data beyond RBUF's capacity has no meaning (R62); else the result is recorded
(R210 to R212). -/
def conclude (r : Result) (s : State) : Outcome :=
  match r with
  | .failed f => .next (fail f s)
  | .ok data => if Config.rCap < data.length then .fault .resultOverrun else .next (finish (.ok data) s)

/-- Decoding: the decoder of the requested function on the received bytes, then success or failure (R177, R210). -/
def decodeMove (s : State) : Outcome :=
  match opOfCode s.req.func with
  | none => .fault .reservedRequest
  | some op => conclude (decodeFor op (received s)) { s with crc := crcAfterDecode (received s) s.crc }

/-! ### A whole reply, and the whole transaction -/

/-- The Line delivers `f`, one byte an answer, and then stalls once (R208 to R210). Bytes that reach no read wait in
the Line's input buffer (R44), and the stall then answers nothing. -/
def deliverReply (f : List Byte) (s : State) : Outcome :=
  if s.phase = .awaitingReply then
    let t := stall (receiveBytes (s.line.inBuf ++ f) (readOn { s with line := { s.line with inBuf := [] } }))
    if t.phase = .decoding then decodeMove t else .next t
  else .next { s with line := { s.line with inBuf := s.line.inBuf ++ f } }

/-- The event of the Line's that `x` is, while a read is outstanding, with the next read after a byte; `none` for an event
that is not the Line's. -/
def lineEvent (x : Input) (s : State) : Option State :=
  match x with
  | .answer (.byte b) => some (readOn (receiveByte b s))
  | .answer .timeout => some (stall s)
  | .rx b => some (readOn (arrive b s))
  | .tick => some (tickTimer s)
  | .sent => some (lineSent s)
  | .packet (.reply f) => some (stall (receiveBytes f s))
  | _ => none

/-- The read loop of R208 over the events to come: it ends when a read stalls, when the next event is not the Line's,
or when there is none. -/
def awaitReply : List Input → State → State
  | [], s => withInputs [] s
  | x :: rest, s =>
    if s.phase = .awaitingReply then
      match lineEvent x s with
      | some s' => awaitReply rest s'
      | none => withInputs (x :: rest) s
    else withInputs (x :: rest) s

/-- Decoding follows at once when the read loop has ended there (R214). -/
def afterAwait (s : State) : Outcome := if s.phase = .decoding then decodeMove s else .next s

/-- `transact`: the whole of an operation from its accepted `Start`, against the Line's events to come (R214). If they
end before a read stalls, the block is left in AwaitingReply and later events, or the endless answers of R12, go on
from there (R295). -/
def transact (op : Op) (s : State) : Outcome :=
  let t := accept op s
  if t.phase = .sending then afterAwait (awaitReply t.inputs (sendRequest t)) else .next t

/-- The host's blocking call of operation `op`: the register writes `load` (R125), then `Start` and the transaction.
Outside Idle it is the overlapping call of R290. -/
def callOperation (op : Op) (load : State → State) (s : State) : Outcome :=
  if busy s then .refused .startWhileBusy else transact op (load s)

/-! ### Reset -/

/-- Reset, in whatever state the block is in (R280, R281): the block's state is that of R48; the Line is not told;
what is still to come and what has been emitted stand. Log entry 21. A read that was outstanding counts as withdrawn
(DESIGN CHOICE, log entry 31). -/
def resetBlock (s : State) : State :=
  { State.resetWith s.cfg with
    line := s.line, inputs := s.inputs, endless := s.endless, out := s.out, resets := s.resets + 1, draws := s.draws + 1 }

end Sys2Proof.Machine
end

