-- ==== Sys2Proof/Machine/HostPort.lean ====
section
/-! DEFINITION. The host's accesses to the register map (10_state.md R40; 70_reset_and_hazards.md R291;
93_implementation_defined.md U9, U17). -/

namespace Sys2Proof.Machine

/-- A host write of `data` to register number `reg`, truncated to the register's width (R40). The five events of the
table that are writes are the same operations as their instructions. -/
def hostWrite (reg : Word) (data : HostWord) (s : State) : Outcome :=
  match registerAt reg with
  | none => .refused (.reservedRegister reg)
  | some .cmdUnit => whenIdle .writeWhileBusy s (setUnit (BitVec.ofNat 8 data) s)
  | some .cmdFunc => whenIdle .writeWhileBusy s (setFunc (BitVec.ofNat 8 data) s)
  | some .cmdAddr => whenIdle .writeWhileBusy s (setAddr (BitVec.ofNat 16 data) s)
  | some .cmdCount => whenIdle .writeWhileBusy s (setCount (BitVec.ofNat 16 data) s)
  | some .cmdValue => whenIdle .writeWhileBusy s (setValue (BitVec.ofNat 16 data) s)
  | some .ctrl => if data.testBit 0 then startOperation s else .next s
  | some .tCfg => whenIdle .writeWhileBusy s (setTimer data s)
  | some .crcSeed => whenIdle .checksumPortBusy s (seedCrc s)
  | some .crcDin => whenIdle .checksumPortBusy s (feedCrc (BitVec.ofNat 8 data) s)
  | some (.vbuf i) => whenIdle .writeWhileBusy s (setVbuf i (BitVec.ofNat 16 data) s)
  | some .status | some .resKind | some .fcKind | some .excCode | some .crcRx | some .crcCalc | some .exp
  | some .got | some .misField | some .resLen | some .rxLen | some .crcVal | some (.rbuf _) =>
    .refused (.readOnlyRegister reg)

/-- A read of register number `reg` returns `v` to the host. -/
def answerRead (reg : Word) (v : HostWord) (s : State) : State := emit [.data reg v] s

/-- A read of a register of the result group, `w` bits wide: `v` while no transaction is in flight, else a free value
of that width, another at every read (R291, U17). -/
def answerResult {w : Nat} (reg : Word) (v : BitVec w) (s : State) : State :=
  if busy s then
    answerRead reg ((Config.freeResult s.draws reg.toNat).setWidth w).toNat { s with draws := s.draws + 1 }
  else answerRead reg v.toNat s

/-- RBUF[i] as read: the result's entry below RES_LEN, a free value elsewhere (R39, U4). -/
def rbufEntry (s : State) (i : Nat) : Word :=
  if i < s.res.resLen.toNat then (memGet s.rbuf i).getD (Config.freeResult s.draws (0x2000 + i))
  else Config.freeResult s.draws (0x2000 + i)

/-- CRC.READ: the register as the host sees it, unchanged (R133). -/
def readCrc (s : State) : State := answerRead 0x14 (hostCrc s).toNat s

/-- A host read of register number `reg` (R40). CTRL reads as 0; RXLEN saturates at 0xFFFF. A read of an operand
register, of VBUF or of T_CFG sees the latest write in every state (R78, R291; log entry 13). -/
def hostRead (reg : Word) (s : State) : Outcome :=
  match registerAt reg with
  | none => .refused (.reservedRegister reg)
  | some .cmdUnit => .next (answerRead reg (unitOperand s).toNat s)
  | some .cmdFunc => .next (answerRead reg (funcOperand s).toNat s)
  | some .cmdAddr => .next (answerRead reg (addrOperand s).toNat s)
  | some .cmdCount => .next (answerRead reg (countOperand s).toNat s)
  | some .cmdValue => .next (answerRead reg (valueOperand s).toNat s)
  | some .ctrl => .next (answerRead reg 0 s)
  | some .status => .next (answerRead reg (statusWord s).toNat s)
  | some .tCfg => .next (answerRead reg s.tCfg s)
  | some .resKind => .next (answerResult reg s.res.resKind s)
  | some .fcKind => .next (answerResult reg s.res.fcKind s)
  | some .excCode => .next (answerResult reg s.res.excCode s)
  | some .crcRx => .next (answerResult reg s.res.crcRx s)
  | some .crcCalc => .next (answerResult reg s.res.crcCalc s)
  | some .exp => .next (answerResult reg s.res.exp s)
  | some .got => .next (answerResult reg s.res.got s)
  | some .misField => .next (answerResult reg (BitVec.ofBool s.res.misField) s)
  | some .resLen => .next (answerResult reg s.res.resLen s)
  | some .rxLen => .next (answerRead reg (saturate s.rxLen).toNat s)
  | some .crcSeed => .refused (.writeOnlyRegister reg)
  | some .crcDin => .refused (.writeOnlyRegister reg)
  | some .crcVal => whenIdle .checksumPortBusy s (readCrc s)
  | some (.vbuf i) => .next (answerRead reg (vbufEntry s i).toNat s)
  | some (.rbuf i) => .next (answerResult reg (rbufEntry s i) s)

end Sys2Proof.Machine
end

