-- ==== Sys2Proof/Machine/HostEvents.lean ====
section
/-! DEFINITION. The five host events of the table: 40_crc.md R131 to R133, R140; 43_transaction.md R201, R216. -/

namespace Sys2Proof.Machine

/-- CRC.SEED: `x[CRC] <- 0xFFFF`, in Idle (R131, R140). -/
def execCrcSeed (s : State) : Outcome := whenIdle .checksumPortBusy s (seedCrc s)

/-- CRC.BYTE b: `x[CRC] <- crc_update(x[CRC], b)`, in Idle (R132, R140). -/
def execCrcByte (b : Byte) (s : State) : Outcome := whenIdle .checksumPortBusy s (feedCrc b s)

/-- CRC.READ: returns `x[CRC]`, in Idle (R133, R140). -/
def execCrcRead (s : State) : Outcome := whenIdle .checksumPortBusy s (readCrc s)

/-- SetTimeout(t): `x[T_CFG] <- trunc_TW(t)`, in Idle (R216). -/
def execSetTimeout (t : HostWord) (s : State) : Outcome := whenIdle .writeWhileBusy s (setTimer t s)

/-- Start: bit 0 of the data written 1 is the event `Start(cmd)`; 0 does nothing (R40, R201). -/
def execStart (go : Bool) (s : State) : Outcome := if go then startOperation s else .next s

end Sys2Proof.Machine
end

