-- ==== Sys2Proof/Machine/Replies.lean ====
section
/-! DEFINITION. The nine reply frames as the Line delivers them: the bytes, one an answer, then one stalled read;
in AwaitingReply the decoder of the requested function then gives the verdict (42_decode.md R170 to R190,
43_transaction.md R208 to R212). In another state nothing reads them and they wait in the Line's input buffer
(10_state.md R44). -/

namespace Sys2Proof.Machine

/-- ReadCoils.reply (R94, R181). -/
def execReadCoilsReply (unit count : Byte) (data : List Byte) (crc : Word) (s : State) : Outcome :=
  deliverReply (replyFrame unit 0x01 (count :: data) crc) s

/-- ReadDiscreteInputs.reply (R94, R182). -/
def execReadDiscreteInputsReply (unit count : Byte) (data : List Byte) (crc : Word) (s : State) : Outcome :=
  deliverReply (replyFrame unit 0x02 (count :: data) crc) s

/-- ReadHoldingRegisters.reply (R95, R184). -/
def execReadHoldingRegistersReply (unit count : Byte) (data : List Byte) (crc : Word) (s : State) : Outcome :=
  deliverReply (replyFrame unit 0x03 (count :: data) crc) s

/-- ReadInputRegisters.reply (R95, R185). -/
def execReadInputRegistersReply (unit count : Byte) (data : List Byte) (crc : Word) (s : State) : Outcome :=
  deliverReply (replyFrame unit 0x04 (count :: data) crc) s

/-- WriteSingleCoil.reply (R97, R187). -/
def execWriteSingleCoilReply (unit : Byte) (addr value crc : Word) (s : State) : Outcome :=
  deliverReply (replyFrame unit 0x05 (be16bytes addr ++ be16bytes value) crc) s

/-- WriteSingleRegister.reply (R97, R188). -/
def execWriteSingleRegisterReply (unit : Byte) (addr value crc : Word) (s : State) : Outcome :=
  deliverReply (replyFrame unit 0x06 (be16bytes addr ++ be16bytes value) crc) s

/-- WriteMultipleCoils.reply (R97, R189). -/
def execWriteMultipleCoilsReply (unit : Byte) (start qty crc : Word) (s : State) : Outcome :=
  deliverReply (replyFrame unit 0x0F (be16bytes start ++ be16bytes qty) crc) s

/-- WriteMultipleRegisters.reply (R97, R190). -/
def execWriteMultipleRegistersReply (unit : Byte) (start qty crc : Word) (s : State) : Outcome :=
  deliverReply (replyFrame unit 0x10 (be16bytes start ++ be16bytes qty) crc) s

/-- Exception.reply (R98, R174): the function byte has bit 7 set, its low seven bits are `func`. -/
def execExceptionReply (unit : Byte) (func : BitVec 7) (code : Byte) (extra : List Byte) (crc : Word) (s : State) :
    Outcome :=
  deliverReply (replyFrame unit (1#1 ++ func) (code :: extra) crc) s

end Sys2Proof.Machine
end

