-- ==== Sys2Proof/Machine/Requests.lean ====
section
/-! DEFINITION. The eight public operations as the host's blocking calls: 43_transaction.md R221 to R228, with the
register writes of 30_encoding.md R125. -/

namespace Sys2Proof.Machine

/-- The writes of R125 that a read makes: CMD_FUNC, CMD_UNIT, CMD_ADDR, CMD_COUNT. -/
def loadRead (op : Op) (unit : Byte) (start qty : Word) (s : State) : State :=
  setCount qty (setAddr start (setUnit unit (setFunc (funcCode op) s)))

/-- The writes of R125 that a single write makes: CMD_FUNC, CMD_UNIT, CMD_ADDR, CMD_VALUE. -/
def loadSingle (op : Op) (unit : Byte) (addr value : Word) (s : State) : State :=
  setValue value (setAddr addr (setUnit unit (setFunc (funcCode op) s)))

/-- The writes of R125 that a multiple write makes: CMD_FUNC, CMD_UNIT, CMD_ADDR, CMD_COUNT, VBUF. -/
def loadMultiple (op : Op) (unit : Byte) (start : Word) (values : List Word) (s : State) : State :=
  loadVbuf values
    (setCount (BitVec.ofNat 16 values.length) (setAddr start (setUnit unit (setFunc (funcCode op) s))))

/-- A multiple write's call. A sequence longer than VCAP cannot be expressed in the registers: the host-side wrapper
raises the ParameterError it would be anyway, with the operation's ceiling as the bound, before touching the block
(R125, D7). Log entry 20. -/
def callMultiple (op : Op) (unit : Byte) (start : Word) (values : List Word) (s : State) : Outcome :=
  if Config.vCap < values.length then
    .next (emit [.wrapperError ((ceiling op).getD (BitVec.ofNat 16 Config.vCap)) values.length] s)
  else callOperation op (loadMultiple op unit start values) s

/-- ReadCoils (R221). -/
def execReadCoils (unit : Byte) (start qty : Word) (s : State) : Outcome :=
  callOperation .readCoils (loadRead .readCoils unit start qty) s

/-- ReadDiscreteInputs (R222). -/
def execReadDiscreteInputs (unit : Byte) (start qty : Word) (s : State) : Outcome :=
  callOperation .readDiscreteInputs (loadRead .readDiscreteInputs unit start qty) s

/-- ReadHoldingRegisters (R223). -/
def execReadHoldingRegisters (unit : Byte) (start qty : Word) (s : State) : Outcome :=
  callOperation .readHoldingRegisters (loadRead .readHoldingRegisters unit start qty) s

/-- ReadInputRegisters (R224). -/
def execReadInputRegisters (unit : Byte) (start qty : Word) (s : State) : Outcome :=
  callOperation .readInputRegisters (loadRead .readInputRegisters unit start qty) s

/-- WriteSingleCoil: the host writes `on` into bit 0 of CMD_VALUE (R225, R125) and 0 into bits 15..1, which
the block ignores (R25). DESIGN CHOICE, log entry 29. -/
def execWriteSingleCoil (unit : Byte) (addr : Word) (on : Bool) (s : State) : Outcome :=
  callOperation .writeSingleCoil (loadSingle .writeSingleCoil unit addr (if on then 1 else 0)) s

/-- WriteSingleRegister (R226). -/
def execWriteSingleRegister (unit : Byte) (addr value : Word) (s : State) : Outcome :=
  callOperation .writeSingleRegister (loadSingle .writeSingleRegister unit addr value) s

/-- WriteMultipleCoils: one coil an entry of VBUF, in bit 0 (R227, R26, R125). Bits 15..1 of each entry written are 0,
which a host read of VBUF shows: R125 gives bit 0 only and D25 says that the upper bits are ignored. DESIGN CHOICE, log
entry 29. -/
def execWriteMultipleCoils (unit : Byte) (start : Word) (values : List Bool) (s : State) : Outcome :=
  callMultiple .writeMultipleCoils unit start (values.map fun on => if on then 1 else 0) s

/-- WriteMultipleRegisters (R228). -/
def execWriteMultipleRegisters (unit : Byte) (start : Word) (values : List Word) (s : State) : Outcome :=
  callMultiple .writeMultipleRegisters unit start values s

end Sys2Proof.Machine
end

