-- ==== Sys2Proof/Machine/Dispatch.lean ====
section
/-! DEFINITION. The meaning of every instruction, by one direct call each. -/

namespace Sys2Proof.Machine

def exec (i : Instr) (s : State) : Host.Outcome State Fault Refusal :=
  match i with
  -- the eight public operations
  | .readCoils u a q => Sys2Proof.Machine.execReadCoils u a q s
  | .readDiscreteInputs u a q => Sys2Proof.Machine.execReadDiscreteInputs u a q s
  | .readHoldingRegisters u a q => Sys2Proof.Machine.execReadHoldingRegisters u a q s
  | .readInputRegisters u a q => Sys2Proof.Machine.execReadInputRegisters u a q s
  | .writeSingleCoil u a on => Sys2Proof.Machine.execWriteSingleCoil u a on s
  | .writeSingleRegister u a v => Sys2Proof.Machine.execWriteSingleRegister u a v s
  | .writeMultipleCoils u a vs => Sys2Proof.Machine.execWriteMultipleCoils u a vs s
  | .writeMultipleRegisters u a vs => Sys2Proof.Machine.execWriteMultipleRegisters u a vs s
  -- the nine replies
  | .readCoilsReply u n d c => Sys2Proof.Machine.execReadCoilsReply u n d c s
  | .readDiscreteInputsReply u n d c => Sys2Proof.Machine.execReadDiscreteInputsReply u n d c s
  | .readHoldingRegistersReply u n d c => Sys2Proof.Machine.execReadHoldingRegistersReply u n d c s
  | .readInputRegistersReply u n d c => Sys2Proof.Machine.execReadInputRegistersReply u n d c s
  | .writeSingleCoilReply u a v c => Sys2Proof.Machine.execWriteSingleCoilReply u a v c s
  | .writeSingleRegisterReply u a v c => Sys2Proof.Machine.execWriteSingleRegisterReply u a v c s
  | .writeMultipleCoilsReply u a q c => Sys2Proof.Machine.execWriteMultipleCoilsReply u a q c s
  | .writeMultipleRegistersReply u a q c => Sys2Proof.Machine.execWriteMultipleRegistersReply u a q c s
  | .exceptionReply u f e x c => Sys2Proof.Machine.execExceptionReply u f e x c s
  -- the five host events
  | .crcSeed => Sys2Proof.Machine.execCrcSeed s
  | .crcByte b => Sys2Proof.Machine.execCrcByte b s
  | .crcRead => Sys2Proof.Machine.execCrcRead s
  | .setTimeout t => Sys2Proof.Machine.execSetTimeout t s
  | .start go => Sys2Proof.Machine.execStart go s

end Sys2Proof.Machine
end

