-- ==== Sys2Proof/Machine/Events.lean ====
section
/-! DEFINITION. What one event from outside does, and what the block does of its own accord: the body of the step
(00_scope.md R7, R8; 43_transaction.md R200). -/

namespace Sys2Proof.Machine

/-- A packet that is no instruction: a plain register access (R40), a frame no reply format fits, which the Line
delivers all the same (R208), a call with a reserved function code, refused (U8), or bytes that are no call, which the
host-side wrapper turns away (DESIGN CHOICE, log entry 24). -/
def unlisted (why : Reject) (p : Packet) (s : State) : Outcome :=
  match p with
  | .write reg data => hostWrite reg data s
  | .read reg => hostRead reg s
  | .reply f => deliverReply f s
  | .call _ =>
    match why with
    | .callFunction => .refused .reservedFunction
    | other => .next (emit [.noCall other] s)

/-- A packet: the instruction it decodes to, run; else `unlisted`. -/
def consumePacket (p : Packet) (s : State) : Outcome :=
  match decode p with
  | .ok i => exec i s
  | .error why => unlisted why p s

/-- The step the block takes with no event from outside: Sending and Decoding need none (R200), AwaitingReply issues a
read where none is outstanding (R208), and a byte that waits answers an outstanding read at once (R262). `none` where it
waits for an event. -/
def ownMove (s : State) : Option Outcome :=
  match s.phase with
  | .idle => none
  | .sending => some (.next (sendStep s))
  | .awaitingReply =>
    if s.reading = false then some (.next (issueRead s))
    else if s.line.inBuf = [] then none
    else some (.next (takeWaiting s))
  | .decoding => some (decodeMove s)
  | .failed => some (.next (leaveFailed s))

/-- One event consumed. `own` is the block's own move, if it has one (log entry 17). An answer of the Line is taken where
a read is outstanding, and refused elsewhere. DESIGN CHOICE, log entry 31: that includes the answer the Line still owes to
a read which a reset has abandoned (R281, R270); the read counts as withdrawn. -/
def consume (x : Input) (s : State) : Outcome :=
  match x with
  | .packet p => consumePacket p s
  | .early p => consumePacket p s
  | .own => (ownMove s).getD (.next s)
  | .answer (.byte b) => if awaitsAnswer s then .next (receiveByte b s) else .refused .unsolicitedAnswer
  | .answer .timeout => if awaitsAnswer s then .next (stall s) else .refused .unsolicitedAnswer
  | .rx b => .next (arrive b s)
  | .tick => .next (tickTimer s)
  | .sent => .next (lineSent s)
  | .reset => .next (resetBlock s)

/-- The next event, if there is one; with none the Line answers on or the block waits (R295, R274). -/
def consumeNext (s : State) : Outcome :=
  match s.inputs with
  | [] => .next (receiveEndless s)
  | x :: rest => consume x (withInputs rest s)

/-- The next event is consumed before the block makes a move unasked: a reset (R281), a host access marked so (R78), or the
move itself, asked for. -/
def landsEarly : List Input → Bool
  | .reset :: _ => true
  | .early _ :: _ => true
  | .own :: _ => true
  | _ => false

/-- One step of the block with its environment. -/
def stepOnce (s : State) : Outcome :=
  if landsEarly s.inputs then consumeNext s
  else
    match ownMove s with
    | some o => o
    | none => consumeNext s

/-- The state in which the very next step consumes packet `p`. -/
def placeNext (p : Packet) (s : State) : State := withInputs (.early p :: s.inputs) s

end Sys2Proof.Machine
end

