-- ==== Sys2Proof/Machine/Step.lean ====
section
/-! DEFINITION. The step of the machine, and where it takes its next instruction from. -/

namespace Sys2Proof.Machine

/-- One step: the consumption or production of one event (R7). A request or reply row of the table is several of them,
its meaning (log entries 1 and 2); the `Return` of a failure is in the step that raises it (R212, log entry 28). -/
def step (s : State) : Host.Outcome State Fault Refusal := stepOnce s

/-- The table word `w` placed where the next step takes its instruction: first among the events to come. The block
fetches no program (R30, R48): whatever runs comes from outside, and this stands for the host or the Line that sends
it. Log entry 12. -/
def State.withFetchWord (s : State) (nbits w : Nat) : State := placeNext (tablePacket nbits w) s

end Sys2Proof.Machine
end

