-- ==== Sys2Proof/Safety.lean ====
section
/-! DEFINITION. What a sound state is, and what a safe step is, in the terms the statements use. -/

namespace Sys2Proof.Safety

open Machine

/-- The four buffers are in canonical form and inside their capacities (R62). -/
def MemoryCanonical (s : State) : Prop :=
  memWf s.txBuf ∧ memBelow Config.txCap s.txBuf ∧ memWf s.rxBuf ∧ (∀ c, s.cfg.rxCap = some c → memBelow c s.rxBuf) ∧
    memWf s.vbuf ∧ memBelow Config.vCap s.vbuf ∧ memWf s.rbuf ∧ memBelow Config.rCap s.rbuf

/-- STATE is one of the four states a host can observe, and DONE is clear while a transaction is in flight (R31, R200,
R212). -/
def PhaseLegal (s : State) : Prop := s.phase ≠ .failed ∧ (s.phase ≠ .idle → s.done = false)

/-- While a transaction is in flight the latched function is one of the eight codes and the latched quantity is within
its ceiling (R118, R177, R202). -/
def RequestAdmitted (s : State) : Prop :=
  s.phase ≠ .idle → ∃ op, opOfCode s.req.func = some op ∧ ∀ c, ceiling op = some c → s.req.count.toNat ≤ c.toNat

/-- While the request waits to be sent TXBUF holds it whole (R32, R204). -/
def RequestBuilt (s : State) : Prop :=
  s.phase = .sending → s.txLen.toNat ≤ 255 ∧ ∀ a < s.txLen.toNat, memGet s.txBuf a ≠ none

/-- RXOVF says that more bytes came than RXBUF holds; every byte that came and fits is stored; the decoder never runs
on none (R33, R209). -/
def ReceptionCounted (s : State) : Prop :=
  (s.rxOvf = true ↔ ∃ c, s.cfg.rxCap = some c ∧ c < s.rxLen) ∧
    (∀ a < s.rxLen, (∀ c, s.cfg.rxCap = some c → a < c) → memGet s.rxBuf a ≠ none) ∧
    (s.phase = .decoding → 0 < s.rxLen)

/-- The result group is one an operation's end can write, and RBUF holds the entries RES_LEN counts (R36, R37, R39,
R248). -/
def ResultLegal (s : State) : Prop :=
  s.res.resKind ≤ 4 ∧ (s.res.fcKind ≠ 0 ↔ s.res.resKind = 3) ∧ (s.res.resKind ≠ 0 → s.res.resLen = 0) ∧
    ∀ a < s.res.resLen.toNat, memGet s.rbuf a ≠ none

/-- A read is outstanding in AwaitingReply only (R76, R208). -/
def ReadOutstanding (s : State) : Prop := s.reading = true → s.phase = .awaitingReply

/-- T_CFG and IBT are numbers of TW bits (R34, R35). -/
def TimerInWidth (s : State) : Prop := s.tCfg < 2 ^ s.cfg.tw ∧ s.ibt < 2 ^ s.cfg.tw

/-- All of these, with parameters in the ranges of R6. -/
structure Inv (s : State) : Prop where
  cfg : s.cfg.legal = true
  memory : MemoryCanonical s
  phase : PhaseLegal s
  request : RequestAdmitted s
  built : RequestBuilt s
  reception : ReceptionCounted s
  reading : ReadOutstanding s
  timer : TimerInWidth s
  result : ResultLegal s

/-- A step that does not end in a fault. -/
def NoFault (s : State) : Prop := ∀ f, step s ≠ .fault f

/-- What a step emits, oldest first. -/
def emitted (s t : State) : List Output := t.out.drop s.out.length

end Sys2Proof.Safety
end

