-- ==== Sys2Proof/Certificates/Slice0/Obligations.lean ====
section
/-! DEFINITION. The statements for the provers, from the numbered rules of the spec, and the words they are said in. -/

namespace Sys2Proof.Claims

open Machine

/-- `k` steps of the machine. -/
def run (k : Nat) (s : State) : Outcome := core.run k s

/-- The Line's script `← bytes then Timeout`: one `Byte(b)` answer a byte, then one `Timeout` (95_test_vectors.md). -/
def answers (bs : List Byte) : List Input := bs.map (fun b => .answer (.byte b)) ++ [.answer .timeout]

/-- A host write as an event. -/
def hostWrites (reg : Word) (data : HostWord) : Input := .packet (.write reg data)

/-- `n` received bytes fit RXBUF (R33). -/
def fits (s : State) (n : Nat) : Prop := ∀ c, s.cfg.rxCap = some c → n ≤ c

/-- The value a host read of register number `reg` returns in state `s`, if it returns one. -/
def readBack (reg : Word) (s : State) : Option HostWord :=
  match consumePacket (.read reg) s with
  | .next t =>
    match t.out.getLast? with
    | some (.data _ v) => some v
    | _ => none
  | _ => none

/-- Bits 1 and 0 as a result entry: 1 = on, bits 15..1 zero (R39). -/
def bitWord (b : Bool) : Word := if b then 1 else 0

/-- A reply of `n` bytes is awaited: AwaitingReply, no byte yet, none waiting, and `n` bytes fit. -/
def Listening (s : State) (n : Nat) : Prop :=
  s.phase = .awaitingReply ∧ s.rxLen = 0 ∧ s.rxOvf = false ∧ s.line.inBuf = [] ∧ fits s n

/-- The decoder is about to run for operation `op`. -/
def DecodingFor (op : Op) (s : State) : Prop :=
  s.phase = .decoding ∧ s.req.func = funcCode op ∧ landsEarly s.inputs = false

/-- Checks 0 to 4 of the decoder all pass on the `n` bytes `f` (R170). -/
def ChecksPass (s : State) (f : List Byte) : Prop :=
  s.rxOvf = false ∧ 5 ≤ s.rxLen ∧ crcCalc f = crcRx f ∧ (byteAt f 1).toNat ≤ 0x80 ∧ byteAt f 1 = s.req.func

/-- From `s` the operation ends in `t` with result `r` and result group `g`, and nothing else changes: R248. CRC and RBUF
are said where the statement knows them. -/
def Ends (s t : State) (r : Result) (g : ResultGroup) : Prop :=
  t.res = g ∧ t.phase = .idle ∧ t.done = true ∧ t.out = s.out ++ [.ret r] ∧ t.cmd = s.cmd ∧ t.written = s.written ∧
    t.vbuf = s.vbuf ∧ t.tCfg = s.tCfg ∧ t.req = s.req ∧ t.cfg = s.cfg ∧ t.txBuf = s.txBuf ∧ t.txLen = s.txLen ∧
    t.rxBuf = s.rxBuf ∧ t.rxLen = s.rxLen ∧ t.rxOvf = s.rxOvf ∧ t.line = s.line ∧ t.ibt = s.ibt ∧
    t.crcOwned = s.crcOwned ∧ t.inputs = s.inputs ∧ t.endless = s.endless ∧ t.resets = s.resets ∧
    t.sendStage = s.sendStage ∧ t.reading = s.reading

/-- The next event is a call or a whole reply, whose meaning runs through several transitions of R200 in one step. -/
def compound : List Input → Bool
  | .packet (.call _) :: _ => true
  | .packet (.reply _) :: _ => true
  | .early (.call _) :: _ => true
  | .early (.reply _) :: _ => true
  | _ => false

/-- The next event is a call of an operation. -/
def nextIsCall : List Input → Bool
  | .packet (.call _) :: _ => true
  | .early (.call _) :: _ => true
  | _ => false

/-- How many steps a call takes as a program of `writes` register accesses, `Start` the last of them: with an admitted
quantity also the discards, the write, the first read, an answer and a read for each byte of `bs`, the stall and, if a
byte came, the decode. -/
def callSteps (writes : Nat) (admitted : Bool) (bs : List Byte) : Nat :=
  if admitted then writes + (if bs = [] then 5 else 2 * bs.length + 6) else writes

/-- The quantity of a call and its ceiling; the single writes have none (R202). -/
def quantityAndCeiling : Instr → Option (Nat × Nat)
  | .readCoils _ _ q => some (q.toNat, 2000)
  | .readDiscreteInputs _ _ q => some (q.toNat, 2000)
  | .readHoldingRegisters _ _ q => some (q.toNat, 125)
  | .readInputRegisters _ _ q => some (q.toNat, 125)
  | .writeMultipleCoils _ _ values => some (values.length, 1968)
  | .writeMultipleRegisters _ _ values => some (values.length, 123)
  | _ => none

/-- The quantity of the call, if it has one, is admitted (R202). -/
def Admitted (p : Config.Params) (i : Instr) : Prop :=
  ∀ n max, quantityAndCeiling i = some (n, max) → p.qtyFloor.toNat ≤ n ∧ n ≤ max

/-- The emitted event is a `Write`. -/
def isWrite : Output → Bool
  | .write _ => true
  | _ => false

end Sys2Proof.Claims

open Sys2Proof Sys2Proof.Machine Sys2Proof.Safety Sys2Proof.Claims

/-! ### The Checksum Engine -/

/-- R131. -/
def Obligations.CrcSeedWritesSeed : Prop :=
  ∀ (s : State) (d : HostWord), decode (.write 0x12 d) = .ok .crcSeed ∧
    (s.phase = .idle → ∃ t, exec .crcSeed s = .next t ∧ t = { s with crc := 0xFFFF, crcOwned := true } ∧
      hostCrc t = 0xFFFF ∧ exec .crcSeed t = .next t)

/-- R132 and R134: the loop as the spec writes it, as a function and as the meaning of the host event. -/
def Obligations.CrcByteRunsEightIterations : Prop :=
  let iterate : Word → Word := (fun c => if c &&& 1 = 1 then (c >>> 1) ^^^ 0xA001 else c >>> 1)^[8]
  (∀ (c : Word) (b : Byte), crcUpdate c b = iterate (c ^^^ b.setWidth 16)) ∧
    ∀ (s : State) (b : Byte), decode (.write 0x13 b.toNat) = .ok (.crcByte b) ∧
      (s.phase = .idle → ∃ t, exec (.crcByte b) s = .next t ∧ t = { s with crc := t.crc, crcOwned := true } ∧
        hostCrc t = t.crc ∧ t.crc = iterate (hostCrc s ^^^ b.setWidth 16))

/-- R133: the value returned, and that the read changes no register. Where the content of CRC is not of the host's
making the value is a free value (log entry 6). -/
def Obligations.CrcReadReturnsRegister : Prop :=
  decode (.read 0x14) = .ok .crcRead ∧ ∀ s : State, s.phase = .idle →
    exec .crcRead s = .next { s with out := s.out ++ [.data 0x14 ((hostCrc s).toNat)] } ∧
      (s.crcOwned = true → hostCrc s = s.crc)

/-- R135 with R138 law 4: the function, that it can be continued, and that the port computes it. -/
def Obligations.PortComputesChecksum : Prop :=
  checksum [] = 0xFFFF ∧ (∀ s t : List Byte, checksum (s ++ t) = t.foldl crcUpdate (checksum s)) ∧
    ∀ (s : State) (d : HostWord) (bs : List Byte) (rest : List Input), s.phase = .idle →
      run (bs.length + 1)
          (withInputs (hostWrites 0x12 d :: bs.map (fun b => hostWrites 0x13 b.toNat) ++ rest) s)
        = .next { s with crc := checksum bs, crcOwned := true, inputs := rest }

/-- R136 and R137: what the last two bytes are and what is compared with what. -/
def Obligations.ChecksumWireForm : Prop :=
  (∀ s : List Byte, sealed s = s ++ [lo (checksum s), hi (checksum s)]) ∧
    ∀ (s : List Byte) (l h : Byte), crcCalc (s ++ [l, h]) = checksum s ∧ crcRx (s ++ [l, h]) = le16 l h ∧
      (crcGood (s ++ [l, h]) = true ↔ [l, h] = checksumBytes s)

/-- R138 law 5. -/
def Obligations.SealedResidueZero : Prop := ∀ s : List Byte, checksum (sealed s) = 0

/-- R139: the table of 256 entries indexed by the low byte of `c ^ b` computes the same update. -/
def Obligations.CrcTableForm : Prop :=
  ∀ (c : Word) (b : Byte), crcUpdate c b = (c >>> 8) ^^^ crcUpdate ((c ^^^ b.setWidth 16) &&& 0x00FF) 0

/-! ### Encoding -/

/-- Words written out from the formats R92 to R98 and the vectors of 95_test_vectors.md. -/
def Obligations.WordsDecode : Prop :=
  decode (.call [0x01, 0x03, 0x00, 0x00, 0x00, 0x02, 0xC4, 0x0B]) = .ok (.readHoldingRegisters 0x01 0x0000 2) ∧
    decode (.call [0x01, 0x05, 0x00, 0x01, 0xFF, 0x00, 0xDD, 0xFA]) = .ok (.writeSingleCoil 0x01 0x0001 true) ∧
    decode (.call [0x01, 0x10, 0x00, 0x01, 0x00, 0x02, 0x04, 0x00, 0x0A, 0x01, 0x02, 0x92, 0x30])
      = .ok (.writeMultipleRegisters 0x01 0x0001 [0x000A, 0x0102]) ∧
    decode (.reply [0x01, 0x02, 0x02, 0xA5, 0x02, 0x43, 0x29])
      = .ok (.readDiscreteInputsReply 0x01 0x02 [0xA5, 0x02] 0x2943) ∧
    decode (.reply [0x01, 0x83, 0x02, 0xC0, 0xF1]) = .ok (.exceptionReply 0x01 0x03 0x02 [] 0xF1C0) ∧
    decode (.reply [0x01, 0x80, 0x02, 0xC0, 0x01]) = .error .replyFunction ∧
    decode (.write 0x05 0x00000001) = .ok (.start true) ∧ decode (.read 0x14) = .ok .crcRead

/-- The eight request formats and the five register accesses: no operand is lost on the way through the words. -/
def Obligations.HostSideRoundTrip : Prop :=
  ∀ (u b : Byte) (a v : Word) (on go : Bool) (bits : List Bool) (words : List Word) (t : HostWord), ∀ i ∈
    [Instr.readCoils u a v, .readDiscreteInputs u a v, .readHoldingRegisters u a v, .readInputRegisters u a v,
      .writeSingleCoil u a on, .writeSingleRegister u a v, .writeMultipleCoils u a bits,
      .writeMultipleRegisters u a words, .crcSeed, .crcByte b, .crcRead, .setTimeout t, .start go],
    i.wellFormed = true → decode (encode i) = .ok i

/-- The nine reply formats. -/
def Obligations.ReplyRoundTrip : Prop :=
  ∀ (u n : Byte) (d : List Byte) (a v crc : Word) (f : BitVec 7), ∀ i ∈
    [Instr.readCoilsReply u n d crc, .readDiscreteInputsReply u n d crc, .readHoldingRegistersReply u n d crc,
      .readInputRegistersReply u n d crc, .writeSingleCoilReply u a v crc, .writeSingleRegisterReply u a v crc,
      .writeMultipleCoilsReply u a v crc, .writeMultipleRegistersReply u a v crc, .exceptionReply u f n d crc],
    i.wellFormed = true → decode (encode i) = .ok i

/-- R103: packing, its length, its unused bits, and that they are ignored on the way back. -/
def Obligations.PackThenUnpack : Prop :=
  ∀ c : List Bool, (packBits c).length = (c.length + 7) / 8 ∧ unpackBits (packBits c) c.length = c ∧
    (∀ i, c.length ≤ i → packedBit (packBits c) i = false) ∧
    ∀ d : List Byte, (∀ i < c.length, packedBit d i = packedBit (packBits c) i) → unpackBits d c.length = c

/-- R162 and R163, of the request of every operation: the fields, the checksum, the length within the ceilings. -/
def Obligations.RequestFrameFields : Prop :=
  ∀ (op : Op) (r : Latched) (entries : List Word), r.func = funcCode op → entries.length = r.count.toNat →
    let f := sealed (requestBody op r entries)
    f.getD 0 0 = r.unit ∧ f.getD 1 0 = r.func ∧ be16 (f.getD 2 0) (f.getD 3 0) = r.addr ∧
      be16 (f.getD 4 0) (f.getD 5 0)
        = (if op = .writeSingleCoil ∨ op = .writeSingleRegister then r.value else r.count) ∧
      crcCalc f = crcRx f ∧
      f.length = (match op with
        | .writeMultipleCoils => 9 + (r.count.toNat + 7) / 8
        | .writeMultipleRegisters => 9 + 2 * r.count.toNat
        | _ => 8) ∧
      ((∀ c, ceiling op = some c → r.count ≤ c) → f.length ≤ 255)

/-! ### The host's registers -/

/-- R40: a register the host may write in Idle stores what is written, truncated to its width, and no other register
the host can read changes. That an entry of VBUF at or beyond CMD_COUNT reads back so too is the model's choice, where U4
calls its contents any value (log entry 32). -/
def Obligations.RegisterWriteReadsBack : Prop :=
  ∀ (s : State) (reg : Word) (w : Nat) (d : HostWord), s.phase = .idle →
    ((reg, w) ∈ [((0x00 : Word), 8), (0x01, 8), (0x02, 16), (0x03, 16), (0x04, 16), (0x07, s.cfg.tw)] ∨
      (0x1000 ≤ reg.toNat ∧ reg.toNat < 0x1000 + 1968 ∧ w = 16)) →
    ∃ t, consumePacket (.write reg d) s = .next t ∧ readBack reg t = some (d % 2 ^ w) ∧
      ∀ other, other ≠ reg → readBack other t = readBack other s

/-- R40 with R30 and R31: STATUS, in every state. -/
def Obligations.StatusReadsStateBusyDone : Prop :=
  ∀ s : State, consumePacket (.read 0x06) s = .next { s with out := s.out ++ [.data 0x06 (statusWord s).toNat] } ∧
    (statusWord s).toNat = (match s.phase with
      | .idle => 0
      | .sending => 1 + 8
      | .awaitingReply => 2 + 8
      | .decoding => 3 + 8
      | .failed => 4 + 8) + (if s.done then 16 else 0)

/-- R36 to R40: the result group as the host reads it in Idle, RBUF below RES_LEN included. -/
def Obligations.ResultGroupReads : Prop :=
  ∀ s : State, s.phase = .idle →
    readBack 0x08 s = some s.res.resKind.toNat ∧ readBack 0x09 s = some s.res.fcKind.toNat ∧
      readBack 0x0A s = some s.res.excCode.toNat ∧ readBack 0x0B s = some s.res.crcRx.toNat ∧
      readBack 0x0C s = some s.res.crcCalc.toNat ∧ readBack 0x0D s = some s.res.exp.toNat ∧
      readBack 0x0E s = some s.res.got.toNat ∧
      readBack 0x0F s = some (if s.res.misField then 1 else 0) ∧
      readBack 0x10 s = some s.res.resLen.toNat ∧
      readBack 0x11 s = some (min s.rxLen 0xFFFF) ∧
      ∀ i v, i < s.res.resLen.toNat → i < 2000 → memGet s.rbuf i = some v →
        readBack (BitVec.ofNat 16 (0x2000 + i)) s = some v.toNat

/-- R71: a host read, of whatever register and in whatever state, changes no register and no buffer. -/
def Obligations.HostReadsHaveNoSideEffects : Prop :=
  ∀ (s t : State) (reg : Word), consumePacket (.read reg) s = .next t →
    ∃ v, t = { s with out := s.out ++ [.data reg v], draws := t.draws }

/-- R40, U9, U8: every number not in the map, every write of a read-only register, every read of a write-only one, and a
call with a reserved function code, in every state. The refusals are the model's treatment (log entries 14 and 23), and
so is that bytes which are no call at all leave the block untouched (log entry 24). -/
def Obligations.UnlistedAccessesRefused : Prop :=
  ∀ (s : State) (reg : Word) (d : HostWord),
    ((0x15 ≤ reg.toNat ∧ reg.toNat < 0x1000) ∨ (0x1000 + 1968 ≤ reg.toNat ∧ reg.toNat < 0x2000) ∨
        0x2000 + 2000 ≤ reg.toNat →
      consumePacket (.read reg) s = .refused (.reservedRegister reg) ∧
        consumePacket (.write reg d) s = .refused (.reservedRegister reg)) ∧
      (reg = 0x06 ∨ (0x08 ≤ reg.toNat ∧ reg.toNat ≤ 0x11) ∨ reg = 0x14 ∨
          (0x2000 ≤ reg.toNat ∧ reg.toNat < 0x2000 + 2000) →
        consumePacket (.write reg d) s = .refused (.readOnlyRegister reg)) ∧
      (reg = 0x12 ∨ reg = 0x13 → consumePacket (.read reg) s = .refused (.writeOnlyRegister reg)) ∧
      ∀ (f : List Byte) (why : Reject), decode (.call f) = .error why →
        (why = .callFunction → consumePacket (.call f) s = .refused .reservedFunction) ∧
          (why ≠ .callFunction → consumePacket (.call f) s = .next { s with out := s.out ++ [.noCall why] })

/-- R140, R290, R291, U7, U9: what the host must not do while a transaction is in flight. The refusals are the
model's treatment (log entry 14). A call of more than 1968 values does not reach the block (R125;
`CallsOutOfBoundsDoNoIo`). -/
def Obligations.BusyAccessesRefused : Prop :=
  ∀ (s : State) (reg : Word) (d : HostWord) (b : Byte), s.phase ≠ .idle →
    (reg.toNat ≤ 0x04 ∨ reg = 0x07 ∨ (0x1000 ≤ reg.toNat ∧ reg.toNat < 0x1000 + 1968) →
        consumePacket (.write reg d) s = .refused .writeWhileBusy) ∧
      exec .crcSeed s = .refused .checksumPortBusy ∧ exec (.crcByte b) s = .refused .checksumPortBusy ∧
      exec .crcRead s = .refused .checksumPortBusy ∧ exec (.start true) s = .refused .startWhileBusy ∧
      ∀ i f, encode i = .call f → (∀ u a bits, i = .writeMultipleCoils u a bits → bits.length ≤ 1968) →
        (∀ u a words, i = .writeMultipleRegisters u a words → words.length ≤ 1968) →
        exec i s = .refused .startWhileBusy

/-- R216, for every width TW. -/
def Obligations.SetTimeoutWritesTimer : Prop :=
  ∀ (s : State) (t : HostWord),
    (s.phase = .idle → exec (.setTimeout t) s = .next { s with tCfg := t % 2 ^ s.cfg.tw }) ∧
      (s.phase ≠ .idle → exec (.setTimeout t) s = .refused .writeWhileBusy)

/-! ### Start -/

/-- R201 with R40, row CTRL: when a `Start` is accepted; writing 0 does nothing, in any state, and CTRL reads as 0. R201
says "accepted only if". That a `Start` is accepted whose operand registers the host has not written since reset, its
CMD_FUNC among them, is the model's choice: log entry 5, DESIGN CHOICE under U10, where vector V7.5 refuses it. -/
def Obligations.StartAcceptedExactlyInIdle : Prop :=
  ∀ s : State, ((∃ t, exec (.start true) s = .next t) ↔ s.phase = .idle ∧ ∃ op, funcOperand s = funcCode op) ∧
    (s.phase ≠ .idle → exec (.start true) s = .refused .startWhileBusy) ∧
    (s.phase = .idle → (∀ op, funcOperand s ≠ funcCode op) → exec (.start true) s = .refused .reservedFunction) ∧
    exec (.start false) s = .next s ∧ readBack 0x05 s = some 0

/-- R203 and R204 with R31 and R150: the latch, the request, and the frame. Where the host has not written an operand
register or an entry of VBUF since reset, that the `Start` completes, on a free value, is the model's choice: log entry
5, DESIGN CHOICE under U10, where vector V7.5 refuses it. CRC holds the checksum by R150; the flag `crcOwned`, and what
the host then sees in CRC, are log entry 6. -/
def Obligations.StartLatchesAndEncodes : Prop :=
  ∀ (s : State) (op : Op), s.phase = .idle → funcOperand s = funcCode op →
    (∀ c, ceiling op = some c → countOperand s ≤ c ∧ s.cfg.qtyFloor ≤ countOperand s) →
    ∃ t, exec (.start true) s = .next t ∧ t.phase = .sending ∧ t.sendStage = .discardIn ∧
      t.done = false ∧ t.reading = s.reading ∧ t.req.unit = unitOperand s ∧ t.req.func = funcOperand s ∧ t.req.addr = addrOperand s ∧
      t.req.count = countOperand s ∧
      t.req.value = (if op = .writeSingleCoil then if (valueOperand s).getLsbD 0 then 0xFF00 else 0x0000
        else valueOperand s) ∧
      (let body := requestBody op t.req ((List.range t.req.count.toNat).map (vbufEntry s))
       requestFrame t = sealed body ∧ t.txLen.toNat = (sealed body).length ∧ t.crc = checksum body ∧
         t.crcOwned = false ∧
         ∀ a, (sealed body).length ≤ a → memGet t.txBuf a = memGet s.txBuf a) ∧
      t.cfg = s.cfg ∧ t.cmd = s.cmd ∧ t.written = s.written ∧ t.vbuf = s.vbuf ∧ t.rxBuf = s.rxBuf ∧
      t.rxLen = s.rxLen ∧ t.rxOvf = s.rxOvf ∧ t.tCfg = s.tCfg ∧ t.ibt = s.ibt ∧ t.res = s.res ∧ t.rbuf = s.rbuf ∧
      t.line = s.line ∧ t.inputs = s.inputs ∧ t.out = s.out ∧ t.resets = s.resets ∧ t.draws = s.draws

/-- R241 with R202: a quantity outside its bounds, the bounds as numbers, and that nothing reaches the Line; the
single writes have no quantity to check. Where the host has not written CMD_FUNC or CMD_COUNT since reset, that the
`Start` is accepted and ends on a free value is the model's choice: log entry 5, DESIGN CHOICE under U10, where vector
V7.5 refuses it. -/
def Obligations.StartRejectsQuantity : Prop :=
  (∀ (s : State) (op : Op) (max : Word), s.phase = .idle → funcOperand s = funcCode op →
      (op, max) ∈ [(Op.readCoils, (2000 : Word)), (.readDiscreteInputs, 2000), (.readHoldingRegisters, 125),
        (.readInputRegisters, 125), (.writeMultipleCoils, 1968), (.writeMultipleRegisters, 123)] →
      (max < countOperand s ∨ countOperand s < s.cfg.qtyFloor) →
      ∃ t bound, exec (.start true) s = .next t ∧ bound = (if max < countOperand s then max else s.cfg.qtyFloor) ∧
        Ends s t (.failed (.parameterError bound (countOperand s)))
          { ResultGroup.zero with resKind := 1, exp := bound, got := countOperand s } ∧
        t.crc = s.crc) ∧
    ∀ (s : State) (op : Op), s.phase = .idle → funcOperand s = funcCode op →
      op = .writeSingleCoil ∨ op = .writeSingleRegister →
      ∃ t, exec (.start true) s = .next t ∧ t.phase = .sending ∧ t.res = s.res ∧ t.out = s.out

/-! ### Sending and AwaitingReply -/

/-- R205 to R208: the discards in their order, the whole frame in one event, the counters cleared on entry to
AwaitingReply, and then the first read, with the load of IBT by R262 and the Line's buffers by R82 and R270. Each event is
a step of its own (R7), made unasked where no event lands early. The last two clauses say that a host read of STATUS lands
between any two of them (R78), and a reset before any of them (R281), which cuts the rest off; how the events to come place
it there is the model's choice (`own` and `early`, log entry 17). -/
def Obligations.SendingEmitsInOrder : Prop :=
  (∀ s : State, landsEarly s.inputs = false →
    (s.phase = .sending →
      (s.sendStage = .discardIn → step s = .next { s with
        sendStage := .discardOut, line := { s.line with inBuf := [] }, out := s.out ++ [.discardIn] }) ∧
      (s.sendStage = .discardOut → step s = .next { s with
        sendStage := .write, line := { s.line with outBuf := [] }, out := s.out ++ [.discardOut] }) ∧
      (s.sendStage = .write → step s = .next { s with
          phase := .awaitingReply, reading := false, rxLen := 0, rxOvf := false,
          line := { s.line with outBuf := s.line.outBuf ++ requestFrame s },
          out := s.out ++ [.write (requestFrame s)] } ∧
        (requestFrame s).length = s.txLen.toNat ∧
        ∀ a v, a < s.txLen.toNat → memGet s.txBuf a = some v → (requestFrame s)[a]? = some v) ∧
      (s.sendStage = .discardIn → run 4 s = .next (sendRequest s) ∧
        (sendRequest s).line = { inBuf := [], outBuf := requestFrame s } ∧
        (sendRequest s).out = s.out ++ [.discardIn, .discardOut, .write (requestFrame s), .readReq])) ∧
    (s.phase = .awaitingReply → s.reading = false →
      step s = .next { s with reading := true, ibt := s.tCfg, out := s.out ++ [.readReq] })) ∧
  ∀ (s : State) (rest : List Input), s.phase = .sending → s.sendStage = .discardIn →
    (let look := Input.early (.read 0x06)
     let seen := Output.data 0x06 (statusWord s).toNat
     run 7 (withInputs ([.own, look, .own, look, .own, look, .own] ++ rest) s)
       = .next { sendRequest (withInputs rest s) with
         out := s.out ++ [.discardIn, seen, .discardOut, seen, .write (requestFrame s),
           .data 0x06 (statusWord (writeRequest s)).toNat, .readReq] }) ∧
    ∀ k, ∃ t, run (k + 1) (withInputs (List.replicate k .own ++ .reset :: rest) s) = .next t ∧ t.phase = .idle ∧
      t.done = false ∧ t.inputs = rest ∧
      t.out = s.out ++ [.discardIn, .discardOut, .write (requestFrame s), .readReq].take k

/-- R208 with R33: a byte answered, at either level of the Line's events; and in the step after it, unless an event lands
early, the next read (R7, R262). -/
def Obligations.ByteIsAccumulated : Prop :=
  ∀ (s : State) (b : Byte) (rest : List Input), s.phase = .awaitingReply → s.reading = true → s.line.inBuf = [] →
    ∃ t, step (withInputs (.answer (.byte b) :: rest) s) = .next t ∧
      step (withInputs (.rx b :: rest) s) = .next t ∧
      t = { s with
        rxBuf := t.rxBuf, rxOvf := t.rxOvf, rxLen := s.rxLen + 1, reading := false, inputs := rest } ∧
      (landsEarly rest = false →
        step t = .next { t with reading := true, ibt := s.tCfg, out := s.out ++ [.readReq] }) ∧
      ((∀ c, s.cfg.rxCap = some c → s.rxLen < c) →
        memGet t.rxBuf s.rxLen = some b ∧ t.rxOvf = s.rxOvf ∧
          ∀ a, a ≠ s.rxLen → memGet t.rxBuf a = memGet s.rxBuf a) ∧
      ((∃ c, s.cfg.rxCap = some c ∧ c ≤ s.rxLen) → t.rxBuf = s.rxBuf ∧ t.rxOvf = true)

/-- R209, R242: the stalled read. -/
def Obligations.StallEndsReception : Prop :=
  ∀ (s : State) (rest : List Input), s.phase = .awaitingReply → s.reading = true → s.line.inBuf = [] →
    ∃ t, step (withInputs (.answer .timeout :: rest) s) = .next t ∧
      (s.rxLen = 0 → Ends { s with inputs := rest, ibt := t.ibt, reading := false } t (.failed .transportTimeout)
          { ResultGroup.zero with resKind := 2 } ∧ t.crc = s.crc) ∧
      (0 < s.rxLen → t = { s with inputs := rest, ibt := t.ibt, reading := false, phase := .decoding })

/-- R262: with T_CFG = t a read with no byte in between stalls at the max(1, t)-th tick, and what follows is what the
contract's `Timeout` answer gives (R261), IBT included, which is 0 in both by the model's choice (log entry 16); a byte
that waits is taken before any tick; the counter does not run outside AwaitingReply, nor where no read is outstanding. -/
def Obligations.TicksGiveTimeout : Prop :=
  ∀ (s : State) (rest : List Input),
    (s.phase = .awaitingReply → s.reading = true → s.line.inBuf = [] → s.ibt = s.tCfg →
      let k := max 1 s.tCfg
      (∀ j < k, run j (withInputs (List.replicate k .tick ++ rest) s)
          = .next { s with inputs := List.replicate (k - j) .tick ++ rest, ibt := s.tCfg - j }) ∧
        run k (withInputs (List.replicate k .tick ++ rest) s)
          = step (withInputs (.answer .timeout :: rest) s)) ∧
      (∀ b bs, s.phase = .awaitingReply → s.reading = true → s.line.inBuf = b :: bs →
        step (withInputs (.tick :: rest) s)
          = .next (receiveByte b (withInputs (.tick :: rest) { s with line := { s.line with inBuf := bs } }))) ∧
      (s.phase ≠ .awaitingReply ∨ s.reading = false → consume .tick s = .next s) ∧
      (s.phase = .idle → step (withInputs (.tick :: rest) s) = .next (withInputs rest s))

/-- R295, R12: however many bytes come, the read loop goes on, two steps a byte, its answer and the next read (R7); against a Line that answers every read with a byte the run
never leaves AwaitingReply, whatever the bytes, which are stored while they fit; and with no event to come and a silent
Line the block waits (R274). The bytes of the endless answers are free values (log entry 30). -/
def Obligations.EndlessReplyKeepsAwaiting : Prop :=
  (∀ (s : State) (bs : List Byte) (rest : List Input), s.phase = .awaitingReply → s.reading = true →
    s.line.inBuf = [] → landsEarly rest = false →
    ∃ t, run (2 * bs.length) (withInputs (bs.map (fun b => .answer (.byte b)) ++ rest) s) = .next t ∧
      t.phase = .awaitingReply ∧ t.reading = true ∧ t.rxLen = s.rxLen + bs.length ∧ t.inputs = rest ∧ t.res = s.res ∧
      t.out = s.out ++ List.replicate bs.length .readReq) ∧
    (∀ (s : State) (k n : Nat), s.phase = .awaitingReply → s.reading = true → s.line.inBuf = [] → s.inputs = [] →
      s.endless = some k →
      ∃ t, run (2 * n) s = .next t ∧ t.phase = .awaitingReply ∧ t.reading = true ∧ t.rxLen = s.rxLen + n ∧
        t.endless = some (k + n) ∧ t.res = s.res ∧ t.out = s.out ++ List.replicate n .readReq ∧
        ∀ j < n, (∀ c, s.cfg.rxCap = some c → s.rxLen + j < c) →
          memGet t.rxBuf (s.rxLen + j) = some (Config.freeAnswer (k + j))) ∧
    ∀ (s : State) (n : Nat), s.inputs = [] →
      s.phase = .idle ∨ (s.phase = .awaitingReply ∧ s.reading = true ∧ s.line.inBuf = []) → s.endless = none →
      run n s = .next s

/-- R44, R82, R254: bytes that arrive in Idle wait in the Line and nothing of the block changes; the first step of the next
Sending destroys them. -/
def Obligations.StaleBytesAreDiscarded : Prop :=
  ∀ (s : State) (bs : List Byte) (rest : List Input),
    (s.phase = .idle → run bs.length (withInputs (bs.map .rx ++ rest) s)
        = .next { s with inputs := rest, line := { s.line with inBuf := s.line.inBuf ++ bs } }) ∧
      (s.phase = .sending → s.sendStage = .discardIn → landsEarly s.inputs = false →
        ∃ t, step s = .next t ∧ step { s with line := { s.line with inBuf := bs } } = .next t ∧ t.line.inBuf = [])

/-! ### Decoding -/

/-- R171 to R175: the common checks in their order, with what each failure records, and that nothing else changes, RBUF
apart, whose contents are unspecified after a failure (R39). -/
def Obligations.CommonChecksInOrder : Prop :=
  ∀ (s : State) (op : Op), DecodingFor op s →
    let f := storedReply s
    let n := s.rxLen
    ∃ t, (s.rxOvf = true → step s = .next t ∧ t.crc = s.crc ∧ ∀ c, s.cfg.rxCap = some c →
          Ends s t (.failed (.overflow (BitVec.ofNat 16 (min c 0xFFFF)) (BitVec.ofNat 16 (min n 0xFFFF))))
            { ResultGroup.zero with
              resKind := 3, fcKind := 7, exp := BitVec.ofNat 16 (min c 0xFFFF), got := BitVec.ofNat 16 (min n 0xFFFF) }) ∧
      (s.rxOvf = false → n < 5 → step s = .next t ∧ t.crc = s.crc ∧
          Ends s t (.failed (.short (BitVec.ofNat 16 n)))
            { ResultGroup.zero with resKind := 3, fcKind := 1, exp := 5, got := BitVec.ofNat 16 n }) ∧
      (s.rxOvf = false → 5 ≤ n → crcCalc f ≠ crcRx f → step s = .next t ∧ t.crc = crcCalc f ∧
          Ends s t (.failed (.checksum (crcRx f) (crcCalc f)))
            { ResultGroup.zero with resKind := 3, fcKind := 2, crcRx := crcRx f, crcCalc := crcCalc f }) ∧
      (s.rxOvf = false → 5 ≤ n → crcCalc f = crcRx f → 0x80 < (byteAt f 1).toNat → step s = .next t ∧
          t.crc = crcCalc f ∧ Ends s t (.failed (.deviceException (byteAt f 2)))
            { ResultGroup.zero with resKind := 4, excCode := byteAt f 2 }) ∧
      (s.rxOvf = false → 5 ≤ n → crcCalc f = crcRx f → (byteAt f 1).toNat ≤ 0x80 → byteAt f 1 ≠ s.req.func →
          step s = .next t ∧ t.crc = crcCalc f ∧ Ends s t (.failed (.function s.req.func (byteAt f 1)))
            { ResultGroup.zero with
              resKind := 3, fcKind := 3, exp := s.req.func.setWidth 16, got := (byteAt f 1).setWidth 16 })

/-- R180: bit reads. The quantity is within its ceiling whenever the decoder runs (R202; `RequestAdmitted` of Safety.lean,
which `StepKeepsInvariant` keeps). -/
def Obligations.BitReadsDecode : Prop :=
  ∀ (s : State) (op : Op), op = .readCoils ∨ op = .readDiscreteInputs → DecodingFor op s →
    let f := storedReply s
    let qty := s.req.count.toNat
    let need := (qty + 7) / 8
    ChecksPass s f → qty ≤ 2000 → ∃ t, step s = .next t ∧ t.crc = crcCalc f ∧
      ((byteAt f 2).toNat < need →
        Ends s t (.failed (.byteCount (BitVec.ofNat 16 need) ((byteAt f 2).setWidth 16)))
          { ResultGroup.zero with
            resKind := 3, fcKind := 4, exp := BitVec.ofNat 16 need, got := (byteAt f 2).setWidth 16 }) ∧
      (need ≤ (byteAt f 2).toNat → s.rxLen - 5 < need →
        Ends s t (.failed (.length (BitVec.ofNat 16 (5 + need)) (BitVec.ofNat 16 s.rxLen)))
          { ResultGroup.zero with
            resKind := 3, fcKind := 5, exp := BitVec.ofNat 16 (5 + need), got := BitVec.ofNat 16 s.rxLen }) ∧
      (need ≤ (byteAt f 2).toNat → need ≤ s.rxLen - 5 → ∃ data,
        Ends s t (.ok data) { ResultGroup.zero with resLen := s.req.count } ∧ data.length = qty ∧
          ∀ i < qty, memGet t.rbuf i = some (bitWord ((byteAt f (3 + i / 8)).getLsbD (i % 8))) ∧
            data[i]? = memGet t.rbuf i)

/-- R183: register reads. -/
def Obligations.RegisterReadsDecode : Prop :=
  ∀ (s : State) (op : Op), op = .readHoldingRegisters ∨ op = .readInputRegisters → DecodingFor op s →
    let f := storedReply s
    let qty := s.req.count.toNat
    ChecksPass s f → ∃ t, step s = .next t ∧ t.crc = crcCalc f ∧
      ((byteAt f 2).toNat ≠ 2 * qty →
        Ends s t (.failed (.byteCount (BitVec.ofNat 16 (min (2 * qty) 0xFFFF)) ((byteAt f 2).setWidth 16)))
          { ResultGroup.zero with
            resKind := 3, fcKind := 4, exp := BitVec.ofNat 16 (min (2 * qty) 0xFFFF),
            got := (byteAt f 2).setWidth 16 }) ∧
      ((byteAt f 2).toNat = 2 * qty → s.rxLen < 5 + 2 * qty →
        Ends s t (.failed (.length (BitVec.ofNat 16 (5 + 2 * qty)) (BitVec.ofNat 16 s.rxLen)))
          { ResultGroup.zero with
            resKind := 3, fcKind := 5, exp := BitVec.ofNat 16 (5 + 2 * qty), got := BitVec.ofNat 16 s.rxLen }) ∧
      ((byteAt f 2).toNat = 2 * qty → 5 + 2 * qty ≤ s.rxLen → ∃ data,
        Ends s t (.ok data) { ResultGroup.zero with resLen := s.req.count } ∧ data.length = qty ∧
          ∀ i < qty, memGet t.rbuf i = some (be16 (byteAt f (3 + 2 * i)) (byteAt f (4 + 2 * i))) ∧
            data[i]? = memGet t.rbuf i)

/-- R186: write acknowledgements. -/
def Obligations.WriteEchoesDecode : Prop :=
  ∀ (s : State) (op : Op) (b : Word), DecodingFor op s →
    (op, b) ∈ [(Op.writeSingleCoil, s.req.value), (.writeSingleRegister, s.req.value),
      (.writeMultipleCoils, s.req.count), (.writeMultipleRegisters, s.req.count)] →
    let f := storedReply s
    let fa := be16 (byteAt f 2) (byteAt f 3)
    let fb := be16 (byteAt f 4) (byteAt f 5)
    ChecksPass s f → ∃ t, step s = .next t ∧ t.crc = crcCalc f ∧
      (s.rxLen ≠ 8 →
        Ends s t (.failed (.length 8 (BitVec.ofNat 16 (min s.rxLen 0xFFFF))))
          { ResultGroup.zero with resKind := 3, fcKind := 5, exp := 8, got := BitVec.ofNat 16 (min s.rxLen 0xFFFF) }) ∧
      (s.rxLen = 8 → fa ≠ s.req.addr →
        Ends s t (.failed (.echo false s.req.addr fa))
          { ResultGroup.zero with resKind := 3, fcKind := 6, exp := s.req.addr, got := fa, misField := false }) ∧
      (s.rxLen = 8 → fa = s.req.addr → fb ≠ b →
        Ends s t (.failed (.echo true b fb))
          { ResultGroup.zero with resKind := 3, fcKind := 6, exp := b, got := fb, misField := true }) ∧
      (s.rxLen = 8 → fa = s.req.addr → fb = b → Ends s t (.ok []) ResultGroup.zero)

/-- R176: two replies that differ in the unit identifier only, each with its own good checksum, have the same verdict,
whatever the verdict is. -/
def Obligations.ReplyUnitNotExamined : Prop :=
  ∀ (op : Op) (x : Received) (u u' : Byte) (rest : List Byte), x.n = rest.length + 3 →
    decodeFor op { x with f := sealed (u :: rest) } = decodeFor op { x with f := sealed (u' :: rest) }

/-! ### The public operations, whole -/

/-- R221 to R228: a call outside a transaction runs, whatever the Line does; and with an admitted quantity against a
silent Line it ends in TransportTimeout, with one request and one read (R209, R230). -/
def Obligations.CallsComplete : Prop :=
  ∀ (s : State) (u : Byte) (a v : Word) (on : Bool) (bits : List Bool) (words : List Word), s.phase = .idle → ∀ i ∈
    [Instr.readCoils u a v, .readDiscreteInputs u a v, .readHoldingRegisters u a v, .readInputRegisters u a v,
      .writeSingleCoil u a on, .writeSingleRegister u a v, .writeMultipleCoils u a bits,
      .writeMultipleRegisters u a words],
    (∃ t, exec i s = .next t ∧ (t.phase = .idle ∨ t.phase = .awaitingReply)) ∧
      ∀ rest, Admitted s.cfg i → ∃ t g, exec i (withInputs (.answer .timeout :: rest) s) = .next t ∧
        t.res = { ResultGroup.zero with resKind := 2 } ∧ t.phase = .idle ∧ t.done = true ∧ t.rxLen = 0 ∧
        t.inputs = rest ∧ encode i = .call g ∧
        t.out = s.out ++ [.discardIn, .discardOut, .write g, .readReq, .ret (.failed .transportTimeout)]

/-- R221 to R228 with R202: a call whose quantity or length is above its ceiling or below QTY_FLOOR ends in
ParameterError before any I/O; a sequence longer than VCAP is the host-side wrapper's ParameterError, in whatever state
the block is in, and the block is untouched (R125). -/
def Obligations.CallsOutOfBoundsDoNoIo : Prop :=
  ∀ (s : State) (u : Byte) (a q : Word) (bits : List Bool) (words : List Word),
    (∀ i max, (i, max) ∈ [(Instr.readCoils u a q, (2000 : Word)), (.readDiscreteInputs u a q, 2000),
        (.readHoldingRegisters u a q, 125), (.readInputRegisters u a q, 125)] → s.phase = .idle →
      max < q ∨ q < s.cfg.qtyFloor →
      ∃ t bound, exec i s = .next t ∧ bound = (if max < q then max else s.cfg.qtyFloor) ∧
        t.res = { ResultGroup.zero with resKind := 1, exp := bound, got := q } ∧
        t.phase = .idle ∧ t.done = true ∧ t.line = s.line ∧ t.inputs = s.inputs ∧
        t.out = s.out ++ [.ret (.failed (.parameterError bound q))]) ∧
      ∀ i n max, (i, n, max) ∈ [(Instr.writeMultipleCoils u a bits, bits.length, 1968),
          (.writeMultipleRegisters u a words, words.length, 123)] →
        (s.phase = .idle → n ≤ 1968 → max < n ∨ n < s.cfg.qtyFloor.toNat →
          ∃ t bound, exec i s = .next t ∧ bound = (if max < n then BitVec.ofNat 16 max else s.cfg.qtyFloor) ∧
            t.res = { ResultGroup.zero with resKind := 1, exp := bound, got := BitVec.ofNat 16 n } ∧
            t.phase = .idle ∧ t.done = true ∧ t.line = s.line ∧ t.inputs = s.inputs ∧
            t.out = s.out ++ [.ret (.failed (.parameterError bound (BitVec.ofNat 16 n)))]) ∧
        (1968 < n → exec i s = .next { s with out := s.out ++ [.wrapperError (BitVec.ofNat 16 max) n] })

/-- R193 item 1 for the bit reads: a faithful reply to ReadCoils or ReadDiscreteInputs gives back its coils. -/
def Obligations.BitReadRoundTrip : Prop :=
  ∀ (s : State) (u u' : Byte) (a : Word) (c : List Bool) (rest : List Input), s.phase = .idle → c.length ≤ 2000 →
    s.cfg.qtyFloor.toNat ≤ c.length → fits s (5 + (c.length + 7) / 8) → ∀ i f,
    (i, f) ∈ [(Instr.readCoils u a (BitVec.ofNat 16 c.length), (0x01 : Byte)),
      (.readDiscreteInputs u a (BitVec.ofNat 16 c.length), 0x02)] →
    ∃ t, exec i (withInputs
          (answers (sealed ([u', f, BitVec.ofNat 8 ((c.length + 7) / 8)] ++ packBits c)) ++ rest) s) = .next t ∧
      t.res = { ResultGroup.zero with resLen := BitVec.ofNat 16 c.length } ∧ t.phase = .idle ∧ t.done = true ∧
      t.inputs = rest ∧ (∀ j < c.length, memGet t.rbuf j = some (bitWord (c.getD j false))) ∧
      t.out = s.out ++ [.discardIn, .discardOut, .write (sealed ([u, f] ++ be16bytes a ++
          be16bytes (BitVec.ofNat 16 c.length)))] ++ List.replicate (6 + (c.length + 7) / 8) .readReq ++
        [.ret (.ok (c.map bitWord))]

/-- R193 item 1 for the register reads. -/
def Obligations.RegisterReadRoundTrip : Prop :=
  ∀ (s : State) (u u' : Byte) (a : Word) (r : List Word) (rest : List Input), s.phase = .idle → r.length ≤ 125 →
    s.cfg.qtyFloor.toNat ≤ r.length → fits s (5 + 2 * r.length) → ∀ i f,
    (i, f) ∈ [(Instr.readHoldingRegisters u a (BitVec.ofNat 16 r.length), (0x03 : Byte)),
      (.readInputRegisters u a (BitVec.ofNat 16 r.length), 0x04)] →
    ∃ t, exec i (withInputs
          (answers (sealed ([u', f, BitVec.ofNat 8 (2 * r.length)] ++ regBytes r)) ++ rest) s) = .next t ∧
      t.res = { ResultGroup.zero with resLen := BitVec.ofNat 16 r.length } ∧ t.phase = .idle ∧ t.done = true ∧
      t.inputs = rest ∧ (∀ j < r.length, memGet t.rbuf j = r[j]?) ∧
      t.out = s.out ++ [.discardIn, .discardOut, .write (sealed ([u, f] ++ be16bytes a ++
          be16bytes (BitVec.ofNat 16 r.length)))] ++ List.replicate (6 + 2 * r.length) .readReq ++ [.ret (.ok r)]

/-- R193 items 1 and 2 for the four writes: the echoed address and value, or quantity, make the write succeed. That RBUF
is as it was is the model's choice, where R39 and U4 leave it unspecified (log entry 7). -/
def Obligations.WriteRoundTrip : Prop :=
  ∀ (s : State) (u u' : Byte) (a v : Word) (on : Bool) (bits : List Bool) (words : List Word) (rest : List Input),
    s.phase = .idle → bits.length ≤ 1968 → words.length ≤ 123 → s.cfg.qtyFloor.toNat ≤ bits.length →
    s.cfg.qtyFloor.toNat ≤ words.length → fits s 8 → ∀ i f b,
    (i, f, b) ∈ [(Instr.writeSingleCoil u a on, (0x05 : Byte), (if on then (0xFF00 : Word) else 0x0000)),
      (.writeSingleRegister u a v, 0x06, v), (.writeMultipleCoils u a bits, 0x0F, BitVec.ofNat 16 bits.length),
      (.writeMultipleRegisters u a words, 0x10, BitVec.ofNat 16 words.length)] →
    ∃ t g, exec i (withInputs (answers (sealed ([u', f] ++ be16bytes a ++ be16bytes b)) ++ rest) s) = .next t ∧
      t.res = ResultGroup.zero ∧ t.phase = .idle ∧ t.done = true ∧ t.inputs = rest ∧ t.rbuf = s.rbuf ∧
      encode i = .call g ∧
      t.out = s.out ++ [.discardIn, .discardOut, .write g] ++ List.replicate 9 .readReq ++ [.ret (.ok [])]

/-- R125 with R214: the call of a read is its program of register writes, `Start` and the steps that follow, whatever the
reply, none included, and whether the quantity is admitted or not. -/
def Obligations.ReadCallIsRegisterProgram : Prop :=
  ∀ (s : State) (u : Byte) (a q : Word) (bs : List Byte) (rest : List Input), s.phase = .idle →
    (bs ≠ [] → landsEarly rest = false) → ∀ i f max,
    (i, f, max) ∈ [(Instr.readCoils u a q, (0x01 : HostWord), (2000 : Word)),
      (.readDiscreteInputs u a q, 0x02, 2000), (.readHoldingRegisters u a q, 0x03, 125),
      (.readInputRegisters u a q, 0x04, 125)] →
    run (callSteps 5 (decide (q ≤ max ∧ s.cfg.qtyFloor ≤ q)) bs)
        (withInputs ([hostWrites 0x01 f, hostWrites 0x00 u.toNat, hostWrites 0x02 a.toNat,
            hostWrites 0x03 q.toNat, hostWrites 0x05 1] ++ answers bs ++ rest) s)
      = exec i (withInputs (answers bs ++ rest) s)

/-- R125 with R214: the same of a single write, which has no quantity. Bits 15..1 of CMD_VALUE are written 0 for a coil,
the model's choice (log entry 29). -/
def Obligations.SingleWriteCallIsRegisterProgram : Prop :=
  ∀ (s : State) (u : Byte) (a v : Word) (on : Bool) (bs : List Byte) (rest : List Input), s.phase = .idle →
    (bs ≠ [] → landsEarly rest = false) → ∀ i f d,
    (i, f, d) ∈ [(Instr.writeSingleCoil u a on, (0x05 : HostWord), (if on then (1 : HostWord) else 0)),
      (.writeSingleRegister u a v, 0x06, v.toNat)] →
    run (callSteps 5 true bs)
        (withInputs ([hostWrites 0x01 f, hostWrites 0x00 u.toNat, hostWrites 0x02 a.toNat,
            hostWrites 0x04 d, hostWrites 0x05 1] ++ answers bs ++ rest) s)
      = exec i (withInputs (answers bs ++ rest) s)

/-- R125 with R214: the same of a multiple write of at most VCAP values, one write of VBUF for each value. Bits 15..1 of an
entry are written 0 for a coil, the model's choice (log entry 29). -/
def Obligations.MultipleWriteCallIsRegisterProgram : Prop :=
  ∀ (s : State) (u : Byte) (a : Word) (bits : List Bool) (words : List Word) (bs : List Byte) (rest : List Input),
    s.phase = .idle → (bs ≠ [] → landsEarly rest = false) → ∀ i f values max,
    (i, f, values, max) ∈ [(Instr.writeMultipleCoils u a bits, (0x0F : HostWord), bits.map bitWord, 1968),
      (.writeMultipleRegisters u a words, 0x10, words, 123)] →
    values.length ≤ 1968 →
    run (callSteps (values.length + 5) (decide (values.length ≤ max ∧ s.cfg.qtyFloor.toNat ≤ values.length)) bs)
        (withInputs ([hostWrites 0x01 f, hostWrites 0x00 u.toNat, hostWrites 0x02 a.toNat,
            hostWrites 0x03 values.length] ++
          (values.mapIdx fun k v => hostWrites (BitVec.ofNat 16 (0x1000 + k)) v.toNat) ++
          [hostWrites 0x05 1] ++ answers bs ++ rest) s)
      = exec i (withInputs (answers bs ++ rest) s)

/-! ### Replies -/

/-- R180 to R182 as the reply rows: a good bit reply, awaited, ends the read with its bits. -/
def Obligations.BitRepliesComplete : Prop :=
  ∀ (s : State) (u n : Byte) (d : List Byte) (crc : Word), Listening s (5 + d.length) →
    (s.req.count.toNat + 7) / 8 ≤ n.toNat → (s.req.count.toNat + 7) / 8 ≤ d.length → s.req.count ≤ 2000 →
    crc = checksum ([u, s.req.func, n] ++ d) → ∀ i f,
    (i, f) ∈ [(Instr.readCoilsReply u n d crc, (0x01 : Byte)), (.readDiscreteInputsReply u n d crc, 0x02)] →
    s.req.func = f →
    ∃ t, exec i s = .next t ∧ t.res = { ResultGroup.zero with resLen := s.req.count } ∧ t.phase = .idle ∧
      t.done = true ∧ t.rxLen = 5 + d.length ∧ t.crc = crc ∧
      ∀ j < s.req.count.toNat, memGet t.rbuf j = some (bitWord (packedBit d j))

/-- R183 to R185 as the reply rows. -/
def Obligations.RegisterRepliesComplete : Prop :=
  ∀ (s : State) (u n : Byte) (r : List Word) (extra : List Byte) (crc : Word),
    Listening s (5 + 2 * r.length + extra.length) → s.req.count.toNat = r.length → n.toNat = 2 * r.length →
    crc = checksum ([u, s.req.func, n] ++ regBytes r ++ extra) → ∀ i f,
    (i, f) ∈ [(Instr.readHoldingRegistersReply u n (regBytes r ++ extra) crc, (0x03 : Byte)),
      (.readInputRegistersReply u n (regBytes r ++ extra) crc, 0x04)] →
    s.req.func = f →
    ∃ t, exec i s = .next t ∧ t.res = { ResultGroup.zero with resLen := s.req.count } ∧ t.phase = .idle ∧
      t.done = true ∧ t.rxLen = 5 + 2 * r.length + extra.length ∧ t.crc = crc ∧
      ∀ j < r.length, memGet t.rbuf j = r[j]?

/-- R186 to R190 as the reply rows: the matching echo succeeds, a differing one is an Echo failure on the first field
that differs. -/
def Obligations.EchoRepliesComplete : Prop :=
  ∀ (s : State) (u : Byte) (a v crc : Word), Listening s 8 →
    crc = checksum ([u, s.req.func] ++ be16bytes a ++ be16bytes v) → ∀ i f b,
    (i, f, b) ∈ [(Instr.writeSingleCoilReply u a v crc, (0x05 : Byte), s.req.value),
      (.writeSingleRegisterReply u a v crc, 0x06, s.req.value),
      (.writeMultipleCoilsReply u a v crc, 0x0F, s.req.count),
      (.writeMultipleRegistersReply u a v crc, 0x10, s.req.count)] →
    s.req.func = f →
    ∃ t, exec i s = .next t ∧ t.phase = .idle ∧ t.done = true ∧ t.rxLen = 8 ∧ t.crc = crc ∧
      t.res = (if a ≠ s.req.addr then
          { ResultGroup.zero with resKind := 3, fcKind := 6, exp := s.req.addr, got := a, misField := false }
        else if v ≠ b then
          { ResultGroup.zero with resKind := 3, fcKind := 6, exp := b, got := v, misField := true }
        else ResultGroup.zero)

/-- R174, R245 as the reply row: whatever was requested, of whatever quantity, and of whatever length the frame. That RBUF
is as it was is the model's choice, where R38, R39 and U4 leave it unspecified after a failure (log entry 7). -/
def Obligations.ExceptionReplyCompletes : Prop :=
  ∀ (s : State) (op : Op) (u : Byte) (func : BitVec 7) (code : Byte) (extra : List Byte) (crc : Word),
    Listening s (5 + extra.length) → s.req.func = funcCode op → func ≠ 0 →
    crc = checksum ([u, 1#1 ++ func, code] ++ extra) →
    ∃ t, exec (.exceptionReply u func code extra crc) s = .next t ∧
      t.res = { ResultGroup.zero with resKind := 4, excCode := code } ∧ t.phase = .idle ∧ t.done = true ∧
      t.rbuf = s.rbuf ∧
      t.out = s.out ++ (if s.reading then [] else [.readReq]) ++ List.replicate (5 + extra.length) .readReq ++
        [.ret (.failed (.deviceException code))]

/-- R44: a reply nothing reads waits in the Line's input buffer. -/
def Obligations.UnreadRepliesWait : Prop :=
  ∀ (s : State) (i : Instr) (f : List Byte), encode i = .reply f → s.phase ≠ .awaitingReply →
    exec i s = .next { s with line := { s.line with inBuf := s.line.inBuf ++ f } }

/-- The frame of the nine replies. RXBUF changes at the offsets of the bytes received, RBUF below RES_LEN; that RBUF
stands elsewhere is the model's choice, the host reading free values there (R39, log entry 7). -/
def Obligations.ReplyFrame : Prop :=
  ∀ (s t : State) (i : Instr) (f : List Byte), encode i = .reply f → exec i s = .next t →
    t.cfg = s.cfg ∧ t.cmd = s.cmd ∧ t.written = s.written ∧ t.req = s.req ∧ t.crcOwned = s.crcOwned ∧
      t.sendStage = s.sendStage ∧
      t.tCfg = s.tCfg ∧ t.txLen = s.txLen ∧ t.inputs = s.inputs ∧ t.endless = s.endless ∧ t.resets = s.resets ∧
      t.line.outBuf = s.line.outBuf ∧ (∀ a, memGet t.vbuf a = memGet s.vbuf a) ∧
      (∀ a, memGet t.txBuf a = memGet s.txBuf a) ∧
      (∀ a, a < s.rxLen ∨ s.rxLen + (s.line.inBuf ++ f).length ≤ a → memGet t.rxBuf a = memGet s.rxBuf a) ∧
      (∀ a, t.res.resLen.toNat ≤ a → memGet t.rbuf a = memGet s.rbuf a)

/-- The frame of the eight operations. Of the operand registers a call writes those R125 names; TXBUF changes within
the request frame, RXBUF within the bytes received, RBUF below RES_LEN (elsewhere as in `ReplyFrame`), VBUF within the
values given. -/
def Obligations.CallFrame : Prop :=
  ∀ (s t : State) (u : Byte) (a v : Word) (on : Bool) (bits : List Bool) (words : List Word),
    (∀ i ∈ [Instr.readCoils u a v, .readDiscreteInputs u a v, .readHoldingRegisters u a v, .readInputRegisters u a v],
      exec i s = .next t → t.cmd.value = s.cmd.value ∧ t.written.value = s.written.value ∧
        ∀ k, memGet t.vbuf k = memGet s.vbuf k) ∧
      (∀ i ∈ [Instr.writeSingleCoil u a on, .writeSingleRegister u a v],
        exec i s = .next t → t.cmd.count = s.cmd.count ∧ t.written.count = s.written.count ∧
          ∀ k, memGet t.vbuf k = memGet s.vbuf k) ∧
      (∀ i n, (i, n) ∈ [(Instr.writeMultipleCoils u a bits, bits.length),
          (.writeMultipleRegisters u a words, words.length)] →
        exec i s = .next t → t.cmd.value = s.cmd.value ∧ t.written.value = s.written.value ∧
          ∀ k, min n 1968 ≤ k → memGet t.vbuf k = memGet s.vbuf k) ∧
      ∀ (i : Instr) (f : List Byte), encode i = .call f → exec i s = .next t →
        t.cfg = s.cfg ∧ t.tCfg = s.tCfg ∧ t.endless = s.endless ∧ t.resets = s.resets ∧
          (∀ k, f.length ≤ k → memGet t.txBuf k = memGet s.txBuf k) ∧
          (∀ k, t.rxLen ≤ k → memGet t.rxBuf k = memGet s.rxBuf k) ∧
          (∀ k, t.res.resLen.toNat ≤ k → memGet t.rbuf k = memGet s.rbuf k)

/-! ### The machine -/

/-- A step runs the instruction the next packet decodes to, in the state less that packet: at once if the packet lands
early, else where the block has no move of its own. -/
def Obligations.StepRunsDecodedInstruction : Prop :=
  ∀ (s : State) (p : Packet) (i : Instr) (rest : List Input), decode p = .ok i →
    (s.inputs = .early p :: rest → step s = exec i (withInputs rest s)) ∧
      (s.inputs = .packet p :: rest →
        s.phase = .idle ∨ (s.phase = .awaitingReply ∧ s.reading = true ∧ s.line.inBuf = []) →
        step s = exec i (withInputs rest s)) ∧
      ∀ nbits w, tablePacket nbits w = p → step (s.withFetchWord nbits w) = exec i s

/-- R200, R7: no transition of STATE but these, and at most one event emitted, in a step that consumes no whole call or
reply and no reset. A step consumes the next event if that lands early or the block has no move of its own. -/
def Obligations.PhaseTransitions : Prop :=
  ∀ s t : State, step s = .next t → (landsEarly s.inputs = true ∨ ownMove s = none → compound s.inputs = false) →
    s.inputs.head? ≠ some .reset →
    (t.phase = s.phase ∨ (s.phase, t.phase) ∈ [(Phase.idle, Phase.sending), (.sending, .awaitingReply),
        (.awaitingReply, .decoding), (.awaitingReply, .idle), (.decoding, .idle), (.failed, .idle)]) ∧
      t.out = s.out ++ emitted s t ∧ (emitted s t).length ≤ 1

/-- R76 (c), R248: the result group, RBUF included, changes only in the step that emits `Return`, which writes all of
it; and what has been emitted stands. -/
def Obligations.ResultChangesOnlyAtReturn : Prop :=
  ∀ s t : State, step s = .next t → s.inputs.head? ≠ some .reset →
    t.out = s.out ++ emitted s t ∧
      ((t.res = s.res ∧ t.rbuf = s.rbuf) ∨
        ∃ r, Output.ret r ∈ emitted s t ∧ t.res = resultGroup r ∧ t.phase = .idle ∧ t.done = true ∧
          ∀ data, r = .ok data → ∀ i < data.length, memGet t.rbuf i = data[i]?)

/-- R27, R248: while a transaction is in flight no step changes the latched request or the request frame. That the operand
registers, VBUF and T_CFG stand as well is the model's treatment: a host write to them while busy is refused (log entry 14,
by R291 and U9), where R81 speaks of one that is seen by the next operation. -/
def Obligations.RequestHeldWhileBusy : Prop :=
  ∀ s t : State, step s = .next t → s.phase ≠ .idle → s.inputs.head? ≠ some .reset →
    t.req = s.req ∧ t.cmd = s.cmd ∧ t.written = s.written ∧ t.vbuf = s.vbuf ∧ t.tCfg = s.tCfg ∧
      t.txBuf = s.txBuf ∧ t.txLen = s.txLen

/-- R76, R213: `Write` is emitted at most once a step and only out of Sending, or by a call made in Idle. Nothing else
sends: there is no retry. -/
def Obligations.WriteOnlyFromSending : Prop :=
  ∀ s t : State, step s = .next t → ((emitted s t).filter isWrite).length ≤ 1 ∧
    ∀ f, Output.write f ∈ emitted s t →
      (s.phase = .sending ∧ s.sendStage = .write ∧ f = requestFrame s) ∨ (s.phase = .idle ∧ nextIsCall s.inputs = true)

/-- R6: the parameters are arguments of the model; no step changes one. -/
def Obligations.ParametersNeverChange : Prop := ∀ s t : State, step s = .next t → t.cfg = s.cfg

/-- R48: the values the spec states for reset, for every choice of the parameters. -/
def Obligations.ResetValues : Prop :=
  ∀ p : Config.Params,
    let s := State.resetWith p
    s.phase = .idle ∧ s.done = false ∧ s.res.resKind = 0 ∧ s.res.fcKind = 0 ∧ s.res.excCode = 0 ∧ s.res.crcRx = 0 ∧
      s.res.crcCalc = 0 ∧ s.res.exp = 0 ∧ s.res.got = 0 ∧ s.res.misField = false ∧ s.res.resLen = 0 ∧ s.rxLen = 0 ∧
      s.rxOvf = false ∧ s.txLen = 0 ∧ s.tCfg = p.tDefault ∧ readBack 0x06 s = some 0

/-- R281: a reset lands in any state, abandons the transaction with no `Return`, and does not reach the Line. That a read
outstanding counts as withdrawn is the model's choice (log entry 31). -/
def Obligations.ResetAbandonsTransaction : Prop :=
  ∀ (s : State) (rest : List Input), ∃ t, step (withInputs (.reset :: rest) s) = .next t ∧ t.phase = .idle ∧
    t.done = false ∧ t.reading = false ∧ t.res = ResultGroup.zero ∧ t.rxLen = 0 ∧ t.rxOvf = false ∧ t.txLen = 0 ∧
    t.tCfg = s.cfg.tDefault ∧ t.cfg = s.cfg ∧ t.out = s.out ∧ t.line = s.line ∧ t.inputs = rest ∧
    t.endless = s.endless

/-- The invariant holds after reset, for every legal choice of the parameters. -/
def Obligations.ResetMeetsInvariant : Prop := ∀ p : Config.Params, p.legal = true → Inv (State.resetWith p)

/-- R62: every step keeps the buffers canonical and within their capacities. -/
def Obligations.StepKeepsMemoryCanonical : Prop :=
  ∀ s t : State, MemoryCanonical s → step s = .next t → MemoryCanonical t

/-- Every step keeps the invariant. -/
def Obligations.StepKeepsInvariant : Prop := ∀ s t : State, Inv s → step s = .next t → Inv t

/-- In a state of the invariant no step ends in a fault. -/
def Obligations.InvariantExcludesFaults : Prop := ∀ s : State, Inv s → NoFault s
end

