-- ==== Sys2Proof/Laws/Bytes.lean ====
section
/-! SUPPORT. Byte order, packing and the function-code map: what each conversion gives back. -/

namespace Sys2Proof.Machine

@[simp] theorem be16_hi_lo (v : Word) : be16 (hi v) (lo v) = v := by
  apply BitVec.eq_of_getLsbD_eq
  intro i hi'
  simp only [be16, hi, lo, BitVec.getLsbD_or, BitVec.getLsbD_shiftLeft, BitVec.getLsbD_setWidth,
    BitVec.getLsbD_ushiftRight]
  by_cases h : i < 8
  · simp [h, hi']
  · have h2 : 8 + (i - 8) = i := by omega
    have h3 : i - 8 < 16 := by omega
    have h4 : i - 8 < 8 := by omega
    simp [h, hi', h2, h3, h4]

@[simp] theorem le16_lo_hi (v : Word) : le16 (lo v) (hi v) = v := be16_hi_lo v

@[simp] theorem be16bytes_length (v : Word) : (be16bytes v).length = 2 := rfl

@[simp] theorem le16bytes_length (v : Word) : (le16bytes v).length = 2 := rfl

@[simp] theorem checksumBytes_length (s : List Byte) : (checksumBytes s).length = 2 := rfl

@[simp] theorem sealed_length (s : List Byte) : (sealed s).length = s.length + 2 := by simp [sealed]

@[simp] theorem packBits_length (c : List Bool) : (packBits c).length = bitBytes c.length := by simp [packBits]

@[simp] theorem regBytes_length (r : List Word) : (regBytes r).length = 2 * r.length := by
  induction r with
  | nil => rfl
  | cons v r ih => simp only [regBytes, List.flatMap_cons, List.length_append, be16bytes_length,
      List.length_cons] at *; omega

@[simp] theorem unpackBits_length (d : List Byte) (q : Nat) : (unpackBits d q).length = q := by simp [unpackBits]

theorem regBytes_cons (v : Word) (r : List Word) : regBytes (v :: r) = hi v :: lo v :: regBytes r := rfl

@[simp] theorem regWords_regBytes (r : List Word) : regWords (regBytes r) = r := by
  induction r with
  | nil => rfl
  | cons v r ih => rw [regBytes_cons, regWords, ih, be16_hi_lo]

theorem byteOfBits_getLsbD (f : Nat → Bool) {j : Nat} (h : j < 8) : (byteOfBits f).getLsbD j = f j := by
  unfold byteOfBits
  generalize h0 : f 0 = b0; generalize h1 : f 1 = b1; generalize h2 : f 2 = b2; generalize h3 : f 3 = b3
  generalize h4 : f 4 = b4; generalize h5 : f 5 = b5; generalize h6 : f 6 = b6; generalize h7 : f 7 = b7
  have key : ∀ b0 b1 b2 b3 b4 b5 b6 b7 : Bool, ∀ k : Fin 8,
      (BitVec.ofNat 8 (b0.toNat + 2 * b1.toNat + 4 * b2.toNat + 8 * b3.toNat + 16 * b4.toNat + 32 * b5.toNat
        + 64 * b6.toNat + 128 * b7.toNat)).getLsbD k = [b0, b1, b2, b3, b4, b5, b6, b7].getD k false := by
    decide
  rw [key b0 b1 b2 b3 b4 b5 b6 b7 ⟨j, h⟩]
  obtain rfl | rfl | rfl | rfl | rfl | rfl | rfl | rfl :
      j = 0 ∨ j = 1 ∨ j = 2 ∨ j = 3 ∨ j = 4 ∨ j = 5 ∨ j = 6 ∨ j = 7 := by omega
  all_goals simp [*]

/-- Every bit of packed data: the sequence's where it reaches, 0 beyond (R103). -/
theorem packedBit_packBits (c : List Bool) (i : Nat) : packedBit (packBits c) i = c.getD i false := by
  unfold packedBit packBits
  by_cases h : i / 8 < bitBytes c.length
  · have hr : i % 8 < 8 := Nat.mod_lt _ (by omega)
    have he : 8 * (i / 8) + i % 8 = i := Nat.div_add_mod i 8
    simp [List.getD_eq_getElem?_getD, h, byteOfBits_getLsbD _ hr, he]
  · have hlen : c.length ≤ i := by unfold bitBytes at h; omega
    simp [List.getD_eq_getElem?_getD, h, hlen]

@[simp] theorem opOfCode_funcCode (op : Op) : opOfCode (funcCode op) = some op := by cases op <;> rfl

theorem opOfCode_eq_some {c : Byte} {op : Op} (h : opOfCode c = some op) : c = funcCode op := by
  unfold opOfCode at h
  split at h <;> first | (cases h; rename_i hc; apply BitVec.eq_of_toNat_eq; rw [hc]; rfl) | cases h

end Sys2Proof.Machine
end

