-- ==== Sys2Proof/Laws/Crc.lean ====
section
/-! SUPPORT. The checksum's recursion without the evaluation helper. -/

namespace Sys2Proof.Machine

@[simp] theorem strictly_eq {α : Type} (c : Word) (k : Word → α) : strictly c k = k c := by
  unfold strictly
  split
  · rename_i h; congr 1; apply BitVec.eq_of_toNat_eq; simp [h]
  · rename_i n h
    have h' : c.toNat = n + 1 := h
    rw [← h', BitVec.ofNat_toNat, BitVec.setWidth_eq]

theorem crcFeed_nil (c : Word) : crcFeed c [] = c := rfl

theorem crcFeed_cons (c : Word) (b : Byte) (s : List Byte) : crcFeed c (b :: s) = crcFeed (crcUpdate c b) s := by
  rw [crcFeed, strictly_eq]

/-- The feed is a left fold of the update (R135). -/
theorem crcFeed_eq_foldl (c : Word) (s : List Byte) : crcFeed c s = s.foldl crcUpdate c := by
  induction s generalizing c with
  | nil => rfl
  | cons b s ih => rw [crcFeed_cons, ih]; rfl

/-- Where the bit tested is 0 an iteration is a plain shift (R134). -/
theorem crcShift_of_even {c : Word} (h : c.getLsbD 0 = false) : crcShift c = c >>> 1 := by
  unfold crcShift
  rw [h]
  rfl

end Sys2Proof.Machine
end

