-- ==== Sys2Proof/Laws/Memory.lean ====
section
/-! SUPPORT. The laws of buffers: a read after a write, and that every write keeps the canonical form and the
capacity. -/

namespace Sys2Proof.Machine

variable {w : Nat}

@[simp] theorem memGet_memSet_same (m : Memory w) (a : Nat) (v : BitVec w) : memGet (memSet m a v) a = some v := by
  induction m with
  | nil => simp [memSet, memGet]
  | cons p m ih =>
    obtain ⟨k, u⟩ := p
    unfold memSet
    split
    · simp [memGet]
    · split
      · simp [memGet]
      · rename_i h; simp [memGet, h, ih]

theorem memGet_memSet_other (m : Memory w) {a b : Nat} (v : BitVec w) (h : b ≠ a) :
    memGet (memSet m a v) b = memGet m b := by
  induction m with
  | nil => simp [memSet, memGet, h]
  | cons p m ih =>
    obtain ⟨k, u⟩ := p
    unfold memSet
    split
    · simp [memGet, h]
    · split
      · rename_i _ e; subst e; simp [memGet, h]
      · simp only [memGet, ih]

theorem memGet_memSet (m : Memory w) (a b : Nat) (v : BitVec w) :
    memGet (memSet m a v) b = if b = a then some v else memGet m b := by
  split
  · rename_i h; rw [h, memGet_memSet_same]
  · rename_i h; exact memGet_memSet_other m v h

@[simp] theorem memWrite_nil (m : Memory w) (off : Nat) : memWrite m off [] = m := rfl

/-- A write changes the cells it covers and no other. -/
theorem memGet_memWrite (m : Memory w) (off : Nat) (s : List (BitVec w)) (a : Nat) :
    memGet (memWrite m off s) a = if off ≤ a ∧ a < off + s.length then s[a - off]? else memGet m a := by
  induction s generalizing m off with
  | nil => simp
  | cons v s ih =>
    rw [memWrite, ih, memGet_memSet]
    by_cases h1 : a = off
    · subst h1; simp
    · by_cases h2 : off + 1 ≤ a ∧ a < off + 1 + s.length
      · have h3 : off ≤ a ∧ a < off + (s.length + 1) := by omega
        have h4 : a - off = (a - (off + 1)) + 1 := by omega
        simp only [h2, h3, List.length_cons, and_self, if_true, h4, List.getElem?_cons_succ]
      · have h3 : ¬ (off ≤ a ∧ a < off + (s.length + 1)) := by omega
        simp only [h1, h2, h3, List.length_cons, if_false]

theorem memGet_memWrite_outside (m : Memory w) {off : Nat} {s : List (BitVec w)} {a : Nat}
    (h : a < off ∨ off + s.length ≤ a) : memGet (memWrite m off s) a = memGet m a := by
  rw [memGet_memWrite, if_neg (by omega)]

theorem mem_memSet {m : Memory w} {a : Nat} {v : BitVec w} {p : Nat × BitVec w} (h : p ∈ memSet m a v) :
    p = (a, v) ∨ p ∈ m := by
  induction m with
  | nil => simpa [memSet] using h
  | cons q m ih =>
    obtain ⟨k, u⟩ := q
    unfold memSet at h
    split at h
    · simpa using h
    · split at h
      · rcases List.mem_cons.1 h with h | h
        · exact .inl h
        · exact .inr (List.mem_cons_of_mem _ h)
      · rcases List.mem_cons.1 h with h | h
        · exact .inr (h ▸ List.mem_cons_self)
        · exact (ih h).imp_right (List.mem_cons_of_mem _)

theorem memWf_memSet {m : Memory w} (h : memWf m) (a : Nat) (v : BitVec w) : memWf (memSet m a v) := by
  induction m with
  | nil => simp [memSet, memWf]
  | cons q m ih =>
    obtain ⟨k, u⟩ := q
    obtain ⟨hk, hm⟩ := List.pairwise_cons.1 h
    unfold memSet
    split
    · rename_i hak
      refine List.pairwise_cons.2 ⟨fun p hp => ?_, h⟩
      rcases List.mem_cons.1 hp with rfl | hp
      · exact hak
      · exact hak.trans (hk p hp)
    · split
      · rename_i _ e; subst e
        exact List.pairwise_cons.2 ⟨hk, hm⟩
      · refine List.pairwise_cons.2 ⟨fun p hp => ?_, ih hm⟩
        rcases mem_memSet hp with rfl | hp
        · show k < a; omega
        · exact hk p hp

theorem memWf_memWrite {m : Memory w} (h : memWf m) (off : Nat) (s : List (BitVec w)) :
    memWf (memWrite m off s) := by
  induction s generalizing m off with
  | nil => exact h
  | cons v s ih => exact ih (memWf_memSet h off v) (off + 1)

theorem memBelow_memSet {cap : Nat} {m : Memory w} (h : memBelow cap m) {a : Nat} (ha : a < cap) (v : BitVec w) :
    memBelow cap (memSet m a v) := by
  intro p hp
  rcases mem_memSet hp with rfl | hp
  · exact ha
  · exact h p hp

theorem memBelow_memWrite {cap : Nat} {m : Memory w} (h : memBelow cap m) {off : Nat} {s : List (BitVec w)}
    (hs : off + s.length ≤ cap) : memBelow cap (memWrite m off s) := by
  induction s generalizing m off with
  | nil => exact h
  | cons v s ih =>
    simp only [List.length_cons] at hs
    exact ih (memBelow_memSet h (by omega) v) (by omega)

@[simp] theorem memRead_length (m : Memory w) (u : Nat → BitVec w) (n : Nat) : (memRead m u n).length = n := by
  simp [memRead]

theorem memRead_getElem? (m : Memory w) (u : Nat → BitVec w) {n a : Nat} (h : a < n) :
    (memRead m u n)[a]? = some ((memGet m a).getD (u a)) := by
  simp [memRead, h]

/-- A read of what has been written gives it back. -/
theorem memRead_eq {m : Memory w} {u : Nat → BitVec w} {s : List (BitVec w)}
    (h : ∀ a < s.length, memGet m a = s[a]?) : memRead m u s.length = s := by
  apply List.ext_getElem?
  intro a
  by_cases ha : a < s.length
  · rw [memRead_getElem? m u ha, h a ha, List.getElem?_eq_getElem ha, Option.getD_some]
  · rw [List.getElem?_eq_none (by simpa using ha), List.getElem?_eq_none (by omega)]

theorem memRead_memWrite (m : Memory w) (u : Nat → BitVec w) (s : List (BitVec w)) :
    memRead (memWrite m 0 s) u s.length = s := by
  refine memRead_eq fun a ha => ?_
  rw [memGet_memWrite, if_pos (by omega), Nat.sub_zero]

end Sys2Proof.Machine
end

