-- ==== Sys2Proof/Laws/State.lean ====
section
/-! SUPPORT. What each named operation leaves in each field of State, so that no proof unfolds a record update. -/

namespace Sys2Proof.Machine

/-! ### emit -/

@[simp] theorem emit_cfg (es : List Output) (s : State) : (emit es s).cfg = s.cfg := rfl
@[simp] theorem emit_sendStage (es : List Output) (s : State) : (emit es s).sendStage = s.sendStage := rfl
@[simp] theorem emit_reading (es : List Output) (s : State) : (emit es s).reading = s.reading := rfl
@[simp] theorem emit_cmd (es : List Output) (s : State) : (emit es s).cmd = s.cmd := rfl
@[simp] theorem emit_written (es : List Output) (s : State) : (emit es s).written = s.written := rfl
@[simp] theorem emit_vbuf (es : List Output) (s : State) : (emit es s).vbuf = s.vbuf := rfl
@[simp] theorem emit_req (es : List Output) (s : State) : (emit es s).req = s.req := rfl
@[simp] theorem emit_crc (es : List Output) (s : State) : (emit es s).crc = s.crc := rfl
@[simp] theorem emit_crcOwned (es : List Output) (s : State) : (emit es s).crcOwned = s.crcOwned := rfl
@[simp] theorem emit_phase (es : List Output) (s : State) : (emit es s).phase = s.phase := rfl
@[simp] theorem emit_done (es : List Output) (s : State) : (emit es s).done = s.done := rfl
@[simp] theorem emit_txBuf (es : List Output) (s : State) : (emit es s).txBuf = s.txBuf := rfl
@[simp] theorem emit_txLen (es : List Output) (s : State) : (emit es s).txLen = s.txLen := rfl
@[simp] theorem emit_rxBuf (es : List Output) (s : State) : (emit es s).rxBuf = s.rxBuf := rfl
@[simp] theorem emit_rxLen (es : List Output) (s : State) : (emit es s).rxLen = s.rxLen := rfl
@[simp] theorem emit_rxOvf (es : List Output) (s : State) : (emit es s).rxOvf = s.rxOvf := rfl
@[simp] theorem emit_tCfg (es : List Output) (s : State) : (emit es s).tCfg = s.tCfg := rfl
@[simp] theorem emit_ibt (es : List Output) (s : State) : (emit es s).ibt = s.ibt := rfl
@[simp] theorem emit_res (es : List Output) (s : State) : (emit es s).res = s.res := rfl
@[simp] theorem emit_rbuf (es : List Output) (s : State) : (emit es s).rbuf = s.rbuf := rfl
@[simp] theorem emit_line (es : List Output) (s : State) : (emit es s).line = s.line := rfl
@[simp] theorem emit_inputs (es : List Output) (s : State) : (emit es s).inputs = s.inputs := rfl
@[simp] theorem emit_endless (es : List Output) (s : State) : (emit es s).endless = s.endless := rfl
@[simp] theorem emit_out (es : List Output) (s : State) : (emit es s).out = s.out ++ es := rfl
@[simp] theorem emit_resets (es : List Output) (s : State) : (emit es s).resets = s.resets := rfl
@[simp] theorem emit_draws (es : List Output) (s : State) : (emit es s).draws = s.draws := rfl

/-! ### setUnit -/

@[simp] theorem setUnit_cfg (v : Byte) (s : State) : (setUnit v s).cfg = s.cfg := rfl
@[simp] theorem setUnit_sendStage (v : Byte) (s : State) : (setUnit v s).sendStage = s.sendStage := rfl
@[simp] theorem setUnit_reading (v : Byte) (s : State) : (setUnit v s).reading = s.reading := rfl
@[simp] theorem setUnit_cmd (v : Byte) (s : State) : (setUnit v s).cmd = { s.cmd with unit := v } := rfl
@[simp] theorem setUnit_written (v : Byte) (s : State) : (setUnit v s).written
    = { s.written with unit := true } := rfl
@[simp] theorem setUnit_vbuf (v : Byte) (s : State) : (setUnit v s).vbuf = s.vbuf := rfl
@[simp] theorem setUnit_req (v : Byte) (s : State) : (setUnit v s).req = s.req := rfl
@[simp] theorem setUnit_crc (v : Byte) (s : State) : (setUnit v s).crc = s.crc := rfl
@[simp] theorem setUnit_crcOwned (v : Byte) (s : State) : (setUnit v s).crcOwned = s.crcOwned := rfl
@[simp] theorem setUnit_phase (v : Byte) (s : State) : (setUnit v s).phase = s.phase := rfl
@[simp] theorem setUnit_done (v : Byte) (s : State) : (setUnit v s).done = s.done := rfl
@[simp] theorem setUnit_txBuf (v : Byte) (s : State) : (setUnit v s).txBuf = s.txBuf := rfl
@[simp] theorem setUnit_txLen (v : Byte) (s : State) : (setUnit v s).txLen = s.txLen := rfl
@[simp] theorem setUnit_rxBuf (v : Byte) (s : State) : (setUnit v s).rxBuf = s.rxBuf := rfl
@[simp] theorem setUnit_rxLen (v : Byte) (s : State) : (setUnit v s).rxLen = s.rxLen := rfl
@[simp] theorem setUnit_rxOvf (v : Byte) (s : State) : (setUnit v s).rxOvf = s.rxOvf := rfl
@[simp] theorem setUnit_tCfg (v : Byte) (s : State) : (setUnit v s).tCfg = s.tCfg := rfl
@[simp] theorem setUnit_ibt (v : Byte) (s : State) : (setUnit v s).ibt = s.ibt := rfl
@[simp] theorem setUnit_res (v : Byte) (s : State) : (setUnit v s).res = s.res := rfl
@[simp] theorem setUnit_rbuf (v : Byte) (s : State) : (setUnit v s).rbuf = s.rbuf := rfl
@[simp] theorem setUnit_line (v : Byte) (s : State) : (setUnit v s).line = s.line := rfl
@[simp] theorem setUnit_inputs (v : Byte) (s : State) : (setUnit v s).inputs = s.inputs := rfl
@[simp] theorem setUnit_endless (v : Byte) (s : State) : (setUnit v s).endless = s.endless := rfl
@[simp] theorem setUnit_out (v : Byte) (s : State) : (setUnit v s).out = s.out := rfl
@[simp] theorem setUnit_resets (v : Byte) (s : State) : (setUnit v s).resets = s.resets := rfl
@[simp] theorem setUnit_draws (v : Byte) (s : State) : (setUnit v s).draws = s.draws := rfl

/-! ### setFunc -/

@[simp] theorem setFunc_cfg (v : Byte) (s : State) : (setFunc v s).cfg = s.cfg := rfl
@[simp] theorem setFunc_sendStage (v : Byte) (s : State) : (setFunc v s).sendStage = s.sendStage := rfl
@[simp] theorem setFunc_reading (v : Byte) (s : State) : (setFunc v s).reading = s.reading := rfl
@[simp] theorem setFunc_cmd (v : Byte) (s : State) : (setFunc v s).cmd = { s.cmd with func := v } := rfl
@[simp] theorem setFunc_written (v : Byte) (s : State) : (setFunc v s).written
    = { s.written with func := true } := rfl
@[simp] theorem setFunc_vbuf (v : Byte) (s : State) : (setFunc v s).vbuf = s.vbuf := rfl
@[simp] theorem setFunc_req (v : Byte) (s : State) : (setFunc v s).req = s.req := rfl
@[simp] theorem setFunc_crc (v : Byte) (s : State) : (setFunc v s).crc = s.crc := rfl
@[simp] theorem setFunc_crcOwned (v : Byte) (s : State) : (setFunc v s).crcOwned = s.crcOwned := rfl
@[simp] theorem setFunc_phase (v : Byte) (s : State) : (setFunc v s).phase = s.phase := rfl
@[simp] theorem setFunc_done (v : Byte) (s : State) : (setFunc v s).done = s.done := rfl
@[simp] theorem setFunc_txBuf (v : Byte) (s : State) : (setFunc v s).txBuf = s.txBuf := rfl
@[simp] theorem setFunc_txLen (v : Byte) (s : State) : (setFunc v s).txLen = s.txLen := rfl
@[simp] theorem setFunc_rxBuf (v : Byte) (s : State) : (setFunc v s).rxBuf = s.rxBuf := rfl
@[simp] theorem setFunc_rxLen (v : Byte) (s : State) : (setFunc v s).rxLen = s.rxLen := rfl
@[simp] theorem setFunc_rxOvf (v : Byte) (s : State) : (setFunc v s).rxOvf = s.rxOvf := rfl
@[simp] theorem setFunc_tCfg (v : Byte) (s : State) : (setFunc v s).tCfg = s.tCfg := rfl
@[simp] theorem setFunc_ibt (v : Byte) (s : State) : (setFunc v s).ibt = s.ibt := rfl
@[simp] theorem setFunc_res (v : Byte) (s : State) : (setFunc v s).res = s.res := rfl
@[simp] theorem setFunc_rbuf (v : Byte) (s : State) : (setFunc v s).rbuf = s.rbuf := rfl
@[simp] theorem setFunc_line (v : Byte) (s : State) : (setFunc v s).line = s.line := rfl
@[simp] theorem setFunc_inputs (v : Byte) (s : State) : (setFunc v s).inputs = s.inputs := rfl
@[simp] theorem setFunc_endless (v : Byte) (s : State) : (setFunc v s).endless = s.endless := rfl
@[simp] theorem setFunc_out (v : Byte) (s : State) : (setFunc v s).out = s.out := rfl
@[simp] theorem setFunc_resets (v : Byte) (s : State) : (setFunc v s).resets = s.resets := rfl
@[simp] theorem setFunc_draws (v : Byte) (s : State) : (setFunc v s).draws = s.draws := rfl

/-! ### setAddr -/

@[simp] theorem setAddr_cfg (v : Word) (s : State) : (setAddr v s).cfg = s.cfg := rfl
@[simp] theorem setAddr_sendStage (v : Word) (s : State) : (setAddr v s).sendStage = s.sendStage := rfl
@[simp] theorem setAddr_reading (v : Word) (s : State) : (setAddr v s).reading = s.reading := rfl
@[simp] theorem setAddr_cmd (v : Word) (s : State) : (setAddr v s).cmd = { s.cmd with addr := v } := rfl
@[simp] theorem setAddr_written (v : Word) (s : State) : (setAddr v s).written
    = { s.written with addr := true } := rfl
@[simp] theorem setAddr_vbuf (v : Word) (s : State) : (setAddr v s).vbuf = s.vbuf := rfl
@[simp] theorem setAddr_req (v : Word) (s : State) : (setAddr v s).req = s.req := rfl
@[simp] theorem setAddr_crc (v : Word) (s : State) : (setAddr v s).crc = s.crc := rfl
@[simp] theorem setAddr_crcOwned (v : Word) (s : State) : (setAddr v s).crcOwned = s.crcOwned := rfl
@[simp] theorem setAddr_phase (v : Word) (s : State) : (setAddr v s).phase = s.phase := rfl
@[simp] theorem setAddr_done (v : Word) (s : State) : (setAddr v s).done = s.done := rfl
@[simp] theorem setAddr_txBuf (v : Word) (s : State) : (setAddr v s).txBuf = s.txBuf := rfl
@[simp] theorem setAddr_txLen (v : Word) (s : State) : (setAddr v s).txLen = s.txLen := rfl
@[simp] theorem setAddr_rxBuf (v : Word) (s : State) : (setAddr v s).rxBuf = s.rxBuf := rfl
@[simp] theorem setAddr_rxLen (v : Word) (s : State) : (setAddr v s).rxLen = s.rxLen := rfl
@[simp] theorem setAddr_rxOvf (v : Word) (s : State) : (setAddr v s).rxOvf = s.rxOvf := rfl
@[simp] theorem setAddr_tCfg (v : Word) (s : State) : (setAddr v s).tCfg = s.tCfg := rfl
@[simp] theorem setAddr_ibt (v : Word) (s : State) : (setAddr v s).ibt = s.ibt := rfl
@[simp] theorem setAddr_res (v : Word) (s : State) : (setAddr v s).res = s.res := rfl
@[simp] theorem setAddr_rbuf (v : Word) (s : State) : (setAddr v s).rbuf = s.rbuf := rfl
@[simp] theorem setAddr_line (v : Word) (s : State) : (setAddr v s).line = s.line := rfl
@[simp] theorem setAddr_inputs (v : Word) (s : State) : (setAddr v s).inputs = s.inputs := rfl
@[simp] theorem setAddr_endless (v : Word) (s : State) : (setAddr v s).endless = s.endless := rfl
@[simp] theorem setAddr_out (v : Word) (s : State) : (setAddr v s).out = s.out := rfl
@[simp] theorem setAddr_resets (v : Word) (s : State) : (setAddr v s).resets = s.resets := rfl
@[simp] theorem setAddr_draws (v : Word) (s : State) : (setAddr v s).draws = s.draws := rfl

/-! ### setCount -/

@[simp] theorem setCount_cfg (v : Word) (s : State) : (setCount v s).cfg = s.cfg := rfl
@[simp] theorem setCount_sendStage (v : Word) (s : State) : (setCount v s).sendStage = s.sendStage := rfl
@[simp] theorem setCount_reading (v : Word) (s : State) : (setCount v s).reading = s.reading := rfl
@[simp] theorem setCount_cmd (v : Word) (s : State) : (setCount v s).cmd = { s.cmd with count := v } := rfl
@[simp] theorem setCount_written (v : Word) (s : State) : (setCount v s).written
    = { s.written with count := true } := rfl
@[simp] theorem setCount_vbuf (v : Word) (s : State) : (setCount v s).vbuf = s.vbuf := rfl
@[simp] theorem setCount_req (v : Word) (s : State) : (setCount v s).req = s.req := rfl
@[simp] theorem setCount_crc (v : Word) (s : State) : (setCount v s).crc = s.crc := rfl
@[simp] theorem setCount_crcOwned (v : Word) (s : State) : (setCount v s).crcOwned = s.crcOwned := rfl
@[simp] theorem setCount_phase (v : Word) (s : State) : (setCount v s).phase = s.phase := rfl
@[simp] theorem setCount_done (v : Word) (s : State) : (setCount v s).done = s.done := rfl
@[simp] theorem setCount_txBuf (v : Word) (s : State) : (setCount v s).txBuf = s.txBuf := rfl
@[simp] theorem setCount_txLen (v : Word) (s : State) : (setCount v s).txLen = s.txLen := rfl
@[simp] theorem setCount_rxBuf (v : Word) (s : State) : (setCount v s).rxBuf = s.rxBuf := rfl
@[simp] theorem setCount_rxLen (v : Word) (s : State) : (setCount v s).rxLen = s.rxLen := rfl
@[simp] theorem setCount_rxOvf (v : Word) (s : State) : (setCount v s).rxOvf = s.rxOvf := rfl
@[simp] theorem setCount_tCfg (v : Word) (s : State) : (setCount v s).tCfg = s.tCfg := rfl
@[simp] theorem setCount_ibt (v : Word) (s : State) : (setCount v s).ibt = s.ibt := rfl
@[simp] theorem setCount_res (v : Word) (s : State) : (setCount v s).res = s.res := rfl
@[simp] theorem setCount_rbuf (v : Word) (s : State) : (setCount v s).rbuf = s.rbuf := rfl
@[simp] theorem setCount_line (v : Word) (s : State) : (setCount v s).line = s.line := rfl
@[simp] theorem setCount_inputs (v : Word) (s : State) : (setCount v s).inputs = s.inputs := rfl
@[simp] theorem setCount_endless (v : Word) (s : State) : (setCount v s).endless = s.endless := rfl
@[simp] theorem setCount_out (v : Word) (s : State) : (setCount v s).out = s.out := rfl
@[simp] theorem setCount_resets (v : Word) (s : State) : (setCount v s).resets = s.resets := rfl
@[simp] theorem setCount_draws (v : Word) (s : State) : (setCount v s).draws = s.draws := rfl

/-! ### setValue -/

@[simp] theorem setValue_cfg (v : Word) (s : State) : (setValue v s).cfg = s.cfg := rfl
@[simp] theorem setValue_sendStage (v : Word) (s : State) : (setValue v s).sendStage = s.sendStage := rfl
@[simp] theorem setValue_reading (v : Word) (s : State) : (setValue v s).reading = s.reading := rfl
@[simp] theorem setValue_cmd (v : Word) (s : State) : (setValue v s).cmd = { s.cmd with value := v } := rfl
@[simp] theorem setValue_written (v : Word) (s : State) : (setValue v s).written
    = { s.written with value := true } := rfl
@[simp] theorem setValue_vbuf (v : Word) (s : State) : (setValue v s).vbuf = s.vbuf := rfl
@[simp] theorem setValue_req (v : Word) (s : State) : (setValue v s).req = s.req := rfl
@[simp] theorem setValue_crc (v : Word) (s : State) : (setValue v s).crc = s.crc := rfl
@[simp] theorem setValue_crcOwned (v : Word) (s : State) : (setValue v s).crcOwned = s.crcOwned := rfl
@[simp] theorem setValue_phase (v : Word) (s : State) : (setValue v s).phase = s.phase := rfl
@[simp] theorem setValue_done (v : Word) (s : State) : (setValue v s).done = s.done := rfl
@[simp] theorem setValue_txBuf (v : Word) (s : State) : (setValue v s).txBuf = s.txBuf := rfl
@[simp] theorem setValue_txLen (v : Word) (s : State) : (setValue v s).txLen = s.txLen := rfl
@[simp] theorem setValue_rxBuf (v : Word) (s : State) : (setValue v s).rxBuf = s.rxBuf := rfl
@[simp] theorem setValue_rxLen (v : Word) (s : State) : (setValue v s).rxLen = s.rxLen := rfl
@[simp] theorem setValue_rxOvf (v : Word) (s : State) : (setValue v s).rxOvf = s.rxOvf := rfl
@[simp] theorem setValue_tCfg (v : Word) (s : State) : (setValue v s).tCfg = s.tCfg := rfl
@[simp] theorem setValue_ibt (v : Word) (s : State) : (setValue v s).ibt = s.ibt := rfl
@[simp] theorem setValue_res (v : Word) (s : State) : (setValue v s).res = s.res := rfl
@[simp] theorem setValue_rbuf (v : Word) (s : State) : (setValue v s).rbuf = s.rbuf := rfl
@[simp] theorem setValue_line (v : Word) (s : State) : (setValue v s).line = s.line := rfl
@[simp] theorem setValue_inputs (v : Word) (s : State) : (setValue v s).inputs = s.inputs := rfl
@[simp] theorem setValue_endless (v : Word) (s : State) : (setValue v s).endless = s.endless := rfl
@[simp] theorem setValue_out (v : Word) (s : State) : (setValue v s).out = s.out := rfl
@[simp] theorem setValue_resets (v : Word) (s : State) : (setValue v s).resets = s.resets := rfl
@[simp] theorem setValue_draws (v : Word) (s : State) : (setValue v s).draws = s.draws := rfl

/-! ### setVbuf -/

@[simp] theorem setVbuf_cfg (i : Nat) (v : Word) (s : State) : (setVbuf i v s).cfg = s.cfg := rfl
@[simp] theorem setVbuf_sendStage (i : Nat) (v : Word) (s : State) : (setVbuf i v s).sendStage = s.sendStage := rfl
@[simp] theorem setVbuf_reading (i : Nat) (v : Word) (s : State) : (setVbuf i v s).reading = s.reading := rfl
@[simp] theorem setVbuf_cmd (i : Nat) (v : Word) (s : State) : (setVbuf i v s).cmd = s.cmd := rfl
@[simp] theorem setVbuf_written (i : Nat) (v : Word) (s : State) : (setVbuf i v s).written = s.written := rfl
@[simp] theorem setVbuf_vbuf (i : Nat) (v : Word) (s : State) : (setVbuf i v s).vbuf = memSet s.vbuf i v := rfl
@[simp] theorem setVbuf_req (i : Nat) (v : Word) (s : State) : (setVbuf i v s).req = s.req := rfl
@[simp] theorem setVbuf_crc (i : Nat) (v : Word) (s : State) : (setVbuf i v s).crc = s.crc := rfl
@[simp] theorem setVbuf_crcOwned (i : Nat) (v : Word) (s : State) : (setVbuf i v s).crcOwned = s.crcOwned := rfl
@[simp] theorem setVbuf_phase (i : Nat) (v : Word) (s : State) : (setVbuf i v s).phase = s.phase := rfl
@[simp] theorem setVbuf_done (i : Nat) (v : Word) (s : State) : (setVbuf i v s).done = s.done := rfl
@[simp] theorem setVbuf_txBuf (i : Nat) (v : Word) (s : State) : (setVbuf i v s).txBuf = s.txBuf := rfl
@[simp] theorem setVbuf_txLen (i : Nat) (v : Word) (s : State) : (setVbuf i v s).txLen = s.txLen := rfl
@[simp] theorem setVbuf_rxBuf (i : Nat) (v : Word) (s : State) : (setVbuf i v s).rxBuf = s.rxBuf := rfl
@[simp] theorem setVbuf_rxLen (i : Nat) (v : Word) (s : State) : (setVbuf i v s).rxLen = s.rxLen := rfl
@[simp] theorem setVbuf_rxOvf (i : Nat) (v : Word) (s : State) : (setVbuf i v s).rxOvf = s.rxOvf := rfl
@[simp] theorem setVbuf_tCfg (i : Nat) (v : Word) (s : State) : (setVbuf i v s).tCfg = s.tCfg := rfl
@[simp] theorem setVbuf_ibt (i : Nat) (v : Word) (s : State) : (setVbuf i v s).ibt = s.ibt := rfl
@[simp] theorem setVbuf_res (i : Nat) (v : Word) (s : State) : (setVbuf i v s).res = s.res := rfl
@[simp] theorem setVbuf_rbuf (i : Nat) (v : Word) (s : State) : (setVbuf i v s).rbuf = s.rbuf := rfl
@[simp] theorem setVbuf_line (i : Nat) (v : Word) (s : State) : (setVbuf i v s).line = s.line := rfl
@[simp] theorem setVbuf_inputs (i : Nat) (v : Word) (s : State) : (setVbuf i v s).inputs = s.inputs := rfl
@[simp] theorem setVbuf_endless (i : Nat) (v : Word) (s : State) : (setVbuf i v s).endless = s.endless := rfl
@[simp] theorem setVbuf_out (i : Nat) (v : Word) (s : State) : (setVbuf i v s).out = s.out := rfl
@[simp] theorem setVbuf_resets (i : Nat) (v : Word) (s : State) : (setVbuf i v s).resets = s.resets := rfl
@[simp] theorem setVbuf_draws (i : Nat) (v : Word) (s : State) : (setVbuf i v s).draws = s.draws := rfl

/-! ### loadVbuf -/

@[simp] theorem loadVbuf_cfg (vs : List Word) (s : State) : (loadVbuf vs s).cfg = s.cfg := rfl
@[simp] theorem loadVbuf_sendStage (vs : List Word) (s : State) : (loadVbuf vs s).sendStage = s.sendStage := rfl
@[simp] theorem loadVbuf_reading (vs : List Word) (s : State) : (loadVbuf vs s).reading = s.reading := rfl
@[simp] theorem loadVbuf_cmd (vs : List Word) (s : State) : (loadVbuf vs s).cmd = s.cmd := rfl
@[simp] theorem loadVbuf_written (vs : List Word) (s : State) : (loadVbuf vs s).written = s.written := rfl
@[simp] theorem loadVbuf_vbuf (vs : List Word) (s : State) : (loadVbuf vs s).vbuf
    = memWrite s.vbuf 0 (vs.take Config.vCap) := rfl
@[simp] theorem loadVbuf_req (vs : List Word) (s : State) : (loadVbuf vs s).req = s.req := rfl
@[simp] theorem loadVbuf_crc (vs : List Word) (s : State) : (loadVbuf vs s).crc = s.crc := rfl
@[simp] theorem loadVbuf_crcOwned (vs : List Word) (s : State) : (loadVbuf vs s).crcOwned = s.crcOwned := rfl
@[simp] theorem loadVbuf_phase (vs : List Word) (s : State) : (loadVbuf vs s).phase = s.phase := rfl
@[simp] theorem loadVbuf_done (vs : List Word) (s : State) : (loadVbuf vs s).done = s.done := rfl
@[simp] theorem loadVbuf_txBuf (vs : List Word) (s : State) : (loadVbuf vs s).txBuf = s.txBuf := rfl
@[simp] theorem loadVbuf_txLen (vs : List Word) (s : State) : (loadVbuf vs s).txLen = s.txLen := rfl
@[simp] theorem loadVbuf_rxBuf (vs : List Word) (s : State) : (loadVbuf vs s).rxBuf = s.rxBuf := rfl
@[simp] theorem loadVbuf_rxLen (vs : List Word) (s : State) : (loadVbuf vs s).rxLen = s.rxLen := rfl
@[simp] theorem loadVbuf_rxOvf (vs : List Word) (s : State) : (loadVbuf vs s).rxOvf = s.rxOvf := rfl
@[simp] theorem loadVbuf_tCfg (vs : List Word) (s : State) : (loadVbuf vs s).tCfg = s.tCfg := rfl
@[simp] theorem loadVbuf_ibt (vs : List Word) (s : State) : (loadVbuf vs s).ibt = s.ibt := rfl
@[simp] theorem loadVbuf_res (vs : List Word) (s : State) : (loadVbuf vs s).res = s.res := rfl
@[simp] theorem loadVbuf_rbuf (vs : List Word) (s : State) : (loadVbuf vs s).rbuf = s.rbuf := rfl
@[simp] theorem loadVbuf_line (vs : List Word) (s : State) : (loadVbuf vs s).line = s.line := rfl
@[simp] theorem loadVbuf_inputs (vs : List Word) (s : State) : (loadVbuf vs s).inputs = s.inputs := rfl
@[simp] theorem loadVbuf_endless (vs : List Word) (s : State) : (loadVbuf vs s).endless = s.endless := rfl
@[simp] theorem loadVbuf_out (vs : List Word) (s : State) : (loadVbuf vs s).out = s.out := rfl
@[simp] theorem loadVbuf_resets (vs : List Word) (s : State) : (loadVbuf vs s).resets = s.resets := rfl
@[simp] theorem loadVbuf_draws (vs : List Word) (s : State) : (loadVbuf vs s).draws = s.draws := rfl

/-! ### seedCrc -/

@[simp] theorem seedCrc_cfg (s : State) : (seedCrc s).cfg = s.cfg := rfl
@[simp] theorem seedCrc_sendStage (s : State) : (seedCrc s).sendStage = s.sendStage := rfl
@[simp] theorem seedCrc_reading (s : State) : (seedCrc s).reading = s.reading := rfl
@[simp] theorem seedCrc_cmd (s : State) : (seedCrc s).cmd = s.cmd := rfl
@[simp] theorem seedCrc_written (s : State) : (seedCrc s).written = s.written := rfl
@[simp] theorem seedCrc_vbuf (s : State) : (seedCrc s).vbuf = s.vbuf := rfl
@[simp] theorem seedCrc_req (s : State) : (seedCrc s).req = s.req := rfl
@[simp] theorem seedCrc_crc (s : State) : (seedCrc s).crc = crcSeedValue := rfl
@[simp] theorem seedCrc_crcOwned (s : State) : (seedCrc s).crcOwned = true := rfl
@[simp] theorem seedCrc_phase (s : State) : (seedCrc s).phase = s.phase := rfl
@[simp] theorem seedCrc_done (s : State) : (seedCrc s).done = s.done := rfl
@[simp] theorem seedCrc_txBuf (s : State) : (seedCrc s).txBuf = s.txBuf := rfl
@[simp] theorem seedCrc_txLen (s : State) : (seedCrc s).txLen = s.txLen := rfl
@[simp] theorem seedCrc_rxBuf (s : State) : (seedCrc s).rxBuf = s.rxBuf := rfl
@[simp] theorem seedCrc_rxLen (s : State) : (seedCrc s).rxLen = s.rxLen := rfl
@[simp] theorem seedCrc_rxOvf (s : State) : (seedCrc s).rxOvf = s.rxOvf := rfl
@[simp] theorem seedCrc_tCfg (s : State) : (seedCrc s).tCfg = s.tCfg := rfl
@[simp] theorem seedCrc_ibt (s : State) : (seedCrc s).ibt = s.ibt := rfl
@[simp] theorem seedCrc_res (s : State) : (seedCrc s).res = s.res := rfl
@[simp] theorem seedCrc_rbuf (s : State) : (seedCrc s).rbuf = s.rbuf := rfl
@[simp] theorem seedCrc_line (s : State) : (seedCrc s).line = s.line := rfl
@[simp] theorem seedCrc_inputs (s : State) : (seedCrc s).inputs = s.inputs := rfl
@[simp] theorem seedCrc_endless (s : State) : (seedCrc s).endless = s.endless := rfl
@[simp] theorem seedCrc_out (s : State) : (seedCrc s).out = s.out := rfl
@[simp] theorem seedCrc_resets (s : State) : (seedCrc s).resets = s.resets := rfl
@[simp] theorem seedCrc_draws (s : State) : (seedCrc s).draws = s.draws := rfl

/-! ### feedCrc -/

@[simp] theorem feedCrc_cfg (b : Byte) (s : State) : (feedCrc b s).cfg = s.cfg := rfl
@[simp] theorem feedCrc_sendStage (b : Byte) (s : State) : (feedCrc b s).sendStage = s.sendStage := rfl
@[simp] theorem feedCrc_reading (b : Byte) (s : State) : (feedCrc b s).reading = s.reading := rfl
@[simp] theorem feedCrc_cmd (b : Byte) (s : State) : (feedCrc b s).cmd = s.cmd := rfl
@[simp] theorem feedCrc_written (b : Byte) (s : State) : (feedCrc b s).written = s.written := rfl
@[simp] theorem feedCrc_vbuf (b : Byte) (s : State) : (feedCrc b s).vbuf = s.vbuf := rfl
@[simp] theorem feedCrc_req (b : Byte) (s : State) : (feedCrc b s).req = s.req := rfl
@[simp] theorem feedCrc_crc (b : Byte) (s : State) : (feedCrc b s).crc = crcUpdate (hostCrc s) b := rfl
@[simp] theorem feedCrc_crcOwned (b : Byte) (s : State) : (feedCrc b s).crcOwned = true := rfl
@[simp] theorem feedCrc_phase (b : Byte) (s : State) : (feedCrc b s).phase = s.phase := rfl
@[simp] theorem feedCrc_done (b : Byte) (s : State) : (feedCrc b s).done = s.done := rfl
@[simp] theorem feedCrc_txBuf (b : Byte) (s : State) : (feedCrc b s).txBuf = s.txBuf := rfl
@[simp] theorem feedCrc_txLen (b : Byte) (s : State) : (feedCrc b s).txLen = s.txLen := rfl
@[simp] theorem feedCrc_rxBuf (b : Byte) (s : State) : (feedCrc b s).rxBuf = s.rxBuf := rfl
@[simp] theorem feedCrc_rxLen (b : Byte) (s : State) : (feedCrc b s).rxLen = s.rxLen := rfl
@[simp] theorem feedCrc_rxOvf (b : Byte) (s : State) : (feedCrc b s).rxOvf = s.rxOvf := rfl
@[simp] theorem feedCrc_tCfg (b : Byte) (s : State) : (feedCrc b s).tCfg = s.tCfg := rfl
@[simp] theorem feedCrc_ibt (b : Byte) (s : State) : (feedCrc b s).ibt = s.ibt := rfl
@[simp] theorem feedCrc_res (b : Byte) (s : State) : (feedCrc b s).res = s.res := rfl
@[simp] theorem feedCrc_rbuf (b : Byte) (s : State) : (feedCrc b s).rbuf = s.rbuf := rfl
@[simp] theorem feedCrc_line (b : Byte) (s : State) : (feedCrc b s).line = s.line := rfl
@[simp] theorem feedCrc_inputs (b : Byte) (s : State) : (feedCrc b s).inputs = s.inputs := rfl
@[simp] theorem feedCrc_endless (b : Byte) (s : State) : (feedCrc b s).endless = s.endless := rfl
@[simp] theorem feedCrc_out (b : Byte) (s : State) : (feedCrc b s).out = s.out := rfl
@[simp] theorem feedCrc_resets (b : Byte) (s : State) : (feedCrc b s).resets = s.resets := rfl
@[simp] theorem feedCrc_draws (b : Byte) (s : State) : (feedCrc b s).draws = s.draws := rfl

/-! ### finish -/

@[simp] theorem finish_cfg (r : Result) (s : State) : (finish r s).cfg = s.cfg := rfl
@[simp] theorem finish_sendStage (r : Result) (s : State) : (finish r s).sendStage = s.sendStage := rfl
@[simp] theorem finish_reading (r : Result) (s : State) : (finish r s).reading = s.reading := rfl
@[simp] theorem finish_cmd (r : Result) (s : State) : (finish r s).cmd = s.cmd := rfl
@[simp] theorem finish_written (r : Result) (s : State) : (finish r s).written = s.written := rfl
@[simp] theorem finish_vbuf (r : Result) (s : State) : (finish r s).vbuf = s.vbuf := rfl
@[simp] theorem finish_req (r : Result) (s : State) : (finish r s).req = s.req := rfl
@[simp] theorem finish_crc (r : Result) (s : State) : (finish r s).crc = s.crc := rfl
@[simp] theorem finish_crcOwned (r : Result) (s : State) : (finish r s).crcOwned = s.crcOwned := rfl
@[simp] theorem finish_phase (r : Result) (s : State) : (finish r s).phase = .idle := rfl
@[simp] theorem finish_done (r : Result) (s : State) : (finish r s).done = true := rfl
@[simp] theorem finish_txBuf (r : Result) (s : State) : (finish r s).txBuf = s.txBuf := rfl
@[simp] theorem finish_txLen (r : Result) (s : State) : (finish r s).txLen = s.txLen := rfl
@[simp] theorem finish_rxBuf (r : Result) (s : State) : (finish r s).rxBuf = s.rxBuf := rfl
@[simp] theorem finish_rxLen (r : Result) (s : State) : (finish r s).rxLen = s.rxLen := rfl
@[simp] theorem finish_rxOvf (r : Result) (s : State) : (finish r s).rxOvf = s.rxOvf := rfl
@[simp] theorem finish_tCfg (r : Result) (s : State) : (finish r s).tCfg = s.tCfg := rfl
@[simp] theorem finish_ibt (r : Result) (s : State) : (finish r s).ibt = s.ibt := rfl
@[simp] theorem finish_res (r : Result) (s : State) : (finish r s).res = resultGroup r := rfl
@[simp] theorem finish_rbuf (r : Result) (s : State) : (finish r s).rbuf = resultBuffer s.rbuf r := rfl
@[simp] theorem finish_line (r : Result) (s : State) : (finish r s).line = s.line := rfl
@[simp] theorem finish_inputs (r : Result) (s : State) : (finish r s).inputs = s.inputs := rfl
@[simp] theorem finish_endless (r : Result) (s : State) : (finish r s).endless = s.endless := rfl
@[simp] theorem finish_out (r : Result) (s : State) : (finish r s).out = s.out ++ [.ret r] := rfl
@[simp] theorem finish_resets (r : Result) (s : State) : (finish r s).resets = s.resets := rfl
@[simp] theorem finish_draws (r : Result) (s : State) : (finish r s).draws = s.draws + 1 := rfl

/-! ### discardIn -/

@[simp] theorem discardIn_cfg (s : State) : (discardIn s).cfg = s.cfg := rfl
@[simp] theorem discardIn_cmd (s : State) : (discardIn s).cmd = s.cmd := rfl
@[simp] theorem discardIn_written (s : State) : (discardIn s).written = s.written := rfl
@[simp] theorem discardIn_vbuf (s : State) : (discardIn s).vbuf = s.vbuf := rfl
@[simp] theorem discardIn_req (s : State) : (discardIn s).req = s.req := rfl
@[simp] theorem discardIn_crc (s : State) : (discardIn s).crc = s.crc := rfl
@[simp] theorem discardIn_crcOwned (s : State) : (discardIn s).crcOwned = s.crcOwned := rfl
@[simp] theorem discardIn_phase (s : State) : (discardIn s).phase = s.phase := rfl
@[simp] theorem discardIn_sendStage (s : State) : (discardIn s).sendStage = .discardOut := rfl
@[simp] theorem discardIn_reading (s : State) : (discardIn s).reading = s.reading := rfl
@[simp] theorem discardIn_done (s : State) : (discardIn s).done = s.done := rfl
@[simp] theorem discardIn_txBuf (s : State) : (discardIn s).txBuf = s.txBuf := rfl
@[simp] theorem discardIn_txLen (s : State) : (discardIn s).txLen = s.txLen := rfl
@[simp] theorem discardIn_rxBuf (s : State) : (discardIn s).rxBuf = s.rxBuf := rfl
@[simp] theorem discardIn_rxLen (s : State) : (discardIn s).rxLen = s.rxLen := rfl
@[simp] theorem discardIn_rxOvf (s : State) : (discardIn s).rxOvf = s.rxOvf := rfl
@[simp] theorem discardIn_tCfg (s : State) : (discardIn s).tCfg = s.tCfg := rfl
@[simp] theorem discardIn_ibt (s : State) : (discardIn s).ibt = s.ibt := rfl
@[simp] theorem discardIn_res (s : State) : (discardIn s).res = s.res := rfl
@[simp] theorem discardIn_rbuf (s : State) : (discardIn s).rbuf = s.rbuf := rfl
@[simp] theorem discardIn_line (s : State) : (discardIn s).line = { s.line with inBuf := [] } := rfl
@[simp] theorem discardIn_inputs (s : State) : (discardIn s).inputs = s.inputs := rfl
@[simp] theorem discardIn_endless (s : State) : (discardIn s).endless = s.endless := rfl
@[simp] theorem discardIn_out (s : State) : (discardIn s).out = s.out ++ [.discardIn] := rfl
@[simp] theorem discardIn_resets (s : State) : (discardIn s).resets = s.resets := rfl
@[simp] theorem discardIn_draws (s : State) : (discardIn s).draws = s.draws := rfl

/-! ### discardOut -/

@[simp] theorem discardOut_cfg (s : State) : (discardOut s).cfg = s.cfg := rfl
@[simp] theorem discardOut_cmd (s : State) : (discardOut s).cmd = s.cmd := rfl
@[simp] theorem discardOut_written (s : State) : (discardOut s).written = s.written := rfl
@[simp] theorem discardOut_vbuf (s : State) : (discardOut s).vbuf = s.vbuf := rfl
@[simp] theorem discardOut_req (s : State) : (discardOut s).req = s.req := rfl
@[simp] theorem discardOut_crc (s : State) : (discardOut s).crc = s.crc := rfl
@[simp] theorem discardOut_crcOwned (s : State) : (discardOut s).crcOwned = s.crcOwned := rfl
@[simp] theorem discardOut_phase (s : State) : (discardOut s).phase = s.phase := rfl
@[simp] theorem discardOut_sendStage (s : State) : (discardOut s).sendStage = .write := rfl
@[simp] theorem discardOut_reading (s : State) : (discardOut s).reading = s.reading := rfl
@[simp] theorem discardOut_done (s : State) : (discardOut s).done = s.done := rfl
@[simp] theorem discardOut_txBuf (s : State) : (discardOut s).txBuf = s.txBuf := rfl
@[simp] theorem discardOut_txLen (s : State) : (discardOut s).txLen = s.txLen := rfl
@[simp] theorem discardOut_rxBuf (s : State) : (discardOut s).rxBuf = s.rxBuf := rfl
@[simp] theorem discardOut_rxLen (s : State) : (discardOut s).rxLen = s.rxLen := rfl
@[simp] theorem discardOut_rxOvf (s : State) : (discardOut s).rxOvf = s.rxOvf := rfl
@[simp] theorem discardOut_tCfg (s : State) : (discardOut s).tCfg = s.tCfg := rfl
@[simp] theorem discardOut_ibt (s : State) : (discardOut s).ibt = s.ibt := rfl
@[simp] theorem discardOut_res (s : State) : (discardOut s).res = s.res := rfl
@[simp] theorem discardOut_rbuf (s : State) : (discardOut s).rbuf = s.rbuf := rfl
@[simp] theorem discardOut_line (s : State) : (discardOut s).line = { s.line with outBuf := [] } := rfl
@[simp] theorem discardOut_inputs (s : State) : (discardOut s).inputs = s.inputs := rfl
@[simp] theorem discardOut_endless (s : State) : (discardOut s).endless = s.endless := rfl
@[simp] theorem discardOut_out (s : State) : (discardOut s).out = s.out ++ [.discardOut] := rfl
@[simp] theorem discardOut_resets (s : State) : (discardOut s).resets = s.resets := rfl
@[simp] theorem discardOut_draws (s : State) : (discardOut s).draws = s.draws := rfl

/-! ### writeRequest -/

@[simp] theorem writeRequest_cfg (s : State) : (writeRequest s).cfg = s.cfg := rfl
@[simp] theorem writeRequest_cmd (s : State) : (writeRequest s).cmd = s.cmd := rfl
@[simp] theorem writeRequest_written (s : State) : (writeRequest s).written = s.written := rfl
@[simp] theorem writeRequest_vbuf (s : State) : (writeRequest s).vbuf = s.vbuf := rfl
@[simp] theorem writeRequest_req (s : State) : (writeRequest s).req = s.req := rfl
@[simp] theorem writeRequest_crc (s : State) : (writeRequest s).crc = s.crc := rfl
@[simp] theorem writeRequest_crcOwned (s : State) : (writeRequest s).crcOwned = s.crcOwned := rfl
@[simp] theorem writeRequest_phase (s : State) : (writeRequest s).phase = .awaitingReply := rfl
@[simp] theorem writeRequest_sendStage (s : State) : (writeRequest s).sendStage = s.sendStage := rfl
@[simp] theorem writeRequest_reading (s : State) : (writeRequest s).reading = false := rfl
@[simp] theorem writeRequest_done (s : State) : (writeRequest s).done = s.done := rfl
@[simp] theorem writeRequest_txBuf (s : State) : (writeRequest s).txBuf = s.txBuf := rfl
@[simp] theorem writeRequest_txLen (s : State) : (writeRequest s).txLen = s.txLen := rfl
@[simp] theorem writeRequest_rxBuf (s : State) : (writeRequest s).rxBuf = s.rxBuf := rfl
@[simp] theorem writeRequest_rxLen (s : State) : (writeRequest s).rxLen = 0 := rfl
@[simp] theorem writeRequest_rxOvf (s : State) : (writeRequest s).rxOvf = false := rfl
@[simp] theorem writeRequest_tCfg (s : State) : (writeRequest s).tCfg = s.tCfg := rfl
@[simp] theorem writeRequest_ibt (s : State) : (writeRequest s).ibt = s.ibt := rfl
@[simp] theorem writeRequest_res (s : State) : (writeRequest s).res = s.res := rfl
@[simp] theorem writeRequest_rbuf (s : State) : (writeRequest s).rbuf = s.rbuf := rfl
@[simp] theorem writeRequest_line (s : State) : (writeRequest s).line
    = { s.line with outBuf := s.line.outBuf ++ requestFrame s } := rfl
@[simp] theorem writeRequest_inputs (s : State) : (writeRequest s).inputs = s.inputs := rfl
@[simp] theorem writeRequest_endless (s : State) : (writeRequest s).endless = s.endless := rfl
@[simp] theorem writeRequest_out (s : State) : (writeRequest s).out = s.out ++ [.write (requestFrame s)] := rfl
@[simp] theorem writeRequest_resets (s : State) : (writeRequest s).resets = s.resets := rfl
@[simp] theorem writeRequest_draws (s : State) : (writeRequest s).draws = s.draws := rfl

/-! ### issueRead -/

@[simp] theorem issueRead_cfg (s : State) : (issueRead s).cfg = s.cfg := rfl
@[simp] theorem issueRead_cmd (s : State) : (issueRead s).cmd = s.cmd := rfl
@[simp] theorem issueRead_written (s : State) : (issueRead s).written = s.written := rfl
@[simp] theorem issueRead_vbuf (s : State) : (issueRead s).vbuf = s.vbuf := rfl
@[simp] theorem issueRead_req (s : State) : (issueRead s).req = s.req := rfl
@[simp] theorem issueRead_crc (s : State) : (issueRead s).crc = s.crc := rfl
@[simp] theorem issueRead_crcOwned (s : State) : (issueRead s).crcOwned = s.crcOwned := rfl
@[simp] theorem issueRead_phase (s : State) : (issueRead s).phase = s.phase := rfl
@[simp] theorem issueRead_sendStage (s : State) : (issueRead s).sendStage = s.sendStage := rfl
@[simp] theorem issueRead_reading (s : State) : (issueRead s).reading = true := rfl
@[simp] theorem issueRead_done (s : State) : (issueRead s).done = s.done := rfl
@[simp] theorem issueRead_txBuf (s : State) : (issueRead s).txBuf = s.txBuf := rfl
@[simp] theorem issueRead_txLen (s : State) : (issueRead s).txLen = s.txLen := rfl
@[simp] theorem issueRead_rxBuf (s : State) : (issueRead s).rxBuf = s.rxBuf := rfl
@[simp] theorem issueRead_rxLen (s : State) : (issueRead s).rxLen = s.rxLen := rfl
@[simp] theorem issueRead_rxOvf (s : State) : (issueRead s).rxOvf = s.rxOvf := rfl
@[simp] theorem issueRead_tCfg (s : State) : (issueRead s).tCfg = s.tCfg := rfl
@[simp] theorem issueRead_ibt (s : State) : (issueRead s).ibt = s.tCfg := rfl
@[simp] theorem issueRead_res (s : State) : (issueRead s).res = s.res := rfl
@[simp] theorem issueRead_rbuf (s : State) : (issueRead s).rbuf = s.rbuf := rfl
@[simp] theorem issueRead_line (s : State) : (issueRead s).line = s.line := rfl
@[simp] theorem issueRead_inputs (s : State) : (issueRead s).inputs = s.inputs := rfl
@[simp] theorem issueRead_endless (s : State) : (issueRead s).endless = s.endless := rfl
@[simp] theorem issueRead_out (s : State) : (issueRead s).out = s.out ++ [.readReq] := rfl
@[simp] theorem issueRead_resets (s : State) : (issueRead s).resets = s.resets := rfl
@[simp] theorem issueRead_draws (s : State) : (issueRead s).draws = s.draws := rfl

/-! ### sendRequest -/

@[simp] theorem sendRequest_cfg (s : State) : (sendRequest s).cfg = s.cfg := rfl
@[simp] theorem sendRequest_sendStage (s : State) : (sendRequest s).sendStage = .write := rfl
@[simp] theorem sendRequest_reading (s : State) : (sendRequest s).reading = true := rfl
@[simp] theorem sendRequest_cmd (s : State) : (sendRequest s).cmd = s.cmd := rfl
@[simp] theorem sendRequest_written (s : State) : (sendRequest s).written = s.written := rfl
@[simp] theorem sendRequest_vbuf (s : State) : (sendRequest s).vbuf = s.vbuf := rfl
@[simp] theorem sendRequest_req (s : State) : (sendRequest s).req = s.req := rfl
@[simp] theorem sendRequest_crc (s : State) : (sendRequest s).crc = s.crc := rfl
@[simp] theorem sendRequest_crcOwned (s : State) : (sendRequest s).crcOwned = s.crcOwned := rfl
@[simp] theorem sendRequest_phase (s : State) : (sendRequest s).phase = .awaitingReply := rfl
@[simp] theorem sendRequest_done (s : State) : (sendRequest s).done = s.done := rfl
@[simp] theorem sendRequest_txBuf (s : State) : (sendRequest s).txBuf = s.txBuf := rfl
@[simp] theorem sendRequest_txLen (s : State) : (sendRequest s).txLen = s.txLen := rfl
@[simp] theorem sendRequest_rxBuf (s : State) : (sendRequest s).rxBuf = s.rxBuf := rfl
@[simp] theorem sendRequest_rxLen (s : State) : (sendRequest s).rxLen = 0 := rfl
@[simp] theorem sendRequest_rxOvf (s : State) : (sendRequest s).rxOvf = false := rfl
@[simp] theorem sendRequest_tCfg (s : State) : (sendRequest s).tCfg = s.tCfg := rfl
@[simp] theorem sendRequest_ibt (s : State) : (sendRequest s).ibt = s.tCfg := rfl
@[simp] theorem sendRequest_res (s : State) : (sendRequest s).res = s.res := rfl
@[simp] theorem sendRequest_rbuf (s : State) : (sendRequest s).rbuf = s.rbuf := rfl
@[simp] theorem sendRequest_line (s : State) : (sendRequest s).line = { inBuf := [], outBuf := requestFrame s } := rfl
@[simp] theorem sendRequest_inputs (s : State) : (sendRequest s).inputs = s.inputs := rfl
@[simp] theorem sendRequest_endless (s : State) : (sendRequest s).endless = s.endless := rfl
@[simp] theorem sendRequest_out (s : State) : (sendRequest s).out
    = s.out ++ [.discardIn, .discardOut, .write (requestFrame s), .readReq] := by
  simp only [sendRequest, issueRead_out, writeRequest_out, discardOut_out, discardIn_out, List.append_assoc]
  rfl
@[simp] theorem sendRequest_resets (s : State) : (sendRequest s).resets = s.resets := rfl
@[simp] theorem sendRequest_draws (s : State) : (sendRequest s).draws = s.draws := rfl

/-! ### receiveByte -/

@[simp] theorem receiveByte_cfg (b : Byte) (s : State) : (receiveByte b s).cfg = s.cfg := rfl
@[simp] theorem receiveByte_sendStage (b : Byte) (s : State) : (receiveByte b s).sendStage = s.sendStage := rfl
@[simp] theorem receiveByte_reading (b : Byte) (s : State) : (receiveByte b s).reading = false := rfl
@[simp] theorem receiveByte_cmd (b : Byte) (s : State) : (receiveByte b s).cmd = s.cmd := rfl
@[simp] theorem receiveByte_written (b : Byte) (s : State) : (receiveByte b s).written = s.written := rfl
@[simp] theorem receiveByte_vbuf (b : Byte) (s : State) : (receiveByte b s).vbuf = s.vbuf := rfl
@[simp] theorem receiveByte_req (b : Byte) (s : State) : (receiveByte b s).req = s.req := rfl
@[simp] theorem receiveByte_crc (b : Byte) (s : State) : (receiveByte b s).crc = s.crc := rfl
@[simp] theorem receiveByte_crcOwned (b : Byte) (s : State) : (receiveByte b s).crcOwned = s.crcOwned := rfl
@[simp] theorem receiveByte_phase (b : Byte) (s : State) : (receiveByte b s).phase = s.phase := rfl
@[simp] theorem receiveByte_done (b : Byte) (s : State) : (receiveByte b s).done = s.done := rfl
@[simp] theorem receiveByte_txBuf (b : Byte) (s : State) : (receiveByte b s).txBuf = s.txBuf := rfl
@[simp] theorem receiveByte_txLen (b : Byte) (s : State) : (receiveByte b s).txLen = s.txLen := rfl
@[simp] theorem receiveByte_rxBuf (b : Byte) (s : State) : (receiveByte b s).rxBuf
    = if hasRoom s then memSet s.rxBuf s.rxLen b else s.rxBuf := rfl
@[simp] theorem receiveByte_rxLen (b : Byte) (s : State) : (receiveByte b s).rxLen = s.rxLen + 1 := rfl
@[simp] theorem receiveByte_rxOvf (b : Byte) (s : State) : (receiveByte b s).rxOvf
    = if hasRoom s then s.rxOvf else true := rfl
@[simp] theorem receiveByte_tCfg (b : Byte) (s : State) : (receiveByte b s).tCfg = s.tCfg := rfl
@[simp] theorem receiveByte_ibt (b : Byte) (s : State) : (receiveByte b s).ibt = s.ibt := rfl
@[simp] theorem receiveByte_res (b : Byte) (s : State) : (receiveByte b s).res = s.res := rfl
@[simp] theorem receiveByte_rbuf (b : Byte) (s : State) : (receiveByte b s).rbuf = s.rbuf := rfl
@[simp] theorem receiveByte_line (b : Byte) (s : State) : (receiveByte b s).line = s.line := rfl
@[simp] theorem receiveByte_inputs (b : Byte) (s : State) : (receiveByte b s).inputs = s.inputs := rfl
@[simp] theorem receiveByte_endless (b : Byte) (s : State) : (receiveByte b s).endless = s.endless := rfl
@[simp] theorem receiveByte_out (b : Byte) (s : State) : (receiveByte b s).out = s.out := rfl
@[simp] theorem receiveByte_resets (b : Byte) (s : State) : (receiveByte b s).resets = s.resets := rfl
@[simp] theorem receiveByte_draws (b : Byte) (s : State) : (receiveByte b s).draws = s.draws := rfl

/-! ### lineSent -/

@[simp] theorem lineSent_cfg (s : State) : (lineSent s).cfg = s.cfg := rfl
@[simp] theorem lineSent_sendStage (s : State) : (lineSent s).sendStage = s.sendStage := rfl
@[simp] theorem lineSent_reading (s : State) : (lineSent s).reading = s.reading := rfl
@[simp] theorem lineSent_cmd (s : State) : (lineSent s).cmd = s.cmd := rfl
@[simp] theorem lineSent_written (s : State) : (lineSent s).written = s.written := rfl
@[simp] theorem lineSent_vbuf (s : State) : (lineSent s).vbuf = s.vbuf := rfl
@[simp] theorem lineSent_req (s : State) : (lineSent s).req = s.req := rfl
@[simp] theorem lineSent_crc (s : State) : (lineSent s).crc = s.crc := rfl
@[simp] theorem lineSent_crcOwned (s : State) : (lineSent s).crcOwned = s.crcOwned := rfl
@[simp] theorem lineSent_phase (s : State) : (lineSent s).phase = s.phase := rfl
@[simp] theorem lineSent_done (s : State) : (lineSent s).done = s.done := rfl
@[simp] theorem lineSent_txBuf (s : State) : (lineSent s).txBuf = s.txBuf := rfl
@[simp] theorem lineSent_txLen (s : State) : (lineSent s).txLen = s.txLen := rfl
@[simp] theorem lineSent_rxBuf (s : State) : (lineSent s).rxBuf = s.rxBuf := rfl
@[simp] theorem lineSent_rxLen (s : State) : (lineSent s).rxLen = s.rxLen := rfl
@[simp] theorem lineSent_rxOvf (s : State) : (lineSent s).rxOvf = s.rxOvf := rfl
@[simp] theorem lineSent_tCfg (s : State) : (lineSent s).tCfg = s.tCfg := rfl
@[simp] theorem lineSent_ibt (s : State) : (lineSent s).ibt = s.ibt := rfl
@[simp] theorem lineSent_res (s : State) : (lineSent s).res = s.res := rfl
@[simp] theorem lineSent_rbuf (s : State) : (lineSent s).rbuf = s.rbuf := rfl
@[simp] theorem lineSent_line (s : State) : (lineSent s).line = { s.line with outBuf := s.line.outBuf.tail } := rfl
@[simp] theorem lineSent_inputs (s : State) : (lineSent s).inputs = s.inputs := rfl
@[simp] theorem lineSent_endless (s : State) : (lineSent s).endless = s.endless := rfl
@[simp] theorem lineSent_out (s : State) : (lineSent s).out = s.out := rfl
@[simp] theorem lineSent_resets (s : State) : (lineSent s).resets = s.resets := rfl
@[simp] theorem lineSent_draws (s : State) : (lineSent s).draws = s.draws := rfl

/-! ### resetBlock -/

@[simp] theorem resetBlock_cfg (s : State) : (resetBlock s).cfg = s.cfg := rfl
@[simp] theorem resetBlock_sendStage (s : State) : (resetBlock s).sendStage = .discardIn := rfl
@[simp] theorem resetBlock_reading (s : State) : (resetBlock s).reading = false := rfl
@[simp] theorem resetBlock_cmd (s : State) : (resetBlock s).cmd = (State.resetWith s.cfg).cmd := rfl
@[simp] theorem resetBlock_written (s : State) : (resetBlock s).written = (State.resetWith s.cfg).written := rfl
@[simp] theorem resetBlock_vbuf (s : State) : (resetBlock s).vbuf = [] := rfl
@[simp] theorem resetBlock_req (s : State) : (resetBlock s).req = (State.resetWith s.cfg).req := rfl
@[simp] theorem resetBlock_crc (s : State) : (resetBlock s).crc = 0 := rfl
@[simp] theorem resetBlock_crcOwned (s : State) : (resetBlock s).crcOwned = false := rfl
@[simp] theorem resetBlock_phase (s : State) : (resetBlock s).phase = .idle := rfl
@[simp] theorem resetBlock_done (s : State) : (resetBlock s).done = false := rfl
@[simp] theorem resetBlock_txBuf (s : State) : (resetBlock s).txBuf = [] := rfl
@[simp] theorem resetBlock_txLen (s : State) : (resetBlock s).txLen = 0 := rfl
@[simp] theorem resetBlock_rxBuf (s : State) : (resetBlock s).rxBuf = [] := rfl
@[simp] theorem resetBlock_rxLen (s : State) : (resetBlock s).rxLen = 0 := rfl
@[simp] theorem resetBlock_rxOvf (s : State) : (resetBlock s).rxOvf = false := rfl
@[simp] theorem resetBlock_tCfg (s : State) : (resetBlock s).tCfg = s.cfg.tDefault := rfl
@[simp] theorem resetBlock_ibt (s : State) : (resetBlock s).ibt = 0 := rfl
@[simp] theorem resetBlock_res (s : State) : (resetBlock s).res = ResultGroup.zero := rfl
@[simp] theorem resetBlock_rbuf (s : State) : (resetBlock s).rbuf = [] := rfl
@[simp] theorem resetBlock_line (s : State) : (resetBlock s).line = s.line := rfl
@[simp] theorem resetBlock_inputs (s : State) : (resetBlock s).inputs = s.inputs := rfl
@[simp] theorem resetBlock_endless (s : State) : (resetBlock s).endless = s.endless := rfl
@[simp] theorem resetBlock_out (s : State) : (resetBlock s).out = s.out := rfl
@[simp] theorem resetBlock_resets (s : State) : (resetBlock s).resets = s.resets + 1 := rfl
@[simp] theorem resetBlock_draws (s : State) : (resetBlock s).draws = s.draws + 1 := rfl

/-! ### answerRead -/

@[simp] theorem answerRead_cfg (reg : Word) (v : HostWord) (s : State) : (answerRead reg v s).cfg = s.cfg := rfl
@[simp] theorem answerRead_sendStage (reg : Word) (v : HostWord) (s : State) : (answerRead reg v s).sendStage = s.sendStage := rfl
@[simp] theorem answerRead_reading (reg : Word) (v : HostWord) (s : State) : (answerRead reg v s).reading = s.reading := rfl
@[simp] theorem answerRead_cmd (reg : Word) (v : HostWord) (s : State) : (answerRead reg v s).cmd = s.cmd := rfl
@[simp] theorem answerRead_written (reg : Word) (v : HostWord) (s : State) : (answerRead reg v s).written
    = s.written := rfl
@[simp] theorem answerRead_vbuf (reg : Word) (v : HostWord) (s : State) : (answerRead reg v s).vbuf = s.vbuf := rfl
@[simp] theorem answerRead_req (reg : Word) (v : HostWord) (s : State) : (answerRead reg v s).req = s.req := rfl
@[simp] theorem answerRead_crc (reg : Word) (v : HostWord) (s : State) : (answerRead reg v s).crc = s.crc := rfl
@[simp] theorem answerRead_crcOwned (reg : Word) (v : HostWord) (s : State) : (answerRead reg v s).crcOwned
    = s.crcOwned := rfl
@[simp] theorem answerRead_phase (reg : Word) (v : HostWord) (s : State) : (answerRead reg v s).phase = s.phase := rfl
@[simp] theorem answerRead_done (reg : Word) (v : HostWord) (s : State) : (answerRead reg v s).done = s.done := rfl
@[simp] theorem answerRead_txBuf (reg : Word) (v : HostWord) (s : State) : (answerRead reg v s).txBuf = s.txBuf := rfl
@[simp] theorem answerRead_txLen (reg : Word) (v : HostWord) (s : State) : (answerRead reg v s).txLen = s.txLen := rfl
@[simp] theorem answerRead_rxBuf (reg : Word) (v : HostWord) (s : State) : (answerRead reg v s).rxBuf = s.rxBuf := rfl
@[simp] theorem answerRead_rxLen (reg : Word) (v : HostWord) (s : State) : (answerRead reg v s).rxLen = s.rxLen := rfl
@[simp] theorem answerRead_rxOvf (reg : Word) (v : HostWord) (s : State) : (answerRead reg v s).rxOvf = s.rxOvf := rfl
@[simp] theorem answerRead_tCfg (reg : Word) (v : HostWord) (s : State) : (answerRead reg v s).tCfg = s.tCfg := rfl
@[simp] theorem answerRead_ibt (reg : Word) (v : HostWord) (s : State) : (answerRead reg v s).ibt = s.ibt := rfl
@[simp] theorem answerRead_res (reg : Word) (v : HostWord) (s : State) : (answerRead reg v s).res = s.res := rfl
@[simp] theorem answerRead_rbuf (reg : Word) (v : HostWord) (s : State) : (answerRead reg v s).rbuf = s.rbuf := rfl
@[simp] theorem answerRead_line (reg : Word) (v : HostWord) (s : State) : (answerRead reg v s).line = s.line := rfl
@[simp] theorem answerRead_inputs (reg : Word) (v : HostWord) (s : State) : (answerRead reg v s).inputs
    = s.inputs := rfl
@[simp] theorem answerRead_endless (reg : Word) (v : HostWord) (s : State) : (answerRead reg v s).endless = s.endless := rfl
@[simp] theorem answerRead_out (reg : Word) (v : HostWord) (s : State) : (answerRead reg v s).out
    = s.out ++ [.data reg v] := rfl
@[simp] theorem answerRead_resets (reg : Word) (v : HostWord) (s : State) : (answerRead reg v s).resets
    = s.resets := rfl
@[simp] theorem answerRead_draws (reg : Word) (v : HostWord) (s : State) : (answerRead reg v s).draws = s.draws := rfl

/-! ### withInputs -/

@[simp] theorem withInputs_cfg (xs : List Input) (s : State) : (withInputs xs s).cfg = s.cfg := rfl
@[simp] theorem withInputs_sendStage (xs : List Input) (s : State) : (withInputs xs s).sendStage = s.sendStage := rfl
@[simp] theorem withInputs_reading (xs : List Input) (s : State) : (withInputs xs s).reading = s.reading := rfl
@[simp] theorem withInputs_cmd (xs : List Input) (s : State) : (withInputs xs s).cmd = s.cmd := rfl
@[simp] theorem withInputs_written (xs : List Input) (s : State) : (withInputs xs s).written = s.written := rfl
@[simp] theorem withInputs_vbuf (xs : List Input) (s : State) : (withInputs xs s).vbuf = s.vbuf := rfl
@[simp] theorem withInputs_req (xs : List Input) (s : State) : (withInputs xs s).req = s.req := rfl
@[simp] theorem withInputs_crc (xs : List Input) (s : State) : (withInputs xs s).crc = s.crc := rfl
@[simp] theorem withInputs_crcOwned (xs : List Input) (s : State) : (withInputs xs s).crcOwned = s.crcOwned := rfl
@[simp] theorem withInputs_phase (xs : List Input) (s : State) : (withInputs xs s).phase = s.phase := rfl
@[simp] theorem withInputs_done (xs : List Input) (s : State) : (withInputs xs s).done = s.done := rfl
@[simp] theorem withInputs_txBuf (xs : List Input) (s : State) : (withInputs xs s).txBuf = s.txBuf := rfl
@[simp] theorem withInputs_txLen (xs : List Input) (s : State) : (withInputs xs s).txLen = s.txLen := rfl
@[simp] theorem withInputs_rxBuf (xs : List Input) (s : State) : (withInputs xs s).rxBuf = s.rxBuf := rfl
@[simp] theorem withInputs_rxLen (xs : List Input) (s : State) : (withInputs xs s).rxLen = s.rxLen := rfl
@[simp] theorem withInputs_rxOvf (xs : List Input) (s : State) : (withInputs xs s).rxOvf = s.rxOvf := rfl
@[simp] theorem withInputs_tCfg (xs : List Input) (s : State) : (withInputs xs s).tCfg = s.tCfg := rfl
@[simp] theorem withInputs_ibt (xs : List Input) (s : State) : (withInputs xs s).ibt = s.ibt := rfl
@[simp] theorem withInputs_res (xs : List Input) (s : State) : (withInputs xs s).res = s.res := rfl
@[simp] theorem withInputs_rbuf (xs : List Input) (s : State) : (withInputs xs s).rbuf = s.rbuf := rfl
@[simp] theorem withInputs_line (xs : List Input) (s : State) : (withInputs xs s).line = s.line := rfl
@[simp] theorem withInputs_inputs (xs : List Input) (s : State) : (withInputs xs s).inputs = xs := rfl
@[simp] theorem withInputs_endless (xs : List Input) (s : State) : (withInputs xs s).endless = s.endless := rfl
@[simp] theorem withInputs_out (xs : List Input) (s : State) : (withInputs xs s).out = s.out := rfl
@[simp] theorem withInputs_resets (xs : List Input) (s : State) : (withInputs xs s).resets = s.resets := rfl
@[simp] theorem withInputs_draws (xs : List Input) (s : State) : (withInputs xs s).draws = s.draws := rfl

/-! ### setTimer -/

@[simp] theorem setTimer_cfg (t : HostWord) (s : State) : (setTimer t s).cfg = s.cfg := rfl
@[simp] theorem setTimer_sendStage (t : HostWord) (s : State) : (setTimer t s).sendStage = s.sendStage := rfl
@[simp] theorem setTimer_reading (t : HostWord) (s : State) : (setTimer t s).reading = s.reading := rfl
@[simp] theorem setTimer_cmd (t : HostWord) (s : State) : (setTimer t s).cmd = s.cmd := rfl
@[simp] theorem setTimer_written (t : HostWord) (s : State) : (setTimer t s).written = s.written := rfl
@[simp] theorem setTimer_vbuf (t : HostWord) (s : State) : (setTimer t s).vbuf = s.vbuf := rfl
@[simp] theorem setTimer_req (t : HostWord) (s : State) : (setTimer t s).req = s.req := rfl
@[simp] theorem setTimer_crc (t : HostWord) (s : State) : (setTimer t s).crc = s.crc := rfl
@[simp] theorem setTimer_crcOwned (t : HostWord) (s : State) : (setTimer t s).crcOwned = s.crcOwned := rfl
@[simp] theorem setTimer_phase (t : HostWord) (s : State) : (setTimer t s).phase = s.phase := rfl
@[simp] theorem setTimer_done (t : HostWord) (s : State) : (setTimer t s).done = s.done := rfl
@[simp] theorem setTimer_txBuf (t : HostWord) (s : State) : (setTimer t s).txBuf = s.txBuf := rfl
@[simp] theorem setTimer_txLen (t : HostWord) (s : State) : (setTimer t s).txLen = s.txLen := rfl
@[simp] theorem setTimer_rxBuf (t : HostWord) (s : State) : (setTimer t s).rxBuf = s.rxBuf := rfl
@[simp] theorem setTimer_rxLen (t : HostWord) (s : State) : (setTimer t s).rxLen = s.rxLen := rfl
@[simp] theorem setTimer_rxOvf (t : HostWord) (s : State) : (setTimer t s).rxOvf = s.rxOvf := rfl
@[simp] theorem setTimer_tCfg (t : HostWord) (s : State) : (setTimer t s).tCfg = t % 2 ^ s.cfg.tw := rfl
@[simp] theorem setTimer_ibt (t : HostWord) (s : State) : (setTimer t s).ibt = s.ibt := rfl
@[simp] theorem setTimer_res (t : HostWord) (s : State) : (setTimer t s).res = s.res := rfl
@[simp] theorem setTimer_rbuf (t : HostWord) (s : State) : (setTimer t s).rbuf = s.rbuf := rfl
@[simp] theorem setTimer_line (t : HostWord) (s : State) : (setTimer t s).line = s.line := rfl
@[simp] theorem setTimer_inputs (t : HostWord) (s : State) : (setTimer t s).inputs = s.inputs := rfl
@[simp] theorem setTimer_endless (t : HostWord) (s : State) : (setTimer t s).endless = s.endless := rfl
@[simp] theorem setTimer_out (t : HostWord) (s : State) : (setTimer t s).out = s.out := rfl
@[simp] theorem setTimer_resets (t : HostWord) (s : State) : (setTimer t s).resets = s.resets := rfl
@[simp] theorem setTimer_draws (t : HostWord) (s : State) : (setTimer t s).draws = s.draws := rfl

/-! ### clearDone -/

@[simp] theorem clearDone_cfg (s : State) : (clearDone s).cfg = s.cfg := rfl
@[simp] theorem clearDone_sendStage (s : State) : (clearDone s).sendStage = s.sendStage := rfl
@[simp] theorem clearDone_reading (s : State) : (clearDone s).reading = s.reading := rfl
@[simp] theorem clearDone_cmd (s : State) : (clearDone s).cmd = s.cmd := rfl
@[simp] theorem clearDone_written (s : State) : (clearDone s).written = s.written := rfl
@[simp] theorem clearDone_vbuf (s : State) : (clearDone s).vbuf = s.vbuf := rfl
@[simp] theorem clearDone_req (s : State) : (clearDone s).req = s.req := rfl
@[simp] theorem clearDone_crc (s : State) : (clearDone s).crc = s.crc := rfl
@[simp] theorem clearDone_crcOwned (s : State) : (clearDone s).crcOwned = s.crcOwned := rfl
@[simp] theorem clearDone_phase (s : State) : (clearDone s).phase = s.phase := rfl
@[simp] theorem clearDone_done (s : State) : (clearDone s).done = false := rfl
@[simp] theorem clearDone_txBuf (s : State) : (clearDone s).txBuf = s.txBuf := rfl
@[simp] theorem clearDone_txLen (s : State) : (clearDone s).txLen = s.txLen := rfl
@[simp] theorem clearDone_rxBuf (s : State) : (clearDone s).rxBuf = s.rxBuf := rfl
@[simp] theorem clearDone_rxLen (s : State) : (clearDone s).rxLen = s.rxLen := rfl
@[simp] theorem clearDone_rxOvf (s : State) : (clearDone s).rxOvf = s.rxOvf := rfl
@[simp] theorem clearDone_tCfg (s : State) : (clearDone s).tCfg = s.tCfg := rfl
@[simp] theorem clearDone_ibt (s : State) : (clearDone s).ibt = s.ibt := rfl
@[simp] theorem clearDone_res (s : State) : (clearDone s).res = s.res := rfl
@[simp] theorem clearDone_rbuf (s : State) : (clearDone s).rbuf = s.rbuf := rfl
@[simp] theorem clearDone_line (s : State) : (clearDone s).line = s.line := rfl
@[simp] theorem clearDone_inputs (s : State) : (clearDone s).inputs = s.inputs := rfl
@[simp] theorem clearDone_endless (s : State) : (clearDone s).endless = s.endless := rfl
@[simp] theorem clearDone_out (s : State) : (clearDone s).out = s.out := rfl
@[simp] theorem clearDone_resets (s : State) : (clearDone s).resets = s.resets := rfl
@[simp] theorem clearDone_draws (s : State) : (clearDone s).draws = s.draws := rfl

/-! ### latchAndEncode -/

@[simp] theorem latchAndEncode_cfg (op : Op) (s : State) : (latchAndEncode op s).cfg = s.cfg := rfl
@[simp] theorem latchAndEncode_sendStage (op : Op) (s : State) : (latchAndEncode op s).sendStage = .discardIn := rfl
@[simp] theorem latchAndEncode_reading (op : Op) (s : State) : (latchAndEncode op s).reading = s.reading := rfl
@[simp] theorem latchAndEncode_cmd (op : Op) (s : State) : (latchAndEncode op s).cmd = s.cmd := rfl
@[simp] theorem latchAndEncode_written (op : Op) (s : State) : (latchAndEncode op s).written = s.written := rfl
@[simp] theorem latchAndEncode_vbuf (op : Op) (s : State) : (latchAndEncode op s).vbuf = s.vbuf := rfl
@[simp] theorem latchAndEncode_req (op : Op) (s : State) : (latchAndEncode op s).req = latched op s := rfl
@[simp] theorem latchAndEncode_crc (op : Op) (s : State) : (latchAndEncode op s).crc
    = checksum (requestBody op (latched op s) (vbufEntries s (latched op s).count.toNat)) := rfl
@[simp] theorem latchAndEncode_crcOwned (op : Op) (s : State) : (latchAndEncode op s).crcOwned = false := rfl
@[simp] theorem latchAndEncode_phase (op : Op) (s : State) : (latchAndEncode op s).phase = .sending := rfl
@[simp] theorem latchAndEncode_done (op : Op) (s : State) : (latchAndEncode op s).done = s.done := rfl
@[simp] theorem latchAndEncode_txBuf (op : Op) (s : State) : (latchAndEncode op s).txBuf
    = memWrite s.txBuf 0 (sealed (requestBody op (latched op s) (vbufEntries s (latched op s).count.toNat))) := rfl
@[simp] theorem latchAndEncode_txLen (op : Op) (s : State) : (latchAndEncode op s).txLen
    = BitVec.ofNat 9 (sealed (requestBody op (latched op s) (vbufEntries s (latched op s).count.toNat))).length := rfl
@[simp] theorem latchAndEncode_rxBuf (op : Op) (s : State) : (latchAndEncode op s).rxBuf = s.rxBuf := rfl
@[simp] theorem latchAndEncode_rxLen (op : Op) (s : State) : (latchAndEncode op s).rxLen = s.rxLen := rfl
@[simp] theorem latchAndEncode_rxOvf (op : Op) (s : State) : (latchAndEncode op s).rxOvf = s.rxOvf := rfl
@[simp] theorem latchAndEncode_tCfg (op : Op) (s : State) : (latchAndEncode op s).tCfg = s.tCfg := rfl
@[simp] theorem latchAndEncode_ibt (op : Op) (s : State) : (latchAndEncode op s).ibt = s.ibt := rfl
@[simp] theorem latchAndEncode_res (op : Op) (s : State) : (latchAndEncode op s).res = s.res := rfl
@[simp] theorem latchAndEncode_rbuf (op : Op) (s : State) : (latchAndEncode op s).rbuf = s.rbuf := rfl
@[simp] theorem latchAndEncode_line (op : Op) (s : State) : (latchAndEncode op s).line = s.line := rfl
@[simp] theorem latchAndEncode_inputs (op : Op) (s : State) : (latchAndEncode op s).inputs = s.inputs := rfl
@[simp] theorem latchAndEncode_endless (op : Op) (s : State) : (latchAndEncode op s).endless = s.endless := rfl
@[simp] theorem latchAndEncode_out (op : Op) (s : State) : (latchAndEncode op s).out = s.out := rfl
@[simp] theorem latchAndEncode_resets (op : Op) (s : State) : (latchAndEncode op s).resets = s.resets := rfl
@[simp] theorem latchAndEncode_draws (op : Op) (s : State) : (latchAndEncode op s).draws = s.draws := rfl

/-! ### receiveBytes, stall, arrive and tickTimer: the fields no answer of the Line changes -/

@[simp] theorem receiveBytes_nil (s : State) : receiveBytes [] s = s := rfl

@[simp] theorem receiveBytes_cons (b : Byte) (bs : List Byte) (s : State) :
    receiveBytes (b :: bs) s = receiveBytes bs (issueRead (receiveByte b s)) := rfl

theorem receiveBytes_append (as bs : List Byte) (s : State) :
    receiveBytes (as ++ bs) s = receiveBytes bs (receiveBytes as s) := by
  simp [receiveBytes, List.foldl_append]

@[simp] theorem receiveBytes_cfg (bs : List Byte) (s : State) : (receiveBytes bs s).cfg = s.cfg := by
  induction bs generalizing s with
  | nil => rfl
  | cons b bs ih => exact (ih _).trans rfl

@[simp] theorem receiveBytes_sendStage (bs : List Byte) (s : State) : (receiveBytes bs s).sendStage = s.sendStage := by
  induction bs generalizing s with
  | nil => rfl
  | cons b bs ih => exact (ih _).trans rfl

@[simp] theorem receiveBytes_cmd (bs : List Byte) (s : State) : (receiveBytes bs s).cmd = s.cmd := by
  induction bs generalizing s with
  | nil => rfl
  | cons b bs ih => exact (ih _).trans rfl

@[simp] theorem receiveBytes_written (bs : List Byte) (s : State) : (receiveBytes bs s).written = s.written := by
  induction bs generalizing s with
  | nil => rfl
  | cons b bs ih => exact (ih _).trans rfl

@[simp] theorem receiveBytes_vbuf (bs : List Byte) (s : State) : (receiveBytes bs s).vbuf = s.vbuf := by
  induction bs generalizing s with
  | nil => rfl
  | cons b bs ih => exact (ih _).trans rfl

@[simp] theorem receiveBytes_req (bs : List Byte) (s : State) : (receiveBytes bs s).req = s.req := by
  induction bs generalizing s with
  | nil => rfl
  | cons b bs ih => exact (ih _).trans rfl

@[simp] theorem receiveBytes_crc (bs : List Byte) (s : State) : (receiveBytes bs s).crc = s.crc := by
  induction bs generalizing s with
  | nil => rfl
  | cons b bs ih => exact (ih _).trans rfl

@[simp] theorem receiveBytes_crcOwned (bs : List Byte) (s : State) : (receiveBytes bs s).crcOwned = s.crcOwned := by
  induction bs generalizing s with
  | nil => rfl
  | cons b bs ih => exact (ih _).trans rfl

@[simp] theorem receiveBytes_phase (bs : List Byte) (s : State) : (receiveBytes bs s).phase = s.phase := by
  induction bs generalizing s with
  | nil => rfl
  | cons b bs ih => exact (ih _).trans rfl

@[simp] theorem receiveBytes_done (bs : List Byte) (s : State) : (receiveBytes bs s).done = s.done := by
  induction bs generalizing s with
  | nil => rfl
  | cons b bs ih => exact (ih _).trans rfl

@[simp] theorem receiveBytes_txBuf (bs : List Byte) (s : State) : (receiveBytes bs s).txBuf = s.txBuf := by
  induction bs generalizing s with
  | nil => rfl
  | cons b bs ih => exact (ih _).trans rfl

@[simp] theorem receiveBytes_txLen (bs : List Byte) (s : State) : (receiveBytes bs s).txLen = s.txLen := by
  induction bs generalizing s with
  | nil => rfl
  | cons b bs ih => exact (ih _).trans rfl

@[simp] theorem receiveBytes_tCfg (bs : List Byte) (s : State) : (receiveBytes bs s).tCfg = s.tCfg := by
  induction bs generalizing s with
  | nil => rfl
  | cons b bs ih => exact (ih _).trans rfl

@[simp] theorem receiveBytes_res (bs : List Byte) (s : State) : (receiveBytes bs s).res = s.res := by
  induction bs generalizing s with
  | nil => rfl
  | cons b bs ih => exact (ih _).trans rfl

@[simp] theorem receiveBytes_rbuf (bs : List Byte) (s : State) : (receiveBytes bs s).rbuf = s.rbuf := by
  induction bs generalizing s with
  | nil => rfl
  | cons b bs ih => exact (ih _).trans rfl

@[simp] theorem receiveBytes_line (bs : List Byte) (s : State) : (receiveBytes bs s).line = s.line := by
  induction bs generalizing s with
  | nil => rfl
  | cons b bs ih => exact (ih _).trans rfl

@[simp] theorem receiveBytes_inputs (bs : List Byte) (s : State) : (receiveBytes bs s).inputs = s.inputs := by
  induction bs generalizing s with
  | nil => rfl
  | cons b bs ih => exact (ih _).trans rfl

@[simp] theorem receiveBytes_endless (bs : List Byte) (s : State) : (receiveBytes bs s).endless = s.endless := by
  induction bs generalizing s with
  | nil => rfl
  | cons b bs ih => exact (ih _).trans rfl

@[simp] theorem receiveBytes_resets (bs : List Byte) (s : State) : (receiveBytes bs s).resets = s.resets := by
  induction bs generalizing s with
  | nil => rfl
  | cons b bs ih => exact (ih _).trans rfl

@[simp] theorem receiveBytes_draws (bs : List Byte) (s : State) : (receiveBytes bs s).draws = s.draws := by
  induction bs generalizing s with
  | nil => rfl
  | cons b bs ih => exact (ih _).trans rfl

@[simp] theorem receiveBytes_rxLen (bs : List Byte) (s : State) :
    (receiveBytes bs s).rxLen = s.rxLen + bs.length := by
  induction bs generalizing s with
  | nil => rfl
  | cons b bs ih => rw [receiveBytes_cons, ih, issueRead_rxLen, receiveByte_rxLen, List.length_cons]; omega

@[simp] theorem receiveBytes_out (bs : List Byte) (s : State) :
    (receiveBytes bs s).out = s.out ++ List.replicate bs.length .readReq := by
  induction bs generalizing s with
  | nil => simp
  | cons b bs ih => rw [receiveBytes_cons, ih, issueRead_out, receiveByte_out, List.length_cons, List.replicate_succ]; simp

@[simp] theorem stall_cfg (s : State) : (stall s).cfg = s.cfg := by
  unfold stall; split <;> rfl

@[simp] theorem stall_sendStage (s : State) : (stall s).sendStage = s.sendStage := by
  unfold stall; split <;> rfl

@[simp] theorem stall_reading (s : State) : (stall s).reading = false := by
  unfold stall; split <;> rfl

@[simp] theorem stall_cmd (s : State) : (stall s).cmd = s.cmd := by
  unfold stall; split <;> rfl

@[simp] theorem stall_written (s : State) : (stall s).written = s.written := by
  unfold stall; split <;> rfl

@[simp] theorem stall_vbuf (s : State) : (stall s).vbuf = s.vbuf := by
  unfold stall; split <;> rfl

@[simp] theorem stall_req (s : State) : (stall s).req = s.req := by
  unfold stall; split <;> rfl

@[simp] theorem stall_crc (s : State) : (stall s).crc = s.crc := by
  unfold stall; split <;> rfl

@[simp] theorem stall_crcOwned (s : State) : (stall s).crcOwned = s.crcOwned := by
  unfold stall; split <;> rfl

@[simp] theorem stall_txBuf (s : State) : (stall s).txBuf = s.txBuf := by
  unfold stall; split <;> rfl

@[simp] theorem stall_txLen (s : State) : (stall s).txLen = s.txLen := by
  unfold stall; split <;> rfl

@[simp] theorem stall_rxBuf (s : State) : (stall s).rxBuf = s.rxBuf := by
  unfold stall; split <;> rfl

@[simp] theorem stall_rxLen (s : State) : (stall s).rxLen = s.rxLen := by
  unfold stall; split <;> rfl

@[simp] theorem stall_rxOvf (s : State) : (stall s).rxOvf = s.rxOvf := by
  unfold stall; split <;> rfl

@[simp] theorem stall_tCfg (s : State) : (stall s).tCfg = s.tCfg := by
  unfold stall; split <;> rfl

@[simp] theorem stall_rbuf (s : State) : (stall s).rbuf = s.rbuf := by
  unfold stall; split <;> rfl

@[simp] theorem stall_line (s : State) : (stall s).line = s.line := by
  unfold stall; split <;> rfl

@[simp] theorem stall_inputs (s : State) : (stall s).inputs = s.inputs := by
  unfold stall; split <;> rfl

@[simp] theorem stall_endless (s : State) : (stall s).endless = s.endless := by
  unfold stall; split <;> rfl

@[simp] theorem stall_resets (s : State) : (stall s).resets = s.resets := by
  unfold stall; split <;> rfl

@[simp] theorem arrive_cfg (b : Byte) (s : State) : (arrive b s).cfg = s.cfg := by
  unfold arrive; split <;> rfl

@[simp] theorem arrive_sendStage (b : Byte) (s : State) : (arrive b s).sendStage = s.sendStage := by
  unfold arrive; split <;> rfl

@[simp] theorem arrive_cmd (b : Byte) (s : State) : (arrive b s).cmd = s.cmd := by
  unfold arrive; split <;> rfl

@[simp] theorem arrive_written (b : Byte) (s : State) : (arrive b s).written = s.written := by
  unfold arrive; split <;> rfl

@[simp] theorem arrive_vbuf (b : Byte) (s : State) : (arrive b s).vbuf = s.vbuf := by
  unfold arrive; split <;> rfl

@[simp] theorem arrive_req (b : Byte) (s : State) : (arrive b s).req = s.req := by
  unfold arrive; split <;> rfl

@[simp] theorem arrive_crc (b : Byte) (s : State) : (arrive b s).crc = s.crc := by
  unfold arrive; split <;> rfl

@[simp] theorem arrive_crcOwned (b : Byte) (s : State) : (arrive b s).crcOwned = s.crcOwned := by
  unfold arrive; split <;> rfl

@[simp] theorem arrive_phase (b : Byte) (s : State) : (arrive b s).phase = s.phase := by
  unfold arrive; split <;> rfl

@[simp] theorem arrive_done (b : Byte) (s : State) : (arrive b s).done = s.done := by
  unfold arrive; split <;> rfl

@[simp] theorem arrive_txBuf (b : Byte) (s : State) : (arrive b s).txBuf = s.txBuf := by
  unfold arrive; split <;> rfl

@[simp] theorem arrive_txLen (b : Byte) (s : State) : (arrive b s).txLen = s.txLen := by
  unfold arrive; split <;> rfl

@[simp] theorem arrive_tCfg (b : Byte) (s : State) : (arrive b s).tCfg = s.tCfg := by
  unfold arrive; split <;> rfl

@[simp] theorem arrive_res (b : Byte) (s : State) : (arrive b s).res = s.res := by
  unfold arrive; split <;> rfl

@[simp] theorem arrive_rbuf (b : Byte) (s : State) : (arrive b s).rbuf = s.rbuf := by
  unfold arrive; split <;> rfl

@[simp] theorem arrive_inputs (b : Byte) (s : State) : (arrive b s).inputs = s.inputs := by
  unfold arrive; split <;> rfl

@[simp] theorem arrive_endless (b : Byte) (s : State) : (arrive b s).endless = s.endless := by
  unfold arrive; split <;> rfl

@[simp] theorem arrive_resets (b : Byte) (s : State) : (arrive b s).resets = s.resets := by
  unfold arrive; split <;> rfl

@[simp] theorem arrive_draws (b : Byte) (s : State) : (arrive b s).draws = s.draws := by
  unfold arrive; split <;> rfl

@[simp] theorem tickTimer_cfg (s : State) : (tickTimer s).cfg = s.cfg := by
  unfold tickTimer; split
  · split
    · simp
    · rfl
  · rfl

@[simp] theorem tickTimer_sendStage (s : State) : (tickTimer s).sendStage = s.sendStage := by
  unfold tickTimer; split
  · split
    · simp
    · rfl
  · rfl

@[simp] theorem tickTimer_cmd (s : State) : (tickTimer s).cmd = s.cmd := by
  unfold tickTimer; split
  · split
    · simp
    · rfl
  · rfl

@[simp] theorem tickTimer_written (s : State) : (tickTimer s).written = s.written := by
  unfold tickTimer; split
  · split
    · simp
    · rfl
  · rfl

@[simp] theorem tickTimer_vbuf (s : State) : (tickTimer s).vbuf = s.vbuf := by
  unfold tickTimer; split
  · split
    · simp
    · rfl
  · rfl

@[simp] theorem tickTimer_req (s : State) : (tickTimer s).req = s.req := by
  unfold tickTimer; split
  · split
    · simp
    · rfl
  · rfl

@[simp] theorem tickTimer_crc (s : State) : (tickTimer s).crc = s.crc := by
  unfold tickTimer; split
  · split
    · simp
    · rfl
  · rfl

@[simp] theorem tickTimer_crcOwned (s : State) : (tickTimer s).crcOwned = s.crcOwned := by
  unfold tickTimer; split
  · split
    · simp
    · rfl
  · rfl

@[simp] theorem tickTimer_txBuf (s : State) : (tickTimer s).txBuf = s.txBuf := by
  unfold tickTimer; split
  · split
    · simp
    · rfl
  · rfl

@[simp] theorem tickTimer_txLen (s : State) : (tickTimer s).txLen = s.txLen := by
  unfold tickTimer; split
  · split
    · simp
    · rfl
  · rfl

@[simp] theorem tickTimer_rxBuf (s : State) : (tickTimer s).rxBuf = s.rxBuf := by
  unfold tickTimer; split
  · split
    · simp
    · rfl
  · rfl

@[simp] theorem tickTimer_rxLen (s : State) : (tickTimer s).rxLen = s.rxLen := by
  unfold tickTimer; split
  · split
    · simp
    · rfl
  · rfl

@[simp] theorem tickTimer_rxOvf (s : State) : (tickTimer s).rxOvf = s.rxOvf := by
  unfold tickTimer; split
  · split
    · simp
    · rfl
  · rfl

@[simp] theorem tickTimer_tCfg (s : State) : (tickTimer s).tCfg = s.tCfg := by
  unfold tickTimer; split
  · split
    · simp
    · rfl
  · rfl

@[simp] theorem tickTimer_rbuf (s : State) : (tickTimer s).rbuf = s.rbuf := by
  unfold tickTimer; split
  · split
    · simp
    · rfl
  · rfl

@[simp] theorem tickTimer_line (s : State) : (tickTimer s).line = s.line := by
  unfold tickTimer; split
  · split
    · simp
    · rfl
  · rfl

@[simp] theorem tickTimer_inputs (s : State) : (tickTimer s).inputs = s.inputs := by
  unfold tickTimer; split
  · split
    · simp
    · rfl
  · rfl

@[simp] theorem tickTimer_endless (s : State) : (tickTimer s).endless = s.endless := by
  unfold tickTimer; split
  · split
    · simp
    · rfl
  · rfl

@[simp] theorem tickTimer_resets (s : State) : (tickTimer s).resets = s.resets := by
  unfold tickTimer; split
  · split
    · simp
    · rfl
  · rfl

@[simp] theorem receiveEndless_cfg (s : State) : (receiveEndless s).cfg = s.cfg := by
  unfold receiveEndless; split
  · rfl
  · split <;> rfl

@[simp] theorem receiveEndless_sendStage (s : State) : (receiveEndless s).sendStage = s.sendStage := by
  unfold receiveEndless; split
  · rfl
  · split <;> rfl

@[simp] theorem receiveEndless_cmd (s : State) : (receiveEndless s).cmd = s.cmd := by
  unfold receiveEndless; split
  · rfl
  · split <;> rfl

@[simp] theorem receiveEndless_written (s : State) : (receiveEndless s).written = s.written := by
  unfold receiveEndless; split
  · rfl
  · split <;> rfl

@[simp] theorem receiveEndless_vbuf (s : State) : (receiveEndless s).vbuf = s.vbuf := by
  unfold receiveEndless; split
  · rfl
  · split <;> rfl

@[simp] theorem receiveEndless_req (s : State) : (receiveEndless s).req = s.req := by
  unfold receiveEndless; split
  · rfl
  · split <;> rfl

@[simp] theorem receiveEndless_crc (s : State) : (receiveEndless s).crc = s.crc := by
  unfold receiveEndless; split
  · rfl
  · split <;> rfl

@[simp] theorem receiveEndless_crcOwned (s : State) : (receiveEndless s).crcOwned = s.crcOwned := by
  unfold receiveEndless; split
  · rfl
  · split <;> rfl

@[simp] theorem receiveEndless_phase (s : State) : (receiveEndless s).phase = s.phase := by
  unfold receiveEndless; split
  · rfl
  · split <;> rfl

@[simp] theorem receiveEndless_done (s : State) : (receiveEndless s).done = s.done := by
  unfold receiveEndless; split
  · rfl
  · split <;> rfl

@[simp] theorem receiveEndless_txBuf (s : State) : (receiveEndless s).txBuf = s.txBuf := by
  unfold receiveEndless; split
  · rfl
  · split <;> rfl

@[simp] theorem receiveEndless_txLen (s : State) : (receiveEndless s).txLen = s.txLen := by
  unfold receiveEndless; split
  · rfl
  · split <;> rfl

@[simp] theorem receiveEndless_tCfg (s : State) : (receiveEndless s).tCfg = s.tCfg := by
  unfold receiveEndless; split
  · rfl
  · split <;> rfl

@[simp] theorem receiveEndless_res (s : State) : (receiveEndless s).res = s.res := by
  unfold receiveEndless; split
  · rfl
  · split <;> rfl

@[simp] theorem receiveEndless_rbuf (s : State) : (receiveEndless s).rbuf = s.rbuf := by
  unfold receiveEndless; split
  · rfl
  · split <;> rfl

@[simp] theorem receiveEndless_line (s : State) : (receiveEndless s).line = s.line := by
  unfold receiveEndless; split
  · rfl
  · split <;> rfl

@[simp] theorem receiveEndless_inputs (s : State) : (receiveEndless s).inputs = s.inputs := by
  unfold receiveEndless; split
  · rfl
  · split <;> rfl

@[simp] theorem receiveEndless_resets (s : State) : (receiveEndless s).resets = s.resets := by
  unfold receiveEndless; split
  · rfl
  · split <;> rfl

@[simp] theorem receiveEndless_draws (s : State) : (receiveEndless s).draws = s.draws := by
  unfold receiveEndless; split
  · rfl
  · split <;> rfl

/-! ### readOn: the fields a read issued does not change -/

@[simp] theorem readOn_cfg (s : State) : (readOn s).cfg = s.cfg := by
  unfold readOn; split <;> rfl

@[simp] theorem readOn_cmd (s : State) : (readOn s).cmd = s.cmd := by
  unfold readOn; split <;> rfl

@[simp] theorem readOn_written (s : State) : (readOn s).written = s.written := by
  unfold readOn; split <;> rfl

@[simp] theorem readOn_vbuf (s : State) : (readOn s).vbuf = s.vbuf := by
  unfold readOn; split <;> rfl

@[simp] theorem readOn_req (s : State) : (readOn s).req = s.req := by
  unfold readOn; split <;> rfl

@[simp] theorem readOn_crc (s : State) : (readOn s).crc = s.crc := by
  unfold readOn; split <;> rfl

@[simp] theorem readOn_crcOwned (s : State) : (readOn s).crcOwned = s.crcOwned := by
  unfold readOn; split <;> rfl

@[simp] theorem readOn_phase (s : State) : (readOn s).phase = s.phase := by
  unfold readOn; split <;> rfl

@[simp] theorem readOn_sendStage (s : State) : (readOn s).sendStage = s.sendStage := by
  unfold readOn; split <;> rfl

@[simp] theorem readOn_done (s : State) : (readOn s).done = s.done := by
  unfold readOn; split <;> rfl

@[simp] theorem readOn_txBuf (s : State) : (readOn s).txBuf = s.txBuf := by
  unfold readOn; split <;> rfl

@[simp] theorem readOn_txLen (s : State) : (readOn s).txLen = s.txLen := by
  unfold readOn; split <;> rfl

@[simp] theorem readOn_rxBuf (s : State) : (readOn s).rxBuf = s.rxBuf := by
  unfold readOn; split <;> rfl

@[simp] theorem readOn_rxLen (s : State) : (readOn s).rxLen = s.rxLen := by
  unfold readOn; split <;> rfl

@[simp] theorem readOn_rxOvf (s : State) : (readOn s).rxOvf = s.rxOvf := by
  unfold readOn; split <;> rfl

@[simp] theorem readOn_tCfg (s : State) : (readOn s).tCfg = s.tCfg := by
  unfold readOn; split <;> rfl

@[simp] theorem readOn_res (s : State) : (readOn s).res = s.res := by
  unfold readOn; split <;> rfl

@[simp] theorem readOn_rbuf (s : State) : (readOn s).rbuf = s.rbuf := by
  unfold readOn; split <;> rfl

@[simp] theorem readOn_line (s : State) : (readOn s).line = s.line := by
  unfold readOn; split <;> rfl

@[simp] theorem readOn_inputs (s : State) : (readOn s).inputs = s.inputs := by
  unfold readOn; split <;> rfl

@[simp] theorem readOn_endless (s : State) : (readOn s).endless = s.endless := by
  unfold readOn; split <;> rfl

@[simp] theorem readOn_resets (s : State) : (readOn s).resets = s.resets := by
  unfold readOn; split <;> rfl

@[simp] theorem readOn_draws (s : State) : (readOn s).draws = s.draws := by
  unfold readOn; split <;> rfl

end Sys2Proof.Machine
end

