-- ==== Sys2Proof/Laws/Ops.lean ====
section
/-! SUPPORT. One lemma for each shared operation that says once what it can do. -/

namespace Sys2Proof.Machine

/-! ### Idle and busy -/

theorem busy_eq_false_iff {s : State} : busy s = false ↔ s.phase = .idle := by
  cases h : s.phase <;> simp [busy, h]

theorem busy_eq_true_iff {s : State} : busy s = true ↔ s.phase ≠ .idle := by
  rw [← Bool.not_eq_false, ne_eq, not_iff_not, busy_eq_false_iff]

theorem whenIdle_idle {s : State} (h : s.phase = .idle) (r : Refusal) (t : State) : whenIdle r s t = .next t := by
  simp [whenIdle, busy_eq_false_iff.2 h]

theorem whenIdle_busy {s : State} (h : s.phase ≠ .idle) (r : Refusal) (t : State) : whenIdle r s t = .refused r := by
  simp [whenIdle, busy_eq_true_iff.2 h]

/-- An event accepted in Idle only answers next exactly there. -/
theorem whenIdle_next {r : Refusal} {s t u : State} (h : whenIdle r s t = .next u) : s.phase = .idle ∧ u = t := by
  by_cases hs : s.phase = .idle
  · rw [whenIdle_idle hs] at h; cases h; exact ⟨hs, rfl⟩
  · rw [whenIdle_busy hs] at h; cases h

/-! ### The operands after the register writes of a call -/

section loads

variable (op : Op) (u : Byte) (a q v : Word) (vs : List Word) (s : State)

@[simp] theorem funcOperand_loadRead : funcOperand (loadRead op u a q s) = funcCode op := rfl
@[simp] theorem unitOperand_loadRead : unitOperand (loadRead op u a q s) = u := rfl
@[simp] theorem addrOperand_loadRead : addrOperand (loadRead op u a q s) = a := rfl
@[simp] theorem countOperand_loadRead : countOperand (loadRead op u a q s) = q := rfl
@[simp] theorem funcOperand_loadSingle : funcOperand (loadSingle op u a v s) = funcCode op := rfl
@[simp] theorem unitOperand_loadSingle : unitOperand (loadSingle op u a v s) = u := rfl
@[simp] theorem addrOperand_loadSingle : addrOperand (loadSingle op u a v s) = a := rfl
@[simp] theorem valueOperand_loadSingle : valueOperand (loadSingle op u a v s) = v := rfl
@[simp] theorem funcOperand_loadMultiple : funcOperand (loadMultiple op u a vs s) = funcCode op := rfl
@[simp] theorem unitOperand_loadMultiple : unitOperand (loadMultiple op u a vs s) = u := rfl
@[simp] theorem addrOperand_loadMultiple : addrOperand (loadMultiple op u a vs s) = a := rfl
@[simp] theorem countOperand_loadMultiple :
    countOperand (loadMultiple op u a vs s) = BitVec.ofNat 16 vs.length := rfl

end loads

@[simp] theorem vbufEntries_length (s : State) (q : Nat) : (vbufEntries s q).length = q := by simp [vbufEntries]

/-- The entries a multiple write reads are the values the call has loaded (R125). -/
theorem vbufEntries_loadMultiple (op : Op) (u : Byte) (a : Word) (vs : List Word) (s : State)
    (h : vs.length ≤ Config.vCap) : vbufEntries (loadMultiple op u a vs s) vs.length = vs := by
  have ht : vs.take Config.vCap = vs := List.take_of_length_le h
  show memRead (memWrite s.vbuf 0 (vs.take Config.vCap)) _ _ = vs
  rw [ht, memRead_memWrite]

/-! ### The parameter check (R202) -/

theorem violatedBound_eq_none {p : Config.Params} {op : Op} {q : Word} (h : violatedBound p op q = none) {c : Word}
    (hc : ceiling op = some c) : q ≤ c ∧ p.qtyFloor ≤ q := by
  unfold violatedBound at h
  rw [hc] at h
  dsimp only at h
  split at h
  · cases h
  · split at h
    · cases h
    · rename_i h1 h2; exact ⟨BitVec.not_lt.1 h1, BitVec.not_lt.1 h2⟩

theorem violatedBound_of_within {p : Config.Params} {op : Op} {q : Word}
    (h : ∀ c, ceiling op = some c → q ≤ c ∧ p.qtyFloor ≤ q) : violatedBound p op q = none := by
  unfold violatedBound
  split
  · rfl
  · rename_i c hc
    rw [if_neg (BitVec.not_lt.2 (h c hc).1), if_neg (BitVec.not_lt.2 (h c hc).2)]

/-- The length of the request, from the quantity alone (R163). -/
theorem sealed_requestBody_length (op : Op) (r : Latched) (entries : List Word)
    (h : entries.length = r.count.toNat) : (sealed (requestBody op r entries)).length = match op with
      | .writeMultipleCoils => 9 + bitBytes r.count.toNat
      | .writeMultipleRegisters => 9 + 2 * r.count.toNat
      | _ => 8 := by
  cases op <;>
    simp [requestBody, bodyReadCoils, bodyReadDiscreteInputs, bodyReadHoldingRegisters, bodyReadInputRegisters,
      bodyWriteSingleCoil, bodyWriteSingleRegister, bodyWriteMultipleCoils, bodyWriteMultipleRegisters, body8, bodyWm,
      h] <;> omega

/-- Within the ceilings the request fits TXBUF and its length fits TXLEN (R163). -/
theorem sealed_requestBody_length_le {p : Config.Params} (op : Op) (r : Latched) (entries : List Word)
    (h : entries.length = r.count.toNat) (hb : violatedBound p op r.count = none) :
    (sealed (requestBody op r entries)).length ≤ 255 := by
  have hc := fun c => @violatedBound_eq_none p op r.count hb c
  rw [sealed_requestBody_length op r entries h]
  cases op <;> simp only [] <;> try omega
  · have h1 := (hc _ rfl).1
    have h2 : r.count.toNat ≤ 1968 := h1
    unfold bitBytes
    omega
  · have h1 := (hc _ rfl).1
    have h2 : r.count.toNat ≤ 123 := h1
    omega

/-- After the latch TXBUF holds the request and TXLEN its length (R204). -/
theorem requestFrame_latchAndEncode {op : Op} {s : State}
    (hb : violatedBound s.cfg op (countOperand s) = none) :
    requestFrame (latchAndEncode op s)
        = sealed (requestBody op (latched op s) (vbufEntries s (countOperand s).toNat)) ∧
      (latchAndEncode op s).txLen.toNat
        = (sealed (requestBody op (latched op s) (vbufEntries s (countOperand s).toNat))).length := by
  have hl := sealed_requestBody_length_le (p := s.cfg) op (latched op s) (vbufEntries s (countOperand s).toNat)
    (by simp [latched]) hb
  have ht : (latchAndEncode op s).txLen.toNat
      = (sealed (requestBody op (latched op s) (vbufEntries s (countOperand s).toNat))).length := by
    show (BitVec.ofNat 9 _).toNat = _
    rw [BitVec.toNat_ofNat]
    exact Nat.mod_eq_of_lt (by simp only [latched] at hl ⊢; omega)
  refine ⟨?_, ht⟩
  unfold requestFrame
  rw [ht]
  exact memRead_memWrite _ _ _

@[simp] theorem unitOperand_clearDone (s : State) : unitOperand (clearDone s) = unitOperand s := rfl
@[simp] theorem funcOperand_clearDone (s : State) : funcOperand (clearDone s) = funcOperand s := rfl
@[simp] theorem addrOperand_clearDone (s : State) : addrOperand (clearDone s) = addrOperand s := rfl
@[simp] theorem countOperand_clearDone (s : State) : countOperand (clearDone s) = countOperand s := rfl
@[simp] theorem valueOperand_clearDone (s : State) : valueOperand (clearDone s) = valueOperand s := rfl
@[simp] theorem vbufEntries_clearDone (s : State) (q : Nat) : vbufEntries (clearDone s) q = vbufEntries s q := rfl
@[simp] theorem latched_clearDone (op : Op) (s : State) : latched op (clearDone s) = latched op s := rfl

@[simp] theorem unitOperand_withInputs (xs : List Input) (s : State) :
    unitOperand (withInputs xs s) = unitOperand s := rfl
@[simp] theorem funcOperand_withInputs (xs : List Input) (s : State) :
    funcOperand (withInputs xs s) = funcOperand s := rfl
@[simp] theorem addrOperand_withInputs (xs : List Input) (s : State) :
    addrOperand (withInputs xs s) = addrOperand s := rfl
@[simp] theorem countOperand_withInputs (xs : List Input) (s : State) :
    countOperand (withInputs xs s) = countOperand s := rfl
@[simp] theorem valueOperand_withInputs (xs : List Input) (s : State) :
    valueOperand (withInputs xs s) = valueOperand s := rfl

/-- An accepted `Start` ends in ParameterError or has built the request (R202 to R204). -/
theorem accept_cases (op : Op) (s : State) :
    (∃ bound, violatedBound s.cfg op (countOperand s) = some bound ∧
        accept op s = fail (.parameterError bound (countOperand s)) (clearDone s)) ∨
      (violatedBound s.cfg op (countOperand s) = none ∧ accept op s = latchAndEncode op (clearDone s)) := by
  unfold accept
  cases h : violatedBound s.cfg op (countOperand s) with
  | some b => exact .inl ⟨b, rfl, rfl⟩
  | none => exact .inr ⟨rfl, rfl⟩

theorem startOperation_next {s t : State} (h : startOperation s = .next t) :
    s.phase = .idle ∧ ∃ op, opOfCode (funcOperand s) = some op ∧ t = accept op s := by
  unfold startOperation at h
  split at h
  · cases h
  · rename_i hb
    split at h
    · cases h
    · rename_i op hop; cases h; exact ⟨busy_eq_false_iff.1 (by simpa using hb), op, hop, rfl⟩

/-! ### Sending -/

/-- One step of Sending is one event (R205, R206). -/
theorem sendStep_cases (s : State) :
    (s.sendStage = .discardIn ∧ sendStep s = discardIn s) ∨ (s.sendStage = .discardOut ∧ sendStep s = discardOut s) ∨
      (s.sendStage = .write ∧ sendStep s = writeRequest s) := by
  unfold sendStep
  cases h : s.sendStage
  · exact .inl ⟨rfl, rfl⟩
  · exact .inr (.inl ⟨rfl, rfl⟩)
  · exact .inr (.inr ⟨rfl, rfl⟩)

/-! ### Reception -/

/-- A read is outstanding exactly in AwaitingReply with a `ReadReq` unanswered (R208, R261). -/
theorem awaitsAnswer_iff {s : State} : awaitsAnswer s = true ↔ s.phase = .awaitingReply ∧ s.reading = true := by
  unfold awaitsAnswer
  cases s.phase <;> simp

theorem hasRoom_iff {s : State} : hasRoom s = true ↔ ∀ c, s.cfg.rxCap = some c → s.rxLen < c := by
  unfold hasRoom
  cases h : s.cfg.rxCap <;> simp

/-- Bytes that fit are stored in the order of their arrival, and nothing else is (R33). -/
theorem receiveBytes_rxBuf (bs : List Byte) (s : State)
    (h : ∀ c, s.cfg.rxCap = some c → s.rxLen + bs.length ≤ c) :
    (receiveBytes bs s).rxBuf = memWrite s.rxBuf s.rxLen bs ∧ (receiveBytes bs s).rxOvf = s.rxOvf := by
  induction bs generalizing s with
  | nil => exact ⟨rfl, rfl⟩
  | cons b bs ih =>
    have hr : hasRoom s = true := hasRoom_iff.2 fun c hc => by have := h c hc; rw [List.length_cons] at this; omega
    obtain ⟨h1, h2⟩ := ih (issueRead (receiveByte b s)) fun c hc => by
      have := h c hc; rw [List.length_cons] at this; rw [issueRead_rxLen, receiveByte_rxLen]; omega
    rw [receiveBytes_cons, h1, h2, issueRead_rxBuf, issueRead_rxOvf, issueRead_rxLen, receiveByte_rxBuf,
      receiveByte_rxOvf, receiveByte_rxLen, hr]
    exact ⟨rfl, rfl⟩

/-- Whatever arrives, RXBUF changes at the offsets of the bytes received only. -/
theorem receiveBytes_rxBuf_outside (bs : List Byte) (s : State) {a : Nat} (h : a < s.rxLen ∨ s.rxLen + bs.length ≤ a) :
    memGet (receiveBytes bs s).rxBuf a = memGet s.rxBuf a := by
  induction bs generalizing s with
  | nil => rfl
  | cons b bs ih =>
    rw [List.length_cons] at h
    rw [receiveBytes_cons, ih (issueRead (receiveByte b s)) (by rw [issueRead_rxLen, receiveByte_rxLen]; omega),
      issueRead_rxBuf, receiveByte_rxBuf]
    split
    · exact memGet_memSet_other _ _ (by omega)
    · rfl

/-- What the decoder is given after a reception that began with no byte and fits RXBUF: the bytes received. -/
theorem storedReply_receiveBytes {bs : List Byte} {s : State} (h0 : s.rxLen = 0)
    (h : ∀ c, s.cfg.rxCap = some c → bs.length ≤ c) : storedReply (receiveBytes bs s) = bs := by
  have hb := (receiveBytes_rxBuf bs s (by simpa [h0] using h)).1
  have hn : storedCount (receiveBytes bs s) = bs.length := by
    rw [storedCount, receiveBytes_rxLen, h0, Nat.zero_add, receiveBytes_cfg]
    cases hc : s.cfg.rxCap with
    | none => rfl
    | some c => exact Nat.min_eq_left (h c hc)
  unfold storedReply
  rw [hn, hb, h0]
  exact memRead_memWrite _ _ _

/-- The stalled read: TransportTimeout, or Decoding (R209). -/
theorem stall_cases (s : State) :
    (s.rxLen = 0 ∧ stall s = fail .transportTimeout { s with ibt := 0, reading := false }) ∨
      (0 < s.rxLen ∧ stall s = { s with ibt := 0, reading := false, phase := .decoding }) := by
  unfold stall
  by_cases h : s.rxLen = 0
  · exact .inl ⟨h, if_pos h⟩
  · exact .inr ⟨Nat.pos_of_ne_zero h, if_neg h⟩

/-- With no event to come the Line's endless sequence answers the outstanding read, or nothing happens (R295, R274). -/
theorem receiveEndless_cases (s : State) :
    (∃ k, s.endless = some k ∧ awaitsAnswer s = true ∧
        receiveEndless s = receiveByte (Config.freeAnswer k) { s with endless := some (k + 1) }) ∨
      ((s.endless = none ∨ awaitsAnswer s = false) ∧ receiveEndless s = s) := by
  unfold receiveEndless
  cases he : s.endless with
  | none => exact .inr ⟨.inl rfl, rfl⟩
  | some k =>
    cases hp : awaitsAnswer s with
    | true => exact .inl ⟨k, rfl, rfl, rfl⟩
    | false => exact .inr ⟨.inr rfl, rfl⟩

/-- T_CFG holds a number of its width (R34). -/
theorem setTimer_lt (t : HostWord) (s : State) : (setTimer t s).tCfg < 2 ^ (setTimer t s).cfg.tw :=
  Nat.mod_lt t (Nat.two_pow_pos _)

/-- IBT never counts up (R262). -/
theorem countDown_le (t : Nat) : countDown t ≤ t := Nat.sub_le t 1

/-- Where no read is outstanding in AwaitingReply, one is issued (R208). -/
theorem readOn_of_idle {s : State} (hp : s.phase = .awaitingReply) (hr : s.reading = false) :
    readOn s = issueRead s := if_pos ⟨hp, hr⟩

/-- Where a read is outstanding, none is issued (R208). -/
theorem readOn_of_reading {s : State} (hr : s.reading = true) : readOn s = s :=
  if_neg fun h => by rw [hr] at h; cases h.2

/-- The first thing a reply does in AwaitingReply is to meet an outstanding read (R208). -/
theorem readOn_reading {s : State} (hp : s.phase = .awaitingReply) : (readOn s).reading = true := by
  cases hr : s.reading with
  | true => rw [readOn_of_reading hr, hr]
  | false => rw [readOn_of_idle hp hr, issueRead_reading]

/-- After every byte the next read is issued (R208). -/
theorem receiveBytes_reading {s : State} (bs : List Byte) (h : s.reading = true) :
    (receiveBytes bs s).reading = true := by
  induction bs generalizing s with
  | nil => exact h
  | cons b bs ih => exact ih (issueRead_reading _)

/-- The events of the Line in AwaitingReply. -/
theorem lineEvent_cases {x : Input} {s t : State} (h : lineEvent x s = some t) :
    (∃ b, t = readOn (receiveByte b s)) ∨ t = stall s ∨ (∃ b, t = readOn (arrive b s)) ∨ t = tickTimer s ∨ t = lineSent s ∨
      ∃ f, t = stall (receiveBytes f s) := by
  unfold lineEvent at h
  split at h <;> cases h
  exacts [.inl ⟨_, rfl⟩, .inr (.inl rfl), .inr (.inr (.inl ⟨_, rfl⟩)), .inr (.inr (.inr (.inl rfl))),
    .inr (.inr (.inr (.inr (.inl rfl)))), .inr (.inr (.inr (.inr (.inr ⟨_, rfl⟩))))]

/-- The read loop over a reply given byte by byte and the stall after it (R208, R214). -/
theorem awaitReply_answers (bs : List Byte) (rest : List Input) (s : State) (h : s.phase = .awaitingReply) :
    awaitReply (bs.map (fun b => Input.answer (.byte b)) ++ .answer .timeout :: rest) s
      = withInputs rest (stall (receiveBytes bs s)) := by
  induction bs generalizing s with
  | nil =>
    have hp : (stall s).phase ≠ .awaitingReply := by
      rcases stall_cases s with ⟨_, e⟩ | ⟨_, e⟩ <;> rw [e]
      · intro hh; cases hh
      · intro hh; cases hh
    simp only [List.map_nil, List.nil_append, awaitReply, h, if_true, lineEvent, receiveBytes_nil]
    cases rest with
    | nil => rfl
    | cons x rest => simp only [awaitReply, hp, if_false]
  | cons b bs ih =>
    simp only [List.map_cons, List.cons_append, awaitReply, h, if_true, lineEvent, receiveBytes_cons]
    rw [readOn_of_idle (by rw [receiveByte_phase, h]) (receiveByte_reading b s)]
    exact ih _ (by rw [issueRead_phase, receiveByte_phase, h])

/-! ### Decoding -/

theorem checked_ok {x : Received} {k : Result} {data : List Word} (h : checked x k = .ok data) :
    commonFailure x = none ∧ k = .ok data := by
  unfold checked at h
  split at h
  · cases h
  · exact ⟨by assumption, h⟩

theorem decBits_ok {f : List Byte} {n qty : Nat} {data : List Word} (h : decBits f n qty = .ok data) :
    data.length = qty := by
  unfold decBits at h
  dsimp only at h
  split at h
  · cases h
  · split at h <;> cases h
    simp

theorem decRegs_ok {f : List Byte} {n qty : Nat} {data : List Word} (h : decRegs f n qty = .ok data) :
    data.length = qty := by
  unfold decRegs at h
  dsimp only at h
  split at h
  · cases h
  · split at h <;> cases h
    simp

theorem decEcho_ok {f : List Byte} {n : Nat} {a b : Word} {data : List Word} (h : decEcho f n a b = .ok data) :
    data = [] := by
  unfold decEcho at h
  split at h
  · cases h
  · split at h
    · cases h
    · split at h <;> cases h
      rfl

/-- How many entries the result of an operation has: the requested quantity of a read, none for a write (R191). -/
def resultCount (op : Op) (r : Latched) : Nat :=
  match op with
  | .readCoils => r.count.toNat
  | .readDiscreteInputs => r.count.toNat
  | .readHoldingRegisters => r.count.toNat
  | .readInputRegisters => r.count.toNat
  | .writeSingleCoil => 0
  | .writeSingleRegister => 0
  | .writeMultipleCoils => 0
  | .writeMultipleRegisters => 0

/-- A successful decode is never shorter or longer than what was requested (R191). -/
theorem decodeFor_ok {op : Op} {x : Received} {data : List Word} (h : decodeFor op x = .ok data) :
    data.length = resultCount op x.req := by
  cases op
  · exact decBits_ok (checked_ok h).2
  · exact decBits_ok (checked_ok h).2
  · exact decRegs_ok (checked_ok h).2
  · exact decRegs_ok (checked_ok h).2
  all_goals exact congrArg List.length (decEcho_ok (checked_ok h).2)

/-- A successful decode of an admitted request fits RBUF (R62, R193 item 4). -/
theorem decodeFor_ok_le {op : Op} {x : Received} {data : List Word} (h : decodeFor op x = .ok data)
    (hc : ∀ c, ceiling op = some c → x.req.count.toNat ≤ c.toNat) : data.length ≤ Config.rCap := by
  rw [decodeFor_ok h]
  cases op
  · exact hc 2000 rfl
  · exact hc 2000 rfl
  · exact (hc 125 rfl).trans (by decide)
  · exact (hc 125 rfl).trans (by decide)
  all_goals exact Nat.zero_le _

theorem conclude_cases {r : Result} {s : State} :
    (∃ f, r = .failed f ∧ conclude r s = .next (fail f s)) ∨
      (∃ data, r = .ok data ∧ data.length ≤ Config.rCap ∧ conclude r s = .next (finish (.ok data) s)) ∨
      (∃ data, r = .ok data ∧ Config.rCap < data.length ∧ conclude r s = .fault .resultOverrun) := by
  cases r with
  | failed f => exact .inl ⟨f, rfl, rfl⟩
  | ok data =>
    by_cases h : Config.rCap < data.length
    · exact .inr (.inr ⟨data, rfl, h, if_pos h⟩)
    · exact .inr (.inl ⟨data, rfl, Nat.le_of_not_lt h, if_neg h⟩)

/-- The end of Decoding: the verdict recorded, whatever it is (R210 to R212). -/
theorem decodeMove_next {s t : State} (h : decodeMove s = .next t) :
    ∃ op r, opOfCode s.req.func = some op ∧ r = decodeFor op (received s) ∧
      (∀ data, r = .ok data → data.length ≤ Config.rCap) ∧
      t = finish r { s with crc := crcAfterDecode (received s) s.crc } := by
  unfold decodeMove at h
  split at h
  · cases h
  · rename_i op hop
    refine ⟨op, _, hop, rfl, ?_⟩
    rcases conclude_cases (r := decodeFor op (received s))
        (s := { s with crc := crcAfterDecode (received s) s.crc }) with ⟨f, e, hn⟩ | ⟨d, e, hd, hn⟩ | ⟨d, e, _, hn⟩
    · rw [hn] at h; cases h; rw [e]; exact ⟨fun _ he => (nomatch he), rfl⟩
    · rw [hn] at h; cases h; rw [e]; exact ⟨fun _ he => by cases he; exact hd, rfl⟩
    · rw [hn] at h; cases h

/-- With an admitted request the decode move does not stop (R177). -/
theorem decodeMove_completes {s : State} {op : Op} (hop : opOfCode s.req.func = some op)
    (hc : ∀ c, ceiling op = some c → s.req.count.toNat ≤ c.toNat) :
    decodeMove s
      = .next (finish (decodeFor op (received s)) { s with crc := crcAfterDecode (received s) s.crc }) := by
  unfold decodeMove
  rw [hop]
  dsimp only
  rcases conclude_cases (r := decodeFor op (received s))
      (s := { s with crc := crcAfterDecode (received s) s.crc }) with ⟨f, e, hn⟩ | ⟨d, e, _, hn⟩ | ⟨d, e, hd, _⟩
  · rw [hn, e]; rfl
  · rw [hn, e]
  · exact absurd (decodeFor_ok_le e hc) (by omega)

/-! ### The whole transaction -/

/-- The state in which the decoder runs: after an accepted `Start` of operation `op` in `s`, the send, and the reply
`bs` with the stall after it (R203 to R209). -/
def replyReceived (op : Op) (bs : List Byte) (rest : List Input) (s : State) : State :=
  { receiveBytes bs (sendRequest (latchAndEncode op (clearDone s))) with
    ibt := 0, reading := false, phase := .decoding, inputs := rest }

/-- The transaction against a reply of at least one byte, given byte by byte with the stall after it (R214). -/
theorem transact_answers {op : Op} {bs : List Byte} {rest : List Input} {s : State} (hb : bs ≠ [])
    (hv : violatedBound s.cfg op (countOperand s) = none)
    (hi : s.inputs = bs.map (fun b => Input.answer (.byte b)) ++ .answer .timeout :: rest) :
    transact op s = decodeMove (replyReceived op bs rest s) := by
  have ha : accept op s = latchAndEncode op (clearDone s) := by unfold accept; rw [hv]
  have hw : (sendRequest (latchAndEncode op (clearDone s))).phase = .awaitingReply := rfl
  have hn : (receiveBytes bs (sendRequest (latchAndEncode op (clearDone s)))).rxLen ≠ 0 := by
    rw [receiveBytes_rxLen, sendRequest_rxLen, Nat.zero_add]
    exact fun h => hb (List.length_eq_zero_iff.1 h)
  have hs : stall (receiveBytes bs (sendRequest (latchAndEncode op (clearDone s))))
      = { receiveBytes bs (sendRequest (latchAndEncode op (clearDone s))) with
          ibt := 0, reading := false, phase := .decoding } := by
    unfold stall
    rw [if_neg hn]
  have hin : (latchAndEncode op (clearDone s)).inputs
      = bs.map (fun b => Input.answer (.byte b)) ++ .answer .timeout :: rest := hi
  unfold transact
  rw [ha]
  dsimp only
  rw [if_pos (latchAndEncode_phase op (clearDone s)), hin, awaitReply_answers bs rest _ hw, hs]
  rfl

/-- A multiple write's call goes through the block, or is the host-side wrapper's ParameterError (R125). -/
theorem callMultiple_cases (op : Op) (u : Byte) (a : Word) (vs : List Word) (s : State) :
    (vs.length ≤ Config.vCap ∧ callMultiple op u a vs s = callOperation op (loadMultiple op u a vs) s) ∨
      (Config.vCap < vs.length ∧ ∃ bound, callMultiple op u a vs s = .next (emit [.wrapperError bound vs.length] s)) := by
  unfold callMultiple
  by_cases h : Config.vCap < vs.length
  · exact .inr ⟨h, _, if_pos h⟩
  · exact .inl ⟨Nat.le_of_not_lt h, if_neg h⟩

/-! ### The buffers keep their canonical form -/

theorem memWf_resultBuffer {m : Memory 16} (h : memWf m) (r : Result) : memWf (resultBuffer m r) := by
  cases r with
  | ok data => exact memWf_memWrite h _ _
  | failed f => exact h

theorem memBelow_resultBuffer {m : Memory 16} (h : memBelow Config.rCap m) {r : Result}
    (hr : ∀ data, r = .ok data → data.length ≤ Config.rCap) : memBelow Config.rCap (resultBuffer m r) := by
  cases r with
  | ok data => exact memBelow_memWrite h (by have := hr data rfl; omega)
  | failed f => exact h

/-- After reset every buffer is canonical. -/
theorem memWf_reset (p : Config.Params) :
    memWf (State.resetWith p).txBuf ∧ memWf (State.resetWith p).rxBuf ∧ memWf (State.resetWith p).vbuf ∧
      memWf (State.resetWith p).rbuf :=
  ⟨List.Pairwise.nil, List.Pairwise.nil, List.Pairwise.nil, List.Pairwise.nil⟩

end Sys2Proof.Machine
end

