-- ==== Sys2Proof/Laws/Step.lean ====
section
/-! SUPPORT. What one step can do, said once, and one induction principle for every property that each transition of
the block keeps. -/

namespace Sys2Proof.Machine

/-! ### One step -/

theorem consumeNext_cons (x : Input) (rest : List Input) (s : State) (h : s.inputs = x :: rest) :
    consumeNext s = consume x (withInputs rest s) := by
  unfold consumeNext
  rw [h]

/-- A step is the block's own move, or the consumption of the next event, or, with none to come, an endless answer or
waiting (R7, R295, R274). -/
theorem step_cases {s : State} :
    (landsEarly s.inputs = false ∧ ∃ o, ownMove s = some o ∧ step s = o) ∨
      (∃ x rest, s.inputs = x :: rest ∧ step s = consume x (withInputs rest s) ∧
        (landsEarly s.inputs = true ∨ ownMove s = none)) ∨
      (s.inputs = [] ∧ ownMove s = none ∧ step s = .next (receiveEndless s)) := by
  unfold step stepOnce
  cases he : landsEarly s.inputs with
  | true =>
    cases hi : s.inputs with
    | nil => rw [hi] at he; cases he
    | cons x rest => exact .inr (.inl ⟨x, rest, rfl, consumeNext_cons x rest s hi, .inl rfl⟩)
  | false =>
    cases ho : ownMove s with
    | some o => exact .inl ⟨rfl, o, rfl, rfl⟩
    | none =>
      cases hi : s.inputs with
      | nil => exact .inr (.inr ⟨rfl, rfl, by simp [consumeNext, hi]⟩)
      | cons x rest => exact .inr (.inl ⟨x, rest, rfl, consumeNext_cons x rest s hi, .inr rfl⟩)

/-- The block waits in Idle, and in AwaitingReply for the answer to an outstanding read with no byte at hand (R200,
R208). -/
theorem ownMove_eq_none_iff {s : State} :
    ownMove s = none ↔ s.phase = .idle ∨ (s.phase = .awaitingReply ∧ s.reading = true ∧ s.line.inBuf = []) := by
  unfold ownMove
  cases hp : s.phase <;> cases hr : s.reading <;> simp

/-- The next event is consumed where the block has no move of its own. -/
theorem step_consume {s : State} {x : Input} {rest : List Input} (hi : s.inputs = x :: rest)
    (h : s.phase = .idle ∨ (s.phase = .awaitingReply ∧ s.reading = true ∧ s.line.inBuf = [])) :
    step s = consume x (withInputs rest s) := by
  have ho : ownMove s = none := ownMove_eq_none_iff.2 h
  unfold step stepOnce
  rw [ho, consumeNext_cons x rest s hi]
  exact ite_self _

/-- The same, of a state whose events are written out. -/
theorem step_inputs (s : State) (x : Input) (rest : List Input)
    (h : s.phase = .idle ∨ (s.phase = .awaitingReply ∧ s.reading = true ∧ s.line.inBuf = [])) :
    step (withInputs (x :: rest) s) = consume x (withInputs rest s) :=
  step_consume (s := withInputs (x :: rest) s) rfl h

/-- A move of the block's asked for is made, and the events after it stand; where the block has none nothing else
happens. -/
theorem step_asked (s : State) (rest : List Input) :
    step (withInputs (.own :: rest) s) = (ownMove (withInputs rest s)).getD (.next (withInputs rest s)) := rfl

/-- A packet that decodes is run as the instruction it decodes to. -/
theorem consumePacket_decoded {p : Packet} {i : Instr} (h : decode p = .ok i) (s : State) :
    consumePacket p s = exec i s := by
  unfold consumePacket
  rw [h]

theorem run_zero (s : State) : core.run 0 s = .next s := rfl

theorem run_succ (k : Nat) {s t : State} (h : step s = .next t) : core.run (k + 1) s = core.run k t := by
  have h' : core.step s = .next t := h
  simp only [Host.Core.run, h']

/-- A run goes on from where a run has ended. -/
theorem run_add {j : Nat} (k : Nat) {s t : State} (h : core.run j s = .next t) :
    core.run (j + k) s = core.run k t := by
  induction j generalizing s with
  | zero => cases h; rw [Nat.zero_add]
  | succ j ih =>
    have hu : ∃ u, step s = .next u := by
      cases hs : step s with
      | next u => exact ⟨u, rfl⟩
      | fault r => have hs' : core.step s = .fault r := hs; simp only [Host.Core.run, hs'] at h; cases h
      | refused r => have hs' : core.step s = .refused r := hs; simp only [Host.Core.run, hs'] at h; cases h
    obtain ⟨u, hu⟩ := hu
    rw [run_succ j hu] at h
    rw [Nat.succ_add, run_succ (j + k) hu]
    exact ih h

/-- The block's own move, where no event lands before it. -/
theorem step_own {s : State} {o : Outcome} (he : landsEarly s.inputs = false) (ho : ownMove s = some o) :
    step s = o := by
  unfold step stepOnce
  rw [he, ho]
  rfl

/-- The block's own moves (R200, R208, R262). -/
theorem ownMove_cases {s : State} {o : Outcome} (h : ownMove s = some o) :
    (s.phase = .sending ∧ o = .next (sendStep s)) ∨
      (s.phase = .awaitingReply ∧ s.reading = false ∧ o = .next (issueRead s)) ∨
      (s.phase = .awaitingReply ∧ s.reading = true ∧ s.line.inBuf ≠ [] ∧ o = .next (takeWaiting s)) ∨
      (s.phase = .decoding ∧ o = decodeMove s) ∨ (s.phase = .failed ∧ o = .next (leaveFailed s)) := by
  unfold ownMove at h
  split at h
  · cases h
  · rename_i hp; cases h; exact .inl ⟨hp, rfl⟩
  · rename_i hp
    split at h
    · rename_i hr; cases h; exact .inr (.inl ⟨hp, hr, rfl⟩)
    · rename_i hr
      split at h
      · cases h
      · rename_i hb; cases h; exact .inr (.inr (.inl ⟨hp, by simpa using hr, hb, rfl⟩))
  · rename_i hp; cases h; exact .inr (.inr (.inr (.inl ⟨hp, rfl⟩)))
  · rename_i hp; cases h; exact .inr (.inr (.inr (.inr ⟨hp, rfl⟩)))

/-! ### The host's accesses -/

/-- What a host read answers: the state with the value emitted (R40, R71). -/
theorem hostRead_next {reg : Word} {s t : State} (h : hostRead reg s = .next t) :
    ∃ v n, t = { s with out := s.out ++ [.data reg v], draws := n } := by
  have hr : ∀ {w : Nat} (v : BitVec w), ∃ v' n, answerResult reg v s
      = { s with out := s.out ++ [.data reg v'], draws := n } := fun v => by
    unfold answerResult
    split
    · exact ⟨_, _, rfl⟩
    · exact ⟨_, _, rfl⟩
  unfold hostRead at h
  split at h <;> first
    | (cases h; exact hr _)
    | (cases h; exact ⟨_, s.draws, rfl⟩)
    | cases h
    | skip
  rename_i hreg
  obtain ⟨-, rfl⟩ := whenIdle_next h
  refine ⟨(hostCrc s).toNat, s.draws, ?_⟩
  have h14 : reg = 0x14 := by
    apply BitVec.eq_of_toNat_eq
    unfold registerAt lowRegister at hreg
    dsimp only at hreg
    split at hreg
    · split at hreg <;> first | (cases hreg; assumption) | cases hreg
    · split at hreg
      · cases hreg
      · split at hreg
        · cases hreg
        · split at hreg <;> cases hreg
  rw [h14]
  rfl

/-- The entry of VBUF a number names lies inside VBUF (R40). -/
theorem registerAt_vbuf {reg : Word} {i : Nat} (h : registerAt reg = some (.vbuf i)) : i < Config.vCap := by
  unfold registerAt lowRegister at h
  dsimp only at h
  split at h
  · split at h <;> cases h
  · split at h
    · rename_i h1 h2; injection h with h; injection h with h; omega
    · split at h
      · cases h
      · split at h <;> cases h

/-! ### Properties that every transition keeps -/

/-- `P` is kept by every event of the Line's and by the arrival and removal of events. -/
structure LineKeeps (P : State → Prop) : Prop where
  byte : ∀ s b, s.phase = .awaitingReply → P s → P (receiveByte b s)
  issue : ∀ s, s.phase = .awaitingReply → P s → P (issueRead s)
  stall : ∀ s, s.phase = .awaitingReply → P s → P (stall s)
  line : ∀ s l, P s → P { s with line := l }
  count : ∀ s, P s → P { s with ibt := countDown s.ibt }
  inputs : ∀ s l, P s → P (withInputs l s)
  endless : ∀ s n, P s → P { s with endless := n }

namespace LineKeeps

variable {P : State → Prop} (k : LineKeeps P)
include k

theorem receiveBytes (bs : List Byte) {s : State} (h : s.phase = .awaitingReply) (hp : P s) :
    P (receiveBytes bs s) := by
  induction bs generalizing s with
  | nil => exact hp
  | cons b bs ih => exact ih h (k.issue _ h (k.byte s b h hp))

theorem readOn {s : State} (hp : P s) : P (readOn s) := by
  unfold Machine.readOn
  split
  · rename_i h; exact k.issue s h.1 hp
  · exact hp

theorem arrive (b : Byte) {s : State} (hp : P s) : P (arrive b s) := by
  unfold Machine.arrive
  split
  · rename_i h; exact k.byte s b (awaitsAnswer_iff.1 (Bool.and_eq_true_iff.1 h).1).1 hp
  · exact k.line s _ hp

theorem tickTimer {s : State} (hp : P s) : P (tickTimer s) := by
  unfold Machine.tickTimer
  split
  · rename_i h
    split
    · exact k.stall s (awaitsAnswer_iff.1 h).1 hp
    · exact k.count s hp
  · exact hp

theorem takeWaiting {s : State} (h : s.phase = .awaitingReply) (hp : P s) : P (takeWaiting s) := by
  unfold Machine.takeWaiting
  split
  · exact hp
  · exact k.byte _ _ h (k.line s _ hp)

theorem receiveEndless {s : State} (hp : P s) : P (receiveEndless s) := by
  unfold Machine.receiveEndless
  split
  · exact hp
  · split
    · rename_i h; exact k.byte _ _ (awaitsAnswer_iff.1 h).1 (k.endless s _ hp)
    · exact hp

theorem lineEvent {x : Input} {s t : State} (h : s.phase = .awaitingReply) (hx : lineEvent x s = some t) (hp : P s) :
    P t := by
  rcases lineEvent_cases hx with ⟨b, rfl⟩ | rfl | ⟨b, rfl⟩ | rfl | rfl | ⟨f, rfl⟩
  · exact k.readOn (k.byte s b h hp)
  · exact k.stall s h hp
  · exact k.readOn (k.arrive b hp)
  · exact k.tickTimer hp
  · exact k.line s _ hp
  · exact k.stall _ (by rw [receiveBytes_phase, h]) (k.receiveBytes f h hp)

theorem awaitReply (xs : List Input) {s : State} (hp : P s) : P (awaitReply xs s) := by
  induction xs generalizing s with
  | nil => exact k.inputs s _ hp
  | cons x rest ih =>
    unfold Machine.awaitReply
    split
    · rename_i h
      split
      · rename_i t hx; exact ih (k.lineEvent h hx hp)
      · exact k.inputs s _ hp
    · exact k.inputs s _ hp

end LineKeeps

/-- `P` is kept by every transition of the block. -/
structure StepKeeps (P : State → Prop) : Prop extends LineKeeps P where
  discardIn : ∀ s, s.phase = .sending → P s → P (discardIn s)
  discardOut : ∀ s, s.phase = .sending → P s → P (discardOut s)
  write : ∀ s, s.phase = .sending → P s → P (writeRequest s)
  decode : ∀ s t, s.phase = .decoding → decodeMove s = .next t → P s → P t
  leave : ∀ s, s.phase = .failed → P s → P (leaveFailed s)
  accept : ∀ s op, s.phase = .idle → opOfCode (funcOperand s) = some op → P s → P (accept op s)
  operands : ∀ s c w, s.phase = .idle → P s → P { s with cmd := c, written := w }
  entry : ∀ s i v, s.phase = .idle → i < Config.vCap → P s → P (setVbuf i v s)
  values : ∀ s vs, s.phase = .idle → P s → P (loadVbuf vs s)
  timeout : ∀ s t, s.phase = .idle → P s → P (setTimer t s)
  port : ∀ s c o, s.phase = .idle → P s → P { s with crc := c, crcOwned := o }
  read : ∀ s reg v n, P s → P { s with out := s.out ++ [.data reg v], draws := n }
  wrapper : ∀ s bound n, P s → P (emit [.wrapperError bound n] s)
  noCall : ∀ s why, P s → P (emit [.noCall why] s)
  reset : ∀ s, P s → P (resetBlock s)

namespace StepKeeps

variable {P : State → Prop} (k : StepKeeps P)
include k

theorem sendStep {s : State} (h : s.phase = .sending) (hp : P s) : P (sendStep s) := by
  rcases sendStep_cases s with ⟨-, e⟩ | ⟨-, e⟩ | ⟨-, e⟩ <;> rw [e]
  · exact k.discardIn s h hp
  · exact k.discardOut s h hp
  · exact k.write s h hp

theorem sendRequest {s : State} (h : s.phase = .sending) (hp : P s) : P (sendRequest s) :=
  k.issue _ rfl (k.write _ h (k.discardOut _ h (k.discardIn s h hp)))

theorem afterAwait {s t : State} (h : afterAwait s = .next t) (hp : P s) : P t := by
  unfold Machine.afterAwait at h
  split at h
  · rename_i hd; exact k.decode s t hd h hp
  · cases h; exact hp

theorem deliverReply {f : List Byte} {s t : State} (h : deliverReply f s = .next t) (hp : P s) : P t := by
  unfold Machine.deliverReply at h
  split at h
  · rename_i ha
    dsimp only at h
    have hr : (Machine.readOn { s with line := { s.line with inBuf := [] } }).phase = .awaitingReply := by
      rw [readOn_phase]; exact ha
    have hs := k.stall _ (by rw [receiveBytes_phase]; exact hr)
      (k.toLineKeeps.receiveBytes (s.line.inBuf ++ f) hr (k.toLineKeeps.readOn (k.line s _ hp)))
    split at h
    · rename_i hd; exact k.decode _ t hd h hs
    · cases h; exact hs
  · cases h; exact k.line s _ hp

theorem startOperation {s t : State} (h : startOperation s = .next t) (hp : P s) : P t := by
  obtain ⟨hi, op, hop, rfl⟩ := startOperation_next h
  exact k.accept s op hi hop hp

theorem transact {op : Op} {s t : State} (hi : s.phase = .idle) (hop : opOfCode (funcOperand s) = some op)
    (h : transact op s = .next t) (hp : P s) : P t := by
  unfold Machine.transact at h
  dsimp only at h
  have ha := k.accept s op hi hop hp
  split at h
  · rename_i hs
    exact k.afterAwait h (k.toLineKeeps.awaitReply _ (k.sendRequest hs ha))
  · cases h; exact ha

theorem callOperation {op : Op} {load : State → State} {s t : State} (h : callOperation op load s = .next t)
    (hl : s.phase = .idle → (load s).phase = .idle ∧ opOfCode (funcOperand (load s)) = some op ∧ P (load s)) :
    P t := by
  unfold Machine.callOperation at h
  split at h
  · cases h
  · rename_i hb
    obtain ⟨h1, h2, h3⟩ := hl (busy_eq_false_iff.1 (by simpa using hb))
    exact k.transact h1 h2 h h3

theorem callRead {op : Op} {u : Byte} {a q : Word} {s t : State}
    (h : Machine.callOperation op (loadRead op u a q) s = .next t) (hp : P s) : P t :=
  k.callOperation h fun hi => ⟨hi, by simp, k.operands s _ _ hi hp⟩

theorem callSingle {op : Op} {u : Byte} {a v : Word} {s t : State}
    (h : Machine.callOperation op (loadSingle op u a v) s = .next t) (hp : P s) : P t :=
  k.callOperation h fun hi => ⟨hi, by simp, k.operands s _ _ hi hp⟩

theorem callMultiple {op : Op} {u : Byte} {a : Word} {vs : List Word} {s t : State}
    (h : Machine.callMultiple op u a vs s = .next t) (hp : P s) : P t := by
  rcases callMultiple_cases op u a vs s with ⟨-, e⟩ | ⟨-, bound, e⟩ <;> rw [e] at h
  · exact k.callOperation h fun hi => ⟨hi, by simp, k.values _ vs hi (k.operands s _ _ hi hp)⟩
  · cases h; exact k.wrapper s _ _ hp

theorem exec {i : Instr} {s t : State} (h : exec i s = .next t) (hp : P s) : P t := by
  cases i with
  | readCoils u a q => exact k.callRead h hp
  | readDiscreteInputs u a q => exact k.callRead h hp
  | readHoldingRegisters u a q => exact k.callRead h hp
  | readInputRegisters u a q => exact k.callRead h hp
  | writeSingleCoil u a on => exact k.callSingle h hp
  | writeSingleRegister u a v => exact k.callSingle h hp
  | writeMultipleCoils u a vs => exact k.callMultiple h hp
  | writeMultipleRegisters u a vs => exact k.callMultiple h hp
  | readCoilsReply u n d c => exact k.deliverReply h hp
  | readDiscreteInputsReply u n d c => exact k.deliverReply h hp
  | readHoldingRegistersReply u n d c => exact k.deliverReply h hp
  | readInputRegistersReply u n d c => exact k.deliverReply h hp
  | writeSingleCoilReply u a v c => exact k.deliverReply h hp
  | writeSingleRegisterReply u a v c => exact k.deliverReply h hp
  | writeMultipleCoilsReply u a q c => exact k.deliverReply h hp
  | writeMultipleRegistersReply u a q c => exact k.deliverReply h hp
  | exceptionReply u f e x c => exact k.deliverReply h hp
  | crcSeed => obtain ⟨hi, rfl⟩ := whenIdle_next h; exact k.port s _ _ hi hp
  | crcByte b => obtain ⟨hi, rfl⟩ := whenIdle_next h; exact k.port s _ _ hi hp
  | crcRead => obtain ⟨hi, rfl⟩ := whenIdle_next h; exact k.read s _ _ s.draws hp
  | setTimeout v => obtain ⟨hi, rfl⟩ := whenIdle_next h; exact k.timeout s _ hi hp
  | start go =>
    have h' : (if go then Machine.startOperation s else .next s) = .next t := h
    split at h'
    · exact k.startOperation h' hp
    · cases h'; exact hp

theorem hostWrite {reg : Word} {d : HostWord} {s t : State} (h : hostWrite reg d s = .next t) (hp : P s) : P t := by
  unfold Machine.hostWrite at h
  split at h
  case h_1 => cases h
  case h_2 => obtain ⟨hi, rfl⟩ := whenIdle_next h; exact k.operands s _ _ hi hp
  case h_3 => obtain ⟨hi, rfl⟩ := whenIdle_next h; exact k.operands s _ _ hi hp
  case h_4 => obtain ⟨hi, rfl⟩ := whenIdle_next h; exact k.operands s _ _ hi hp
  case h_5 => obtain ⟨hi, rfl⟩ := whenIdle_next h; exact k.operands s _ _ hi hp
  case h_6 => obtain ⟨hi, rfl⟩ := whenIdle_next h; exact k.operands s _ _ hi hp
  case h_7 =>
    split at h
    · exact k.startOperation h hp
    · cases h; exact hp
  case h_8 => obtain ⟨hi, rfl⟩ := whenIdle_next h; exact k.timeout s _ hi hp
  case h_9 => obtain ⟨hi, rfl⟩ := whenIdle_next h; exact k.port s _ _ hi hp
  case h_10 => obtain ⟨hi, rfl⟩ := whenIdle_next h; exact k.port s _ _ hi hp
  case h_11 hreg => obtain ⟨hi, rfl⟩ := whenIdle_next h; exact k.entry s _ _ hi (registerAt_vbuf hreg) hp
  all_goals cases h

theorem consumePacket {p : Packet} {s t : State} (h : consumePacket p s = .next t) (hp : P s) : P t := by
  unfold Machine.consumePacket at h
  split at h
  · exact k.exec h hp
  · unfold unlisted at h
    split at h
    · exact k.hostWrite h hp
    · obtain ⟨v, n, rfl⟩ := hostRead_next h; exact k.read s _ v n hp
    · exact k.deliverReply h hp
    · split at h
      · cases h
      · cases h; exact k.noCall s _ hp

theorem ownMove {s t : State} (h : ownMove s = some (.next t)) (hp : P s) : P t := by
  rcases ownMove_cases h with ⟨hp', e⟩ | ⟨hp', -, e⟩ | ⟨hp', -, -, e⟩ | ⟨hp', e⟩ | ⟨hp', e⟩
  · cases e; exact k.sendStep hp' hp
  · cases e; exact k.issue s hp' hp
  · cases e; exact k.takeWaiting hp' hp
  · exact k.decode s t hp' e.symm hp
  · cases e; exact k.leave s hp' hp

theorem consume {x : Input} {s t : State} (h : consume x s = .next t) (hp : P s) : P t := by
  unfold Machine.consume at h
  split at h
  · exact k.consumePacket h hp
  · exact k.consumePacket h hp
  · cases ho : Machine.ownMove s with
    | none => rw [ho] at h; cases h; exact hp
    | some o => rw [ho] at h; cases h; exact k.ownMove ho hp
  · split at h
    · rename_i ha; cases h; exact k.byte s _ (awaitsAnswer_iff.1 ha).1 hp
    · cases h
  · split at h
    · rename_i ha; cases h; exact k.stall s (awaitsAnswer_iff.1 ha).1 hp
    · cases h
  · cases h; exact k.arrive _ hp
  · cases h; exact k.tickTimer hp
  · cases h; exact k.line s _ hp
  · cases h; exact k.reset s hp

/-- What every transition keeps, every step keeps. -/
theorem step {s t : State} (h : step s = .next t) (hp : P s) : P t := by
  rcases step_cases (s := s) with ⟨-, o, ho, hs⟩ | ⟨x, rest, -, hs, -⟩ | ⟨-, -, hs⟩
  · rw [hs] at h
    exact k.ownMove (h ▸ ho) hp
  · rw [hs] at h
    exact k.consume h (k.inputs s rest hp)
  · rw [hs] at h; cases h; exact k.toLineKeeps.receiveEndless hp

end StepKeeps

end Sys2Proof.Machine
end

