-- ==== Sys2Proof/Laws/Host.lean ====
section
/-! SUPPORT. The register map number by number, and which accesses are instructions (R40, R110). -/

namespace Sys2Proof.Machine

/-! ### The map -/

theorem registerAt_low {reg : Word} (h : reg.toNat < 0x1000) : registerAt reg = lowRegister reg.toNat := by
  unfold registerAt
  exact if_pos h

theorem registerAt_vbufWindow {reg : Word} (h1 : 0x1000 ≤ reg.toNat) (h2 : reg.toNat < 0x1000 + Config.vCap) :
    registerAt reg = some (.vbuf (reg.toNat - 0x1000)) := by
  unfold registerAt
  dsimp only
  rw [if_neg (Nat.not_lt.2 h1), if_pos h2]

theorem registerAt_gap {reg : Word} (h1 : 0x1000 + Config.vCap ≤ reg.toNat) (h2 : reg.toNat < 0x2000) :
    registerAt reg = none := by
  unfold registerAt
  dsimp only
  rw [if_neg (Nat.not_lt.2 ((Nat.le_add_right _ _).trans h1)), if_neg (Nat.not_lt.2 h1), if_pos h2]

theorem registerAt_rbufWindow {reg : Word} (h1 : 0x2000 ≤ reg.toNat) (h2 : reg.toNat < 0x2000 + Config.rCap) :
    registerAt reg = some (.rbuf (reg.toNat - 0x2000)) := by
  unfold registerAt
  dsimp only
  have hv : 0x1000 + Config.vCap ≤ 0x2000 := by decide
  rw [if_neg (Nat.not_lt.2 (h1.trans' (by decide))), if_neg (Nat.not_lt.2 (h1.trans' hv)),
    if_neg (Nat.not_lt.2 h1), if_pos h2]

theorem registerAt_above {reg : Word} (h : 0x2000 + Config.rCap ≤ reg.toNat) : registerAt reg = none := by
  unfold registerAt
  dsimp only
  have hr : 0x2000 ≤ reg.toNat := (Nat.le_add_right _ _).trans h
  have hv : 0x1000 + Config.vCap ≤ 0x2000 := by decide
  rw [if_neg (Nat.not_lt.2 (hr.trans' (by decide))), if_neg (Nat.not_lt.2 (hr.trans' hv)),
    if_neg (Nat.not_lt.2 hr), if_neg (Nat.not_lt.2 h)]

theorem lowRegister_reserved {n : Nat} (h : 0x15 ≤ n) : lowRegister n = none := by
  unfold lowRegister
  split <;> first | rfl | omega

/-! ### Which accesses are instructions (R110) -/

theorem decode_read_plain {reg : Word} (h : reg.toNat ≠ 0x14) : decode (.read reg) = .error .plainAccess := by
  unfold decode decodeRead
  dsimp only
  split
  · contradiction
  · rfl

theorem decode_write_plain {reg : Word} (d : HostWord) (h05 : reg.toNat ≠ 0x05) (h07 : reg.toNat ≠ 0x07)
    (h12 : reg.toNat ≠ 0x12) (h13 : reg.toNat ≠ 0x13) : decode (.write reg d) = .error .plainAccess := by
  unfold decode decodeWrite
  dsimp only
  split <;> first | contradiction | rfl

/-- An access that is an instruction is the same operation as the access (R110). -/
theorem consumePacket_read (reg : Word) (s : State) : consumePacket (.read reg) s = hostRead reg s := by
  by_cases h : reg.toNat = 0x14
  · have : reg = 0x14 := BitVec.eq_of_toNat_eq h
    rw [this]; rfl
  · unfold consumePacket
    rw [decode_read_plain h]
    rfl

theorem consumePacket_write (reg : Word) (d : HostWord) (s : State) :
    consumePacket (.write reg d) s = hostWrite reg d s := by
  by_cases h05 : reg.toNat = 0x05
  · have : reg = 0x05 := BitVec.eq_of_toNat_eq h05
    rw [this]; rfl
  by_cases h07 : reg.toNat = 0x07
  · have : reg = 0x07 := BitVec.eq_of_toNat_eq h07
    rw [this]; rfl
  by_cases h12 : reg.toNat = 0x12
  · have : reg = 0x12 := BitVec.eq_of_toNat_eq h12
    rw [this]; rfl
  by_cases h13 : reg.toNat = 0x13
  · have : reg = 0x13 := BitVec.eq_of_toNat_eq h13
    rw [this]; rfl
  unfold consumePacket
  rw [decode_write_plain d h05 h07 h12 h13]
  rfl

end Sys2Proof.Machine
end

