-- ==== Sys2Proof/Laws/PerInstr.lean ====
section
/-! SUPPORT. For every instruction: the words it is encoded in are selected by its row of spec/opcode_table.json (R91,
R110, R111). -/

namespace Sys2Proof.Laws.TableRow

open Machine

/-- What a row of the table selects: the frames of one direction whose first two bytes match under a mask (R91), or the
accesses to one register number (R110). -/
inductive Row where
  | request (mask value : Word)
  | reply (mask value : Word)
  | hostReg (isWrite : Bool) (reg : Word)
  deriving DecidableEq, Repr

/-- The match and mask of every row, copied from the table. -/
def row : Instr → Row
  | .readCoils _ _ _ => .request 0x00FF 0x0001
  | .readDiscreteInputs _ _ _ => .request 0x00FF 0x0002
  | .readHoldingRegisters _ _ _ => .request 0x00FF 0x0003
  | .readInputRegisters _ _ _ => .request 0x00FF 0x0004
  | .writeSingleCoil _ _ _ => .request 0x00FF 0x0005
  | .writeSingleRegister _ _ _ => .request 0x00FF 0x0006
  | .writeMultipleCoils _ _ _ => .request 0x00FF 0x000F
  | .writeMultipleRegisters _ _ _ => .request 0x00FF 0x0010
  | .readCoilsReply _ _ _ _ => .reply 0x00FF 0x0001
  | .readDiscreteInputsReply _ _ _ _ => .reply 0x00FF 0x0002
  | .readHoldingRegistersReply _ _ _ _ => .reply 0x00FF 0x0003
  | .readInputRegistersReply _ _ _ _ => .reply 0x00FF 0x0004
  | .writeSingleCoilReply _ _ _ _ => .reply 0x00FF 0x0005
  | .writeSingleRegisterReply _ _ _ _ => .reply 0x00FF 0x0006
  | .writeMultipleCoilsReply _ _ _ _ => .reply 0x00FF 0x000F
  | .writeMultipleRegistersReply _ _ _ _ => .reply 0x00FF 0x0010
  | .exceptionReply _ _ _ _ _ => .reply 0x0080 0x0080
  | .crcSeed => .hostReg true 0x12
  | .crcByte _ => .hostReg true 0x13
  | .crcRead => .hostReg false 0x14
  | .setTimeout _ => .hostReg true 0x07
  | .start _ => .hostReg true 0x05

/-- The row selects the packet: `(number & mask) = match` with the first two bytes as a big-endian number, or the
register number itself. -/
def Selects : Row → Packet → Prop
  | .request mask value, .call (u :: f :: _) => be16 u f &&& mask = value
  | .reply mask value, .reply (u :: f :: _) => be16 u f &&& mask = value
  | .hostReg true reg, .write r _ => r = reg
  | .hostReg false reg, .read r => r = reg
  | _, _ => False

def Statement (i : Instr) : Prop := i.wellFormed = true → Selects (row i) (encode i)

/-- Under the mask 0x00FF the second byte alone is left. -/
theorem function_byte (u f : Byte) : be16 u f &&& 0x00FF = f.setWidth 16 := by
  unfold be16
  ext i
  rcases Nat.lt_or_ge i 8 with h | h
  · interval_cases i <;> simp
  · interval_cases i <;> simp

/-- Under the mask 0x0080 bit 7 of the second byte alone is left. -/
theorem exception_bit (u : Byte) (func : BitVec 7) : be16 u (1#1 ++ func) &&& 0x0080 = 0x0080 := by
  have top : ∀ func : BitVec 7, (1#1 ++ func)[7] = true := by decide
  unfold be16
  ext i
  interval_cases i <;> simp [top]

theorem readCoils (u : Byte) (a q : Word) : Statement (.readCoils u a q) := fun _ => function_byte u 0x01

theorem readDiscreteInputs (u : Byte) (a q : Word) : Statement (.readDiscreteInputs u a q) :=
  fun _ => function_byte u 0x02

theorem readHoldingRegisters (u : Byte) (a q : Word) : Statement (.readHoldingRegisters u a q) :=
  fun _ => function_byte u 0x03

theorem readInputRegisters (u : Byte) (a q : Word) : Statement (.readInputRegisters u a q) :=
  fun _ => function_byte u 0x04

theorem writeSingleCoil (u : Byte) (a : Word) (on : Bool) : Statement (.writeSingleCoil u a on) :=
  fun _ => function_byte u 0x05

theorem writeSingleRegister (u : Byte) (a v : Word) : Statement (.writeSingleRegister u a v) :=
  fun _ => function_byte u 0x06

theorem writeMultipleCoils (u : Byte) (a : Word) (vs : List Bool) : Statement (.writeMultipleCoils u a vs) :=
  fun _ => function_byte u 0x0F

theorem writeMultipleRegisters (u : Byte) (a : Word) (vs : List Word) : Statement (.writeMultipleRegisters u a vs) :=
  fun _ => function_byte u 0x10

theorem readCoilsReply (u n : Byte) (d : List Byte) (c : Word) : Statement (.readCoilsReply u n d c) :=
  fun _ => function_byte u 0x01

theorem readDiscreteInputsReply (u n : Byte) (d : List Byte) (c : Word) :
    Statement (.readDiscreteInputsReply u n d c) :=
  fun _ => function_byte u 0x02

theorem readHoldingRegistersReply (u n : Byte) (d : List Byte) (c : Word) :
    Statement (.readHoldingRegistersReply u n d c) :=
  fun _ => function_byte u 0x03

theorem readInputRegistersReply (u n : Byte) (d : List Byte) (c : Word) :
    Statement (.readInputRegistersReply u n d c) :=
  fun _ => function_byte u 0x04

theorem writeSingleCoilReply (u : Byte) (a v c : Word) : Statement (.writeSingleCoilReply u a v c) :=
  fun _ => function_byte u 0x05

theorem writeSingleRegisterReply (u : Byte) (a v c : Word) : Statement (.writeSingleRegisterReply u a v c) :=
  fun _ => function_byte u 0x06

theorem writeMultipleCoilsReply (u : Byte) (a q c : Word) : Statement (.writeMultipleCoilsReply u a q c) :=
  fun _ => function_byte u 0x0F

theorem writeMultipleRegistersReply (u : Byte) (a q c : Word) : Statement (.writeMultipleRegistersReply u a q c) :=
  fun _ => function_byte u 0x10

theorem exceptionReply (u : Byte) (f : BitVec 7) (e : Byte) (x : List Byte) (c : Word) :
    Statement (.exceptionReply u f e x c) :=
  fun _ => exception_bit u f

theorem crcSeed : Statement .crcSeed := fun _ => rfl

theorem crcByte (b : Byte) : Statement (.crcByte b) := fun _ => rfl

theorem crcRead : Statement .crcRead := fun _ => rfl

theorem setTimeout (t : HostWord) : Statement (.setTimeout t) := fun _ => rfl

theorem start (go : Bool) : Statement (.start go) := fun _ => rfl

end Sys2Proof.Laws.TableRow
end

