-- ==== Sys2Proof/Tests/Slice0.lean ====
section
/-! SUPPORT. Tests. Every expected value is from a vector V<n> or an example of spec/ (95_test_vectors.md, 40_crc.md,
41_encode.md, 42_decode.md), named beside it; then, for every obligation with hypotheses, a state that meets them. -/

namespace Sys2Proof.Tests

open Machine Claims Safety

set_option Elab.async false

/-! ### States and readings -/

/-- After reset, with every operand register written by the host and T_CFG = 3. -/
def host (u f : Byte) (a c v : Word) : State :=
  { State.reset with
    cmd := { unit := u, func := f, addr := a, count := c, value := v }
    written := { unit := true, func := true, addr := true, count := true, value := true }
    tCfg := 3 }

/-- A read is outstanding for the request of function `f`; nothing has come yet. -/
def awaiting (f : Byte) (a c v : Word) : State :=
  { host 1 f a c v with
    phase := .awaitingReply
    reading := true
    req := { unit := 1, func := f, addr := a, count := c, value := v }
    ibt := 3 }

/-- The decoder is about to run on the bytes `bs` for the request of function `f`. -/
def decodingOf (f : Byte) (a c v : Word) (bs : List Byte) : State :=
  { awaiting f a c v with phase := .decoding, reading := false, rxBuf := memWrite [] 0 bs, rxLen := bs.length }

/-- V3.3 is built and waits to be sent. -/
def sendingV33 : State :=
  { host 1 3 0 2 0 with
    phase := .sending
    req := { unit := 1, func := 3, addr := 0, count := 2, value := 0 }
    txBuf := memWrite [] 0 [0x01, 0x03, 0x00, 0x00, 0x00, 0x02, 0xC4, 0x0B]
    txLen := 8 }

/-- What `k` reads in the next state, if there is one. -/
def after {α : Type} (o : Outcome) (k : State → α) : Option α :=
  match o with
  | .next t => some (k t)
  | _ => none

/-- Why the event is refused, if it is. -/
def refusal (o : Outcome) : Option Refusal :=
  match o with
  | .refused r => some r
  | _ => none

/-- The instruction a packet decodes to, if it is one. -/
def decoded (p : Packet) : Option Instr :=
  match decode p with
  | .ok i => some i
  | .error _ => none

/-- Why a packet is no instruction, if it is none. -/
def rejected (p : Packet) : Option Reject :=
  match decode p with
  | .ok _ => none
  | .error why => some why

/-- The result group less RBUF, and the entries of RBUF below RES_LEN. -/
def resultOf (o : Outcome) : Option (ResultGroup × List Word) :=
  after o fun t => (t.res, (List.range t.res.resLen.toNat).map fun i => (memGet t.rbuf i).getD 0)

/-- A success with the entries `data`. -/
def okWith (data : List Word) : Option (ResultGroup × List Word) :=
  some ({ ResultGroup.zero with resLen := BitVec.ofNat 16 data.length }, data)

/-- A failure with the result group `g`. -/
def failedWith (g : ResultGroup) : Option (ResultGroup × List Word) := some (g, [])

/-- The call of `i` against the Line's script `bs`, then a stall. -/
def called (i : Instr) (bs : List Byte) : Outcome := exec i (withInputs (answers bs) State.reset)

/-- What a call sends. -/
def written (o : Outcome) : Option (List Output) := after o fun t => t.out.filter isWrite

/-! ### Well-formedness: a term for each check that it refuses -/

theorem test_illformed_coils_65536 : (Instr.writeMultipleCoils 1 0 (List.replicate 65536 true)).wellFormed = false := by
  simp only [Instr.wellFormed, List.length_replicate]; decide

theorem test_illformed_registers_65536 :
    (Instr.writeMultipleRegisters 1 0 (List.replicate 65536 0)).wellFormed = false := by
  simp only [Instr.wellFormed, List.length_replicate]; decide

theorem test_illformed_exception_0x80 : (Instr.exceptionReply 1 0 2 [] 0).wellFormed = false := by decide

theorem test_wellformed_limits :
    (Instr.writeMultipleCoils 1 0 (List.replicate 65535 true)).wellFormed = true ∧
      (Instr.writeMultipleRegisters 1 0 (List.replicate 65535 0)).wellFormed = true ∧
      (Instr.exceptionReply 1 1 2 [] 0).wellFormed = true := by
  simp only [Instr.wellFormed, List.length_replicate]; decide

/-! ### Decoding: the words of V3, V4 and R40 -/

theorem test_decode_reads :
    decoded (.call [0x11, 0x01, 0x00, 0x13, 0x00, 0x25, 0x0E, 0x84]) = some (.readCoils 0x11 0x0013 37) ∧
      decoded (.call [0x01, 0x02, 0x00, 0x00, 0x00, 0x0A, 0xF8, 0x0D]) = some (.readDiscreteInputs 1 0 10) ∧
      decoded (.call [0x01, 0x03, 0x00, 0x00, 0x00, 0x02, 0xC4, 0x0B]) = some (.readHoldingRegisters 1 0 2) ∧
      decoded (.call [0x01, 0x04, 0x00, 0x08, 0x00, 0x01, 0xB0, 0x08]) = some (.readInputRegisters 1 8 1) ∧
      decoded (.call [0xFF, 0x03, 0xFF, 0xFF, 0x00, 0x7D, 0x90, 0x11])
        = some (.readHoldingRegisters 0xFF 0xFFFF 125) := by decide +kernel

theorem test_decode_writes :
    decoded (.call [0x01, 0x05, 0x00, 0x01, 0xFF, 0x00, 0xDD, 0xFA]) = some (.writeSingleCoil 1 1 true) ∧
      decoded (.call [0x01, 0x05, 0x00, 0x01, 0x00, 0x00, 0x9C, 0x0A]) = some (.writeSingleCoil 1 1 false) ∧
      decoded (.call [0x01, 0x06, 0x12, 0x34, 0xAB, 0xCD, 0x73, 0xD9])
        = some (.writeSingleRegister 1 0x1234 0xABCD) ∧
      decoded (.call [0x01, 0x0F, 0x00, 0x13, 0x00, 0x0A, 0x02, 0xCD, 0x01, 0x72, 0xCB])
        = some (.writeMultipleCoils 1 0x0013 [true, false, true, true, false, false, true, true, true, false]) ∧
      decoded (.call [0x01, 0x0F, 0x00, 0x00, 0x00, 0x00, 0x00, 0x0B, 0x3F]) = some (.writeMultipleCoils 1 0 []) ∧
      decoded (.call [0x01, 0x10, 0x00, 0x01, 0x00, 0x02, 0x04, 0x00, 0x0A, 0x01, 0x02, 0x92, 0x30])
        = some (.writeMultipleRegisters 1 1 [0x000A, 0x0102]) := by decide +kernel

theorem test_decode_replies :
    decoded (.reply [0x11, 0x01, 0x05, 0xCD, 0x6B, 0xB2, 0x0E, 0x1B, 0x45, 0xE6])
        = some (.readCoilsReply 0x11 5 [0xCD, 0x6B, 0xB2, 0x0E, 0x1B] 0xE645) ∧
      decoded (.reply [0x01, 0x02, 0x02, 0xA5, 0x02, 0x43, 0x29])
        = some (.readDiscreteInputsReply 1 2 [0xA5, 0x02] 0x2943) ∧
      decoded (.reply [0x01, 0x03, 0x04, 0x00, 0x0A, 0x00, 0x14, 0xDA, 0x3E])
        = some (.readHoldingRegistersReply 1 4 [0x00, 0x0A, 0x00, 0x14] 0x3EDA) ∧
      decoded (.reply [0x01, 0x04, 0x02, 0xFF, 0xFE, 0x79, 0x40])
        = some (.readInputRegistersReply 1 2 [0xFF, 0xFE] 0x4079) ∧
      decoded (.reply [0x01, 0x05, 0x00, 0x01, 0xFF, 0x00, 0xDD, 0xFA])
        = some (.writeSingleCoilReply 1 1 0xFF00 0xFADD) ∧
      decoded (.reply [0x01, 0x06, 0x12, 0x34, 0xAB, 0xCD, 0x73, 0xD9])
        = some (.writeSingleRegisterReply 1 0x1234 0xABCD 0xD973) ∧
      decoded (.reply [0x01, 0x0F, 0x00, 0x13, 0x00, 0x0A, 0x24, 0x09])
        = some (.writeMultipleCoilsReply 1 0x0013 10 0x0924) ∧
      decoded (.reply [0x01, 0x10, 0x00, 0x01, 0x00, 0x02, 0x10, 0x08])
        = some (.writeMultipleRegistersReply 1 1 2 0x0810) ∧
      decoded (.reply [0x01, 0x83, 0x02, 0xC0, 0xF1]) = some (.exceptionReply 1 3 2 [] 0xF1C0) := by decide +kernel

theorem test_decode_host_registers :
    decoded (.write 0x12 0) = some .crcSeed ∧ decoded (.write 0x13 0x01) = some (.crcByte 1) ∧
      decoded (.read 0x14) = some .crcRead ∧ decoded (.write 0x07 50) = some (.setTimeout 50) ∧
      decoded (.write 0x05 1) = some (.start true) ∧ decoded (.write 0x05 0) = some (.start false) := by decide

theorem test_decode_rejects :
    rejected (.write 0x00 1) = some .plainAccess ∧ rejected (.read 0x06) = some .plainAccess ∧
      rejected (.call [0x01, 0x07, 0x00, 0x00, 0x00, 0x02, 0xC4, 0x0B]) = some .callFunction ∧
      rejected (.call [0x01, 0x03, 0x00, 0x00, 0x00, 0x02, 0xC4]) = some .callLength ∧
      rejected (.call [0x01, 0x05, 0x00, 0x01, 0x12, 0x34, 0x91, 0x7D]) = some .callCoilValue ∧
      rejected (.call [0x01, 0x10, 0x00, 0x01, 0x00, 0x02, 0x02, 0x00, 0x0A, 0x92, 0x30]) = some .callByteCount ∧
      rejected (.reply [0x01, 0x03, 0x04]) = some .replyLength ∧
      rejected (.reply [0x01, 0x80, 0x02, 0xC0, 0x01]) = some .replyFunction := by decide +kernel

/-- R103: the unused bits are no coils (V1f). R160: 128 values, the byte count 256 truncated to 0. -/
theorem test_decode_beyond_bounds :
    decoded (.call [0x01, 0x0F, 0x00, 0x13, 0x00, 0x0A, 0x02, 0xCD, 0xFD, 0x72, 0xCB])
        = some (.writeMultipleCoils 1 0x0013 [true, false, true, true, false, false, true, true, true, false]) ∧
      decoded (.call ([0x01, 0x10, 0x00, 0x01, 0x00, 0x80, 0x00] ++ List.replicate 256 0x07 ++ [0, 0]))
        = some (.writeMultipleRegisters 1 1 (List.replicate 128 0x0707)) := by decide +kernel

/-- Bytes that are no call leave the block as it is. -/
theorem test_no_call :
    after (consumePacket (.call [0x01, 0x03]) sendingV33) (fun t => (t.out, t.phase))
        = some ([.noCall .callLength], .sending) ∧
      refusal (consumePacket (.call [0x01, 0x07, 0x00]) State.reset) = some .reservedFunction := by decide

/-- R91: the first two bytes are bits 15..0, the first of them the more significant. -/
theorem test_decode_table_numbering :
    decodeTableWord 64 0xC40B000200000103 = some (.readHoldingRegisters 1 0 2) ∧
      decodeTableWord 16 0x0013 = some (.crcByte 0) ∧ decodeTableWord 16 0x0080 = none := by decide +kernel

/-! ### The Checksum Engine: V2 -/

theorem test_checksum_vectors :
    checksum [] = 0xFFFF ∧ checksum [0x00] = 0x40BF ∧ checksum [0x01] = 0x807E ∧ checksum [0xFF] = 0x00FF ∧
      checksum [0x01, 0x03] = 0x2140 ∧ checksum [0x00, 0x00] = 0xB001 ∧ checksum [0xFF, 0xFF] = 0x0000 ∧
      checksum [0x01, 0x03, 0x00, 0x00, 0x00, 0x02] = 0x0BC4 ∧
      checksum [0x31, 0x32, 0x33, 0x34, 0x35, 0x36, 0x37, 0x38, 0x39] = 0x4B37 ∧
      checksum [0x01, 0x03, 0x00, 0x00, 0x00, 0x02, 0xC4, 0x0B] = 0x0000 := by decide +kernel

theorem test_crc_update_vectors :
    crcUpdate 0x0000 0x00 = 0x0000 ∧ crcUpdate 0x0000 0x01 = 0xC0C1 ∧ crcUpdate 0x0001 0x00 = 0xC0C1 ∧
      crcUpdate 0x0000 0x80 = 0xA001 ∧ crcUpdate 0xFFFF 0x01 = 0x807E ∧ crcUpdate 0xFFFF 0x00 = 0x40BF := by
  decide +kernel

/-! ### The host events: P1, R131 to R133, R216, R201, V7 -/

theorem test_crcSeed : after (exec .crcSeed State.reset) (·.crc) = some 0xFFFF := by decide

theorem test_crcByte :
    after (exec (.crcByte 0x01) { State.reset with crc := 0xFFFF, crcOwned := true }) (·.crc) = some 0x807E := by
  decide +kernel

theorem test_crcByte_busy : refusal (exec (.crcByte 0x01) sendingV33) = some .checksumPortBusy := by decide

theorem test_crcRead :
    after (exec .crcRead { State.reset with crc := 0x2140, crcOwned := true }) (·.out)
      = some [.data 0x14 0x2140] := by decide

/-- R216 with TW = 32 and with TW = 3. -/
theorem test_setTimeout :
    after (exec (.setTimeout 50) State.reset) (·.tCfg) = some 50 ∧
      after (exec (.setTimeout 0x100000005) State.reset) (·.tCfg) = some 5 ∧
      after (exec (.setTimeout 13) (State.resetWith { Config.Params.default with tw := 3 })) (·.tCfg) = some 5 := by
  decide

theorem test_start :
    after (exec (.start true) (host 1 3 0 2 0)) (fun t => (requestFrame t, statusWord t))
      = some ([0x01, 0x03, 0x00, 0x00, 0x00, 0x02, 0xC4, 0x0B], 0x09) := by decide +kernel

theorem test_start_reserved_function :
    refusal (exec (.start true) (host 1 0x07 0 2 0)) = some .reservedFunction ∧
      refusal (exec (.start true) (host 1 0x83 0 2 0)) = some .reservedFunction := by decide

theorem test_register_map :
    readBack 0x06 State.reset = some 0 ∧ readBack 0x06 (awaiting 3 0 2 0) = some 0x0A ∧
      refusal (consumePacket (.read 0x15) State.reset) = some (.reservedRegister 0x15) ∧
      refusal (consumePacket (.write 0x02 0) (awaiting 3 0 2 0)) = some .writeWhileBusy ∧
      readBack 0x11 (decodingOf 3 0 2 0 [1, 3, 4]) = some 3 := by decide +kernel

/-! ### The eight operations: V5 -/

theorem test_readCoils :
    resultOf (called (.readCoils 0x11 0x0013 37) [0x11, 0x01, 0x05, 0xCD, 0x6B, 0xB2, 0x0E, 0x1B, 0x45, 0xE6])
      = okWith [1,0,1,1,0,0,1,1, 1,1,0,1,0,1,1,0, 0,1,0,0,1,1,0,1, 0,1,1,1,0,0,0,0, 1,1,0,1,1] := by decide +kernel

theorem test_readCoils_above_ceiling :
    resultOf (called (.readCoils 1 0 2001) [])
      = failedWith { ResultGroup.zero with resKind := 1, exp := 2000, got := 2001 } ∧
      written (called (.readCoils 1 0 2001) []) = some [] := by decide +kernel

theorem test_readDiscreteInputs :
    resultOf (called (.readDiscreteInputs 1 0 10) [0x01, 0x02, 0x02, 0xA5, 0x02, 0x43, 0x29])
      = okWith [1,0,1,0,0,1,0,1, 0,1] := by decide +kernel

theorem test_readHoldingRegisters :
    resultOf (called (.readHoldingRegisters 1 0 2) [0x01, 0x03, 0x04, 0x00, 0x0A, 0x00, 0x14, 0xDA, 0x3E])
      = okWith [10, 20] := by decide +kernel

theorem test_readHoldingRegisters_no_reply :
    after (called (.readHoldingRegisters 1 0 2) []) (fun t => (t.res, t.rxLen, t.out))
      = some ({ ResultGroup.zero with resKind := 2 }, 0,
          [.discardIn, .discardOut, .write [0x01, 0x03, 0x00, 0x00, 0x00, 0x02, 0xC4, 0x0B], .readReq,
            .ret (.failed .transportTimeout)]) := by decide +kernel

theorem test_readInputRegisters :
    resultOf (called (.readInputRegisters 1 8 1) [0x01, 0x04, 0x02, 0xFF, 0xFE, 0x79, 0x40])
      = okWith [0xFFFE] := by decide +kernel

theorem test_writeSingleCoil :
    written (called (.writeSingleCoil 1 1 true) [0x01, 0x05, 0x00, 0x01, 0xFF, 0x00, 0xDD, 0xFA])
      = some [.write [0x01, 0x05, 0x00, 0x01, 0xFF, 0x00, 0xDD, 0xFA]] ∧
      resultOf (called (.writeSingleCoil 1 1 true) [0x01, 0x05, 0x00, 0x01, 0xFF, 0x00, 0xDD, 0xFA])
        = okWith [] := by decide +kernel

theorem test_writeSingleCoil_wrong_echo :
    resultOf (called (.writeSingleCoil 1 1 true) [0x01, 0x05, 0x00, 0x01, 0x00, 0x00, 0x9C, 0x0A])
      = failedWith { ResultGroup.zero with resKind := 3, fcKind := 6, exp := 0xFF00, misField := true } := by
  decide +kernel

theorem test_writeSingleRegister :
    written (called (.writeSingleRegister 1 0x1234 0xABCD) [0x01, 0x06, 0x12, 0x34, 0xAB, 0xCD, 0x73, 0xD9])
      = some [.write [0x01, 0x06, 0x12, 0x34, 0xAB, 0xCD, 0x73, 0xD9]] ∧
      resultOf (called (.writeSingleRegister 1 0x1234 0xABCD) [0x01, 0x06, 0x12, 0x34, 0xAB, 0xCD, 0x73, 0xD9])
        = okWith [] := by decide +kernel

theorem test_writeMultipleCoils :
    written (called (.writeMultipleCoils 1 0x0013 [true, false, true, true, false, false, true, true, true, false])
        [0x01, 0x0F, 0x00, 0x13, 0x00, 0x0A, 0x24, 0x09])
      = some [.write [0x01, 0x0F, 0x00, 0x13, 0x00, 0x0A, 0x02, 0xCD, 0x01, 0x72, 0xCB]] := by decide +kernel

/-- R125: 1969 coils are more than VBUF holds. -/
theorem test_writeMultipleCoils_above_vcap :
    after (exec (.writeMultipleCoils 1 0 (List.replicate 1969 true)) State.reset) (fun t => (t.out, t.cmd.count, t.done))
      = some ([.wrapperError 1968 1969], 0, false) := by decide +kernel

theorem test_writeMultipleRegisters :
    written (called (.writeMultipleRegisters 1 1 [0x000A, 0x0102]) [0x01, 0x10, 0x00, 0x01, 0x00, 0x02, 0x10, 0x08])
      = some [.write [0x01, 0x10, 0x00, 0x01, 0x00, 0x02, 0x04, 0x00, 0x0A, 0x01, 0x02, 0x92, 0x30]] ∧
      resultOf (called (.writeMultipleRegisters 1 1 [0x000A, 0x0102]) [0x01, 0x10, 0x00, 0x01, 0x00, 0x02, 0x10, 0x08])
        = okWith [] := by decide +kernel

/-! ### The replies: V4 -/

/-- V4.27, V4.28. -/
theorem test_readCoilsReply :
    resultOf (exec (.readCoilsReply 1 1 [0x05] 0x8B91) (awaiting 1 0 3 0)) = okWith [1, 0, 1] ∧
      resultOf (exec (.readCoilsReply 1 2 [0xFF, 0xFF] 0x4CB8) (awaiting 1 0 3 0)) = okWith [1, 1, 1] := by
  decide +kernel

/-- V4.29 to V4.31. -/
theorem test_readCoilsReply_too_short :
    resultOf (exec (.readCoilsReply 1 0 [] 0x9021) (awaiting 1 0 3 0))
        = failedWith { ResultGroup.zero with resKind := 3, fcKind := 4, exp := 1, got := 0 } ∧
      resultOf (exec (.readCoilsReply 1 1 [0x05] 0x8B91) (awaiting 1 0 9 0))
        = failedWith { ResultGroup.zero with resKind := 3, fcKind := 4, exp := 2, got := 1 } ∧
      resultOf (exec (.readCoilsReply 1 5 [0x05] 0x4B93) (awaiting 1 0 33 0))
        = failedWith { ResultGroup.zero with resKind := 3, fcKind := 5, exp := 10, got := 6 } := by decide +kernel

/-- V4.2. -/
theorem test_readDiscreteInputsReply :
    resultOf (exec (.readDiscreteInputsReply 1 2 [0xA5, 0x02] 0x2943) (awaiting 2 0 10 0))
      = okWith [1,0,1,0,0,1,0,1, 0,1] := by decide +kernel

/-- V4.3, V4.18, V4.19. -/
theorem test_readHoldingRegistersReply :
    resultOf (exec (.readHoldingRegistersReply 1 4 [0x00, 0x0A, 0x00, 0x14] 0x3EDA) (awaiting 3 0 2 0))
        = okWith [10, 20] ∧
      resultOf (exec (.readHoldingRegistersReply 2 4 [0x00, 0x0A, 0x00, 0x14] 0x3EE9) (awaiting 3 0 2 0))
        = okWith [10, 20] ∧
      resultOf (exec (.readHoldingRegistersReply 1 4 [0x00, 0x0A, 0x00, 0x14, 0x00, 0x00] 0xB0DA) (awaiting 3 0 2 0))
        = okWith [10, 20] := by decide +kernel

/-- V4.9, V4.10, V4.20. -/
theorem test_readHoldingRegistersReply_corrupt :
    resultOf (exec (.readHoldingRegistersReply 1 3 [0x00, 0x0A, 0x00] 0x2E43) (awaiting 3 0 2 0))
        = failedWith { ResultGroup.zero with resKind := 3, fcKind := 4, exp := 4, got := 3 } ∧
      resultOf (exec (.readHoldingRegistersReply 1 4 [0x00, 0x0A, 0x00, 0x14] 0x3FDA) (awaiting 3 0 2 0))
        = failedWith { ResultGroup.zero with resKind := 3, fcKind := 2, crcRx := 0x3FDA, crcCalc := 0x3EDA } ∧
      resultOf (exec (.readHoldingRegistersReply 1 4 [0x00, 0x0A] 0x42D8) (awaiting 3 0 2 0))
        = failedWith { ResultGroup.zero with resKind := 3, fcKind := 5, exp := 9, got := 7 } := by decide +kernel

/-- V4.4, V4.17. -/
theorem test_readInputRegistersReply :
    resultOf (exec (.readInputRegistersReply 1 2 [0xFF, 0xFE] 0x4079) (awaiting 4 8 1 0)) = okWith [0xFFFE] ∧
      resultOf (exec (.readInputRegistersReply 1 4 [0x00, 0x0A, 0x00, 0x14] 0x89DB) (awaiting 3 0 2 0))
        = failedWith { ResultGroup.zero with resKind := 3, fcKind := 3, exp := 3, got := 4 } := by decide +kernel

/-- V4.5. -/
theorem test_writeSingleCoilReply :
    resultOf (exec (.writeSingleCoilReply 1 1 0xFF00 0xFADD) (awaiting 5 1 0 0xFF00)) = okWith [] := by decide +kernel

/-- V4.24 to V4.26. -/
theorem test_writeSingleCoilReply_wrong_echo :
    resultOf (exec (.writeSingleCoilReply 1 2 0xFF00 0xFA2D) (awaiting 5 1 0 0xFF00))
        = failedWith { ResultGroup.zero with resKind := 3, fcKind := 6, exp := 1, got := 2 } ∧
      resultOf (exec (.writeSingleCoilReply 1 1 0x1234 0x7D91) (awaiting 5 1 0 0xFF00))
        = failedWith
            { ResultGroup.zero with resKind := 3, fcKind := 6, exp := 0xFF00, got := 0x1234, misField := true } ∧
      resultOf (exec (.writeSingleCoilReply 1 1 0xFF00 0xFADD) (awaiting 5 2 0 0x0000))
        = failedWith { ResultGroup.zero with resKind := 3, fcKind := 6, exp := 2, got := 1 } := by decide +kernel

/-- V4.6. -/
theorem test_writeSingleRegisterReply :
    resultOf (exec (.writeSingleRegisterReply 1 0x1234 0xABCD 0xD973) (awaiting 6 0x1234 0 0xABCD)) = okWith [] := by
  decide +kernel

/-- V4.7. -/
theorem test_writeMultipleCoilsReply :
    resultOf (exec (.writeMultipleCoilsReply 1 0x0013 10 0x0924) (awaiting 0x0F 0x0013 10 0)) = okWith [] := by
  decide +kernel

/-- V4.7b. -/
theorem test_writeMultipleRegistersReply :
    resultOf (exec (.writeMultipleRegistersReply 1 1 2 0x0810) (awaiting 0x10 1 2 0)) = okWith [] := by decide +kernel

/-- V4.12, V4.15, V4.33, V4.34. -/
theorem test_exceptionReply :
    resultOf (exec (.exceptionReply 1 0x03 2 [] 0xF1C0) (awaiting 3 0 2 0))
        = failedWith { ResultGroup.zero with resKind := 4, excCode := 2 } ∧
      resultOf (exec (.exceptionReply 1 0x10 7 [] 0xC20D) (awaiting 3 0 2 0))
        = failedWith { ResultGroup.zero with resKind := 4, excCode := 7 } ∧
      resultOf (exec (.exceptionReply 1 0x7F 1 [] 0x30A0) (awaiting 1 0 3 0))
        = failedWith { ResultGroup.zero with resKind := 4, excCode := 1 } ∧
      resultOf (exec (.exceptionReply 1 0x03 2 [0x00, 0x00] 0x8491) (awaiting 3 0 2 0))
        = failedWith { ResultGroup.zero with resKind := 4, excCode := 2 } := by decide +kernel

/-- V4.35. -/
theorem test_exceptionReply_damaged :
    resultOf (exec (.exceptionReply 1 0x03 2 [] 0xF0C0) (awaiting 3 0 2 0))
      = failedWith { ResultGroup.zero with resKind := 3, fcKind := 2, crcRx := 0xF0C0, crcCalc := 0xF1C0 } := by
  decide +kernel

/-- V4.11, V4.16, V4.22: frames that are no reply of the table are delivered all the same. -/
theorem test_unlisted_replies :
    resultOf (consumePacket (.reply [0x01, 0x03, 0x04]) (awaiting 3 0 2 0))
        = failedWith { ResultGroup.zero with resKind := 3, fcKind := 1, exp := 5, got := 3 } ∧
      resultOf (consumePacket (.reply [0x01, 0x80, 0x02, 0xC0, 0x01]) (awaiting 3 0 2 0))
        = failedWith { ResultGroup.zero with resKind := 3, fcKind := 3, exp := 3, got := 0x80 } ∧
      resultOf (consumePacket (.reply [0x01, 0x06, 0x12, 0x34, 0xAB, 0xCD, 0x00, 0x98, 0xE5])
          (awaiting 6 0x1234 0 0xABCD))
        = failedWith { ResultGroup.zero with resKind := 3, fcKind := 5, exp := 8, got := 9 } := by decide +kernel

/-- V6.1, V6.2, V6.4. -/
theorem test_timer :
    after (step { awaiting 3 0 2 0 with inputs := [.tick], ibt := 1 }) (·.res.resKind) = some 2 ∧
      after (step { awaiting 3 0 2 0 with inputs := [.tick] }) (·.ibt) = some 2 ∧
      after (step { awaiting 3 0 2 0 with inputs := [.rx 1], ibt := 1 }) (fun t => (t.rxLen, t.ibt)) = some (1, 1) ∧
      after (step { awaiting 3 0 2 0 with reading := false, ibt := 1 }) (fun t => (t.out, t.ibt)) = some ([.readReq], 3) ∧
      after (step { awaiting 3 0 2 0 with inputs := [.tick], tCfg := 0, ibt := 0 }) (·.phase) = some .idle := by
  decide +kernel

/-- R7, R281: a reset and a host read of RXLEN land between two events of a transaction. -/
theorem test_between_events :
    after (step { sendingV33 with sendStage := .write, inputs := [.reset] }) (fun t => (t.phase, t.out))
        = some (.idle, []) ∧
      after (run 2 (withInputs [.answer (.byte 1), .early (.read 0x11)] (awaiting 3 0 2 0)))
          (fun t => (t.out, t.reading)) = some ([.data 0x11 1], false) := by decide +kernel

/-- R7, R78, R281: the same from reset, on the request of V3.3: STATUS read between the two discards, then a reset
between `DiscardOut` and `Write`. -/
theorem test_between_events_from_reset :
    after (run 10 (withInputs [.packet (.write 0x01 3), .packet (.write 0x00 1), .packet (.write 0x02 0),
        .packet (.write 0x03 2), .packet (.write 0x05 1), .own, .early (.read 0x06), .own, .reset, .tick] State.reset))
      (fun t => (t.phase, t.out)) = some (.idle, [.discardIn, .data 0x06 9, .discardOut]) := by decide +kernel

/-- R205 to R208: the four events of Sending, one a step. -/
theorem test_sending_steps :
    [1, 2, 3, 4].map (fun k => after (run k sendingV33) (·.out.length)) = [some 1, some 2, some 3, some 4] ∧
      after (run 4 sendingV33) (·.out)
        = some [.discardIn, .discardOut, .write [0x01, 0x03, 0x00, 0x00, 0x00, 0x02, 0xC4, 0x0B], .readReq] := by
  decide +kernel

/-- R295: a Line that answers every read with a byte. -/
theorem test_endless :
    after (run 6 { awaiting 3 0 2 0 with endless := some 7 }) (fun t => (t.phase, t.rxLen, t.endless))
      = some (.awaitingReply, 3, some 10) := by decide

/-! ### Witnesses: for every obligation with hypotheses, states and operands that meet them, for each clause -/

theorem test_witness_CrcSeedWritesSeed : State.reset.phase = .idle := by decide

theorem test_witness_CrcByteRunsEightIterations : State.reset.phase = .idle := by decide

theorem test_witness_CrcReadReturnsRegister :
    ({ State.reset with crc := 0x2140, crcOwned := true } : State).phase = .idle ∧
      ({ State.reset with crc := 0x2140, crcOwned := true } : State).crcOwned = true := by decide

theorem test_witness_PortComputesChecksum : State.reset.phase = .idle := by decide

theorem test_witness_HostSideRoundTrip :
    Instr.writeMultipleCoils 1 0 (List.replicate 65535 true) ∈
        [Instr.readCoils 1 0 2, .writeMultipleCoils 1 0 (List.replicate 65535 true)] ∧
      (Instr.writeMultipleCoils 1 0 (List.replicate 65535 true)).wellFormed = true ∧
      (Instr.writeMultipleRegisters 1 0 (List.replicate 65535 0)).wellFormed = true :=
  ⟨.tail _ (.head _), test_wellformed_limits.1, test_wellformed_limits.2.1⟩

theorem test_witness_ReplyRoundTrip :
    (Instr.exceptionReply 1 1 2 [] 0).wellFormed = true ∧ (Instr.exceptionReply 1 0x7F 2 [3] 0).wellFormed = true := by
  decide

/-- V1f: the upper six bits of the last byte set. -/
theorem test_witness_PackThenUnpack :
    let c := [true, false, true, true, false, false, true, true, true, false]
    packBits c = [0xCD, 0x01] ∧ (∀ i < c.length, packedBit [0xCD, 0xFD] i = packedBit (packBits c) i) ∧
      c.length ≤ 10 := by decide +kernel

theorem test_witness_RequestFrameFields :
    let r : Latched := { unit := 1, func := 0x10, addr := 1, count := 123, value := 0 }
    r.func = funcCode .writeMultipleRegisters ∧ (List.replicate 123 (0 : Word)).length = r.count.toNat ∧
      ∀ c, ceiling .writeMultipleRegisters = some c → r.count ≤ c := by
  refine ⟨by decide, by decide, fun c h => ?_⟩
  obtain rfl := Option.some.inj h
  decide

theorem test_witness_RegisterWriteReadsBack :
    State.reset.phase = .idle ∧
      ((0x07 : Word), 32)
        ∈ [((0x00 : Word), 8), (0x01, 8), (0x02, 16), (0x03, 16), (0x04, 16), (0x07, State.reset.cfg.tw)] ∧
      (0x1000 ≤ (0x17AF : Word).toNat ∧ (0x17AF : Word).toNat < 0x1000 + 1968) := by decide

theorem test_witness_ResultGroupReads :
    let s : State := { State.reset with res := { ResultGroup.zero with resLen := 2000 }, rbuf := [(1999, 7)] }
    s.phase = .idle ∧ 1999 < s.res.resLen.toNat ∧ memGet s.rbuf 1999 = some 7 := by decide

theorem test_witness_HostReadsHaveNoSideEffects :
    ∃ t, consumePacket (.read 0x06) (awaiting 3 0 2 0) = .next t := ⟨_, rfl⟩

theorem test_witness_UnlistedAccessesRefused :
    (0x15 ≤ (0x0015 : Word).toNat ∧ (0x0FFF : Word).toNat < 0x1000) ∧
      (0x1000 + 1968 ≤ (0x17B0 : Word).toNat ∧ (0x1FFF : Word).toNat < 0x2000) ∧
      0x2000 + 2000 ≤ (0x27D0 : Word).toNat ∧ 0x2000 + 2000 ≤ (0xFFFF : Word).toNat ∧
      (0x08 ≤ (0x08 : Word).toNat ∧ (0x11 : Word).toNat ≤ 0x11) ∧
      (0x2000 ≤ (0x2000 : Word).toNat ∧ (0x27CF : Word).toNat < 0x2000 + 2000) ∧
      decode (.call [0x01, 0x07]) = .error .callFunction ∧ decode (.call [0x01, 0x03]) = .error .callLength := by
  decide

theorem test_witness_BusyAccessesRefused :
    sendingV33.phase ≠ .idle ∧ (0x04 : Word).toNat ≤ 0x04 ∧ (0x17AF : Word).toNat < 0x1000 + 1968 ∧
      encode (.readHoldingRegisters 1 0 2) = .call [0x01, 0x03, 0x00, 0x00, 0x00, 0x02, 0xC4, 0x0B] := by
  decide +kernel

theorem test_witness_SetTimeoutWritesTimer : State.reset.phase = .idle ∧ sendingV33.phase ≠ .idle := by decide

theorem test_witness_StartAcceptedExactlyInIdle :
    (host 1 3 0 2 0).phase = .idle ∧ funcOperand (host 1 3 0 2 0) = funcCode .readHoldingRegisters ∧
      sendingV33.phase ≠ .idle ∧ (∀ op, funcOperand (host 1 0x80 0 2 0) ≠ funcCode op) := by
  refine ⟨by decide, by decide, by decide, fun op => ?_⟩
  cases op <;> decide

theorem test_witness_StartLatchesAndEncodes :
    let s := host 1 0x0F 0 1968 0
    s.phase = .idle ∧ funcOperand s = funcCode .writeMultipleCoils ∧
      ∀ c, ceiling .writeMultipleCoils = some c → countOperand s ≤ c ∧ s.cfg.qtyFloor ≤ countOperand s := by
  refine ⟨by decide, by decide, fun c h => ?_⟩
  obtain rfl := Option.some.inj h
  decide

/-- One above a ceiling, one below the floor of 1, and a single write. -/
theorem test_witness_StartRejectsQuantity :
    let s := host 1 0x03 0 126 0
    let z : State := { host 1 0x03 0 0 0 with cfg := { Config.Params.default with qtyFloor := 1 } }
    (s.phase = .idle ∧ funcOperand s = funcCode .readHoldingRegisters ∧ (125 : Word) < countOperand s) ∧
      (z.phase = .idle ∧ funcOperand z = funcCode .readHoldingRegisters ∧ countOperand z < z.cfg.qtyFloor) ∧
      funcOperand (host 1 0x05 0 0 1) = funcCode .writeSingleCoil := by decide

theorem test_witness_SendingEmitsInOrder :
    (landsEarly sendingV33.inputs = false ∧ sendingV33.phase = .sending ∧ sendingV33.sendStage = .discardIn) ∧
      (({ sendingV33 with sendStage := .discardOut } : State).phase = .sending ∧
        ({ sendingV33 with sendStage := .write } : State).phase = .sending) ∧
      (7 < sendingV33.txLen.toNat ∧ memGet sendingV33.txBuf 7 = some 0x0B) ∧
      ({ awaiting 3 0 2 0 with reading := false } : State).phase = .awaitingReply ∧
      ([Output.discardIn, .discardOut, .write (requestFrame sendingV33), .readReq].take 0 = [] ∧
        [Output.discardIn, .discardOut, .write (requestFrame sendingV33), .readReq].take 5
          = [.discardIn, .discardOut, .write (requestFrame sendingV33), .readReq]) := by decide

/-- RXBUF with one place left, and full. -/
theorem test_witness_ByteIsAccumulated :
    let s : State := { awaiting 3 0 2 0 with rxLen := 255 }
    let full : State := { awaiting 3 0 2 0 with rxLen := 256 }
    (s.phase = .awaitingReply ∧ s.reading = true ∧ s.line.inBuf = [] ∧ ∀ c, s.cfg.rxCap = some c → s.rxLen < c) ∧
      (full.phase = .awaitingReply ∧ full.reading = true ∧ full.line.inBuf = [] ∧ ∃ c, full.cfg.rxCap = some c ∧ c ≤ full.rxLen) := by
  refine ⟨⟨by decide, by decide, by decide, fun c h => ?_⟩, by decide, by decide, by decide, 256, by decide, by decide⟩
  obtain rfl := Option.some.inj h
  decide

theorem test_witness_StallEndsReception :
    let s : State := { awaiting 3 0 2 0 with rxLen := 1, rxBuf := [(0, 1)] }
    ((awaiting 3 0 2 0).phase = .awaitingReply ∧ (awaiting 3 0 2 0).reading = true ∧
      (awaiting 3 0 2 0).line.inBuf = [] ∧ (awaiting 3 0 2 0).rxLen = 0) ∧
      (s.phase = .awaitingReply ∧ s.reading = true ∧ s.line.inBuf = [] ∧ 0 < s.rxLen) := by decide

theorem test_witness_TicksGiveTimeout :
    let s := awaiting 3 0 2 0
    let w : State := { s with line := { inBuf := [1], outBuf := [] } }
    (s.phase = .awaitingReply ∧ s.reading = true ∧ s.line.inBuf = [] ∧ s.ibt = s.tCfg ∧ 2 < max 1 s.tCfg) ∧
      (w.phase = .awaitingReply ∧ w.reading = true ∧ w.line.inBuf = 1 :: []) ∧ sendingV33.phase ≠ .awaitingReply ∧
      (host 1 3 0 2 0).phase = .idle := by decide

theorem test_witness_EndlessReplyKeepsAwaiting :
    let s : State := { awaiting 3 0 2 0 with endless := some 0 }
    ((awaiting 3 0 2 0).phase = .awaitingReply ∧ (awaiting 3 0 2 0).reading = true ∧
        (awaiting 3 0 2 0).line.inBuf = [] ∧ landsEarly [] = false ∧ (awaiting 3 0 2 0).inputs = [] ∧ (awaiting 3 0 2 0).endless = none) ∧
      (s.phase = .awaitingReply ∧ s.reading = true ∧ s.line.inBuf = [] ∧ s.inputs = [] ∧ s.endless = some 0 ∧
        ∀ c, s.cfg.rxCap = some c → s.rxLen + 255 < c) ∧
      State.reset.inputs = [] ∧ State.reset.phase = .idle ∧ State.reset.endless = none := by
  refine ⟨by decide, ⟨by decide, by decide, by decide, by decide, by decide, fun c h => ?_⟩, by decide⟩
  obtain rfl := Option.some.inj h
  decide

theorem test_witness_StaleBytesAreDiscarded :
    State.reset.phase = .idle ∧ sendingV33.phase = .sending ∧ sendingV33.sendStage = .discardIn ∧
      landsEarly sendingV33.inputs = false := by decide

/-- For each check: overflow, V4.11, V4.10, V4.12, V4.17. -/
theorem test_witness_CommonChecksInOrder :
    let o : State := { awaiting 3 0 2 0 with phase := .decoding, rxLen := 257, rxOvf := true }
    let short := decodingOf 3 0 2 0 [0x01, 0x03, 0x04]
    let sum := decodingOf 3 0 2 0 [0x01, 0x03, 0x04, 0x00, 0x0A, 0x00, 0x14, 0xDA, 0x3F]
    let exc := decodingOf 3 0 2 0 [0x01, 0x83, 0x02, 0xC0, 0xF1]
    let func := decodingOf 3 0 2 0 [0x01, 0x04, 0x04, 0x00, 0x0A, 0x00, 0x14, 0xDB, 0x89]
    (DecodingFor .readHoldingRegisters o ∧ o.rxOvf = true ∧ o.cfg.rxCap = some 256) ∧
      (DecodingFor .readHoldingRegisters short ∧ short.rxOvf = false ∧ short.rxLen < 5) ∧
      (DecodingFor .readHoldingRegisters sum ∧ 5 ≤ sum.rxLen ∧ crcCalc (storedReply sum) ≠ crcRx (storedReply sum)) ∧
      (DecodingFor .readHoldingRegisters exc ∧ 5 ≤ exc.rxLen ∧ crcCalc (storedReply exc) = crcRx (storedReply exc) ∧
        0x80 < (byteAt (storedReply exc) 1).toNat) ∧
      (DecodingFor .readHoldingRegisters func ∧ 5 ≤ func.rxLen ∧
        crcCalc (storedReply func) = crcRx (storedReply func) ∧ (byteAt (storedReply func) 1).toNat ≤ 0x80 ∧
        byteAt (storedReply func) 1 ≠ func.req.func) := by
  unfold DecodingFor
  decide +kernel

/-- V4.30, V4.31, V4.27. -/
theorem test_witness_BitReadsDecode :
    let bc := decodingOf 1 0 9 0 [0x01, 0x01, 0x01, 0x05, 0x91, 0x8B]
    let len := decodingOf 1 0 33 0 [0x01, 0x01, 0x05, 0x05, 0x93, 0x4B]
    let good := decodingOf 1 0 3 0 [0x01, 0x01, 0x01, 0x05, 0x91, 0x8B]
    (DecodingFor .readCoils bc ∧ ChecksPass bc (storedReply bc) ∧ (byteAt (storedReply bc) 2).toNat < 2) ∧
      (DecodingFor .readCoils len ∧ ChecksPass len (storedReply len) ∧ 5 ≤ (byteAt (storedReply len) 2).toNat ∧
        len.rxLen - 5 < 5) ∧
      (DecodingFor .readCoils good ∧ ChecksPass good (storedReply good) ∧
        1 ≤ (byteAt (storedReply good) 2).toNat ∧ 1 ≤ good.rxLen - 5) := by
  unfold DecodingFor ChecksPass
  decide +kernel

/-- V4.9, V4.20, V4.3. -/
theorem test_witness_RegisterReadsDecode :
    let bc := decodingOf 3 0 2 0 [0x01, 0x03, 0x03, 0x00, 0x0A, 0x00, 0x43, 0x2E]
    let len := decodingOf 3 0 2 0 [0x01, 0x03, 0x04, 0x00, 0x0A, 0xD8, 0x42]
    let good := decodingOf 3 0 2 0 [0x01, 0x03, 0x04, 0x00, 0x0A, 0x00, 0x14, 0xDA, 0x3E]
    (DecodingFor .readHoldingRegisters bc ∧ ChecksPass bc (storedReply bc) ∧
        (byteAt (storedReply bc) 2).toNat ≠ 4) ∧
      (DecodingFor .readHoldingRegisters len ∧ ChecksPass len (storedReply len) ∧
        (byteAt (storedReply len) 2).toNat = 4 ∧ len.rxLen < 9) ∧
      (DecodingFor .readHoldingRegisters good ∧ ChecksPass good (storedReply good) ∧
        (byteAt (storedReply good) 2).toNat = 4 ∧ 9 ≤ good.rxLen) := by
  unfold DecodingFor ChecksPass
  decide +kernel

/-- V4.22, V4.24, V4.23, V4.5. -/
theorem test_witness_WriteEchoesDecode :
    let len := decodingOf 6 0x1234 0 0xABCD [0x01, 0x06, 0x12, 0x34, 0xAB, 0xCD, 0x00, 0x98, 0xE5]
    let addr := decodingOf 5 1 0 0xFF00 [0x01, 0x05, 0x00, 0x02, 0xFF, 0x00, 0x2D, 0xFA]
    let value := decodingOf 5 1 0 0xFF00 [0x01, 0x05, 0x00, 0x01, 0x00, 0x00, 0x9C, 0x0A]
    let good := decodingOf 5 1 0 0xFF00 [0x01, 0x05, 0x00, 0x01, 0xFF, 0x00, 0xDD, 0xFA]
    (DecodingFor .writeSingleRegister len ∧ ChecksPass len (storedReply len) ∧ len.rxLen ≠ 8) ∧
      (DecodingFor .writeSingleCoil addr ∧ ChecksPass addr (storedReply addr) ∧ addr.rxLen = 8) ∧
      (DecodingFor .writeSingleCoil value ∧ ChecksPass value (storedReply value) ∧ value.rxLen = 8) ∧
      (DecodingFor .writeSingleCoil good ∧ ChecksPass good (storedReply good) ∧ good.rxLen = 8) := by
  unfold DecodingFor ChecksPass
  decide +kernel

theorem test_witness_ReplyUnitNotExamined :
    (received (decodingOf 5 1 0 0xFF00 (sealed [1, 5, 0, 1, 0xFF, 0]))).n = [(5 : Byte), 0, 1, 0xFF, 0].length + 3 := by
  decide +kernel

theorem test_witness_CallsComplete :
    State.reset.phase = .idle ∧ Admitted State.reset.cfg (.readHoldingRegisters 1 0 125) ∧
      Admitted State.reset.cfg (.writeSingleCoil 1 1 true) := by
  refine ⟨by decide, fun n max h => ?_, fun n max h => nomatch h⟩
  obtain ⟨rfl, rfl⟩ := Prod.mk.inj (Option.some.inj h)
  decide

/-- One above each ceiling, one below the floor of 1, and one more than VBUF holds. -/
theorem test_witness_CallsOutOfBoundsDoNoIo :
    let z := State.resetWith { Config.Params.default with qtyFloor := 1 }
    State.reset.phase = .idle ∧ (2000 : Word) < 2001 ∧ (125 : Word) < 126 ∧
      (z.phase = .idle ∧ (0 : Word) < z.cfg.qtyFloor ∧ ([] : List Bool).length < z.cfg.qtyFloor.toNat) ∧
      (123 < (List.replicate 124 (0 : Word)).length ∧ (List.replicate 1968 (0 : Word)).length ≤ 1968) ∧
      1968 < (List.replicate 1969 true).length := by
  simp only [List.length_replicate]
  decide

theorem test_witness_BitReadRoundTrip :
    State.reset.phase = .idle ∧ (List.replicate 2000 true).length ≤ 2000 ∧
      State.reset.cfg.qtyFloor.toNat ≤ (List.replicate 2000 true).length ∧
      fits State.reset (5 + ((List.replicate 2000 true).length + 7) / 8) := by
  simp only [List.length_replicate]
  refine ⟨by decide, by decide, by decide, fun c h => ?_⟩
  obtain rfl := Option.some.inj h
  decide

theorem test_witness_RegisterReadRoundTrip :
    State.reset.phase = .idle ∧ (List.replicate 125 (7 : Word)).length ≤ 125 ∧
      State.reset.cfg.qtyFloor.toNat ≤ (List.replicate 125 (7 : Word)).length ∧
      fits State.reset (5 + 2 * (List.replicate 125 (7 : Word)).length) := by
  simp only [List.length_replicate]
  refine ⟨by decide, by decide, by decide, fun c h => ?_⟩
  obtain rfl := Option.some.inj h
  decide

theorem test_witness_WriteRoundTrip :
    State.reset.phase = .idle ∧ (List.replicate 1968 true).length ≤ 1968 ∧
      (List.replicate 123 (7 : Word)).length ≤ 123 ∧ fits State.reset 8 := by
  simp only [List.length_replicate]
  refine ⟨by decide, by decide, by decide, fun c h => ?_⟩
  obtain rfl := Option.some.inj h
  decide

theorem test_witness_ReadCallIsRegisterProgram :
    State.reset.phase = .idle ∧ ([(0x01 : Byte), 0x83, 0x02, 0xC0, 0xF1] ≠ [] → landsEarly [] = false) ∧
      (([] : List Byte) ≠ [] → landsEarly [.reset] = false) ∧ callSteps 5 true [] = 10 ∧ callSteps 5 true [0x01] = 13 ∧
      callSteps 5 false [] = 5 := by decide

theorem test_witness_SingleWriteCallIsRegisterProgram :
    State.reset.phase = .idle ∧ ([(0x01 : Byte)] ≠ [] → landsEarly [.tick] = false) ∧
      (([] : List Byte) ≠ [] → landsEarly [.reset] = false) := by decide

theorem test_witness_MultipleWriteCallIsRegisterProgram :
    State.reset.phase = .idle ∧ ([(0x01 : Byte)] ≠ [] → landsEarly [] = false) ∧
      (List.replicate 124 (7 : Word)).length ≤ 1968 ∧ ((List.replicate 1968 true).map bitWord).length ≤ 1968 := by
  simp only [List.length_map, List.length_replicate]
  decide

/-- V4.27. -/
theorem test_witness_BitRepliesComplete :
    let s := awaiting 1 0 3 0
    Listening s (5 + [(0x05 : Byte)].length) ∧ (s.req.count.toNat + 7) / 8 ≤ (1 : Byte).toNat ∧
      s.req.count ≤ 2000 ∧ (0x8B91 : Word) = checksum ([1, s.req.func, 1] ++ [0x05]) := by
  refine ⟨⟨by decide, by decide, by decide, by decide, fun c h => ?_⟩, by decide, by decide, by decide +kernel⟩
  obtain rfl := Option.some.inj h
  decide

/-- V4.3. -/
theorem test_witness_RegisterRepliesComplete :
    let s := awaiting 3 0 2 0
    Listening s (5 + 2 * [(10 : Word), 20].length + ([] : List Byte).length) ∧ s.req.count.toNat = 2 ∧
      (4 : Byte).toNat = 2 * 2 ∧ (0x3EDA : Word) = checksum ([1, s.req.func, 4] ++ regBytes [10, 20] ++ []) := by
  refine ⟨⟨by decide, by decide, by decide, by decide, fun c h => ?_⟩, by decide, by decide, by decide +kernel⟩
  obtain rfl := Option.some.inj h
  decide

/-- V4.5, V4.24, V4.23. -/
theorem test_witness_EchoRepliesComplete :
    let s := awaiting 5 1 0 0xFF00
    Listening s 8 ∧ (0xFADD : Word) = checksum ([1, s.req.func] ++ be16bytes 1 ++ be16bytes 0xFF00) ∧
      (0xFA2D : Word) = checksum ([1, s.req.func] ++ be16bytes 2 ++ be16bytes 0xFF00) ∧
      (0x0A9C : Word) = checksum ([1, s.req.func] ++ be16bytes 1 ++ be16bytes 0) := by
  refine ⟨⟨by decide, by decide, by decide, by decide, fun c h => ?_⟩, by decide +kernel⟩
  obtain rfl := Option.some.inj h
  decide

/-- V4.15. -/
theorem test_witness_ExceptionReplyCompletes :
    let s := awaiting 3 0 2 0
    Listening s (5 + ([] : List Byte).length) ∧ s.req.func = funcCode .readHoldingRegisters ∧ (0x10 : BitVec 7) ≠ 0 ∧
      (0xC20D : Word) = checksum ([1, 1#1 ++ (0x10 : BitVec 7), 7] ++ []) := by
  refine ⟨⟨by decide, by decide, by decide, by decide, fun c h => ?_⟩, by decide +kernel⟩
  obtain rfl := Option.some.inj h
  decide

theorem test_witness_UnreadRepliesWait :
    encode (.exceptionReply 1 3 2 [] 0xF1C0) = .reply [0x01, 0x83, 0x02, 0xC0, 0xF1] ∧
      State.reset.phase ≠ .awaitingReply := by decide

theorem test_witness_ReplyFrame :
    encode (.exceptionReply 1 3 2 [] 0xF1C0) = .reply [0x01, 0x83, 0x02, 0xC0, 0xF1] ∧
      (after (exec (.exceptionReply 1 3 2 [] 0xF1C0) (awaiting 3 0 2 0)) fun _ => true) = some true := by
  decide +kernel

theorem test_witness_CallFrame :
    encode (.readHoldingRegisters 1 0 2) = .call [0x01, 0x03, 0x00, 0x00, 0x00, 0x02, 0xC4, 0x0B] ∧
      (after (exec (.readHoldingRegisters 1 0 2) State.reset) fun _ => true) = some true ∧
      (after (exec (.writeSingleCoil 1 0 true) State.reset) fun _ => true) = some true ∧
      (after (exec (.writeMultipleRegisters 1 1 [0x000A, 0x0102]) State.reset) fun _ => true) = some true := by
  decide +kernel

theorem test_witness_StepRunsDecodedInstruction :
    decoded (.write 0x12 0) = some .crcSeed ∧
      (withInputs [.early (.write 0x12 0)] sendingV33).inputs = [.early (.write 0x12 0)] ∧
      (withInputs [.packet (.write 0x12 0)] State.reset).phase = .idle ∧
      ((awaiting 3 0 2 0).phase = .awaitingReply ∧ (awaiting 3 0 2 0).reading = true ∧
        (awaiting 3 0 2 0).line.inBuf = []) ∧
      tablePacket 16 0x0012 = .write 0x12 0 := by decide

theorem test_witness_PhaseTransitions :
    let s : State := { sendingV33 with sendStage := .write, inputs := [.packet (.reply [0x01])] }
    (after (step s) (·.phase)) = some .awaitingReply ∧
      (landsEarly s.inputs = true ∨ ownMove s = none → compound s.inputs = false) ∧
      s.inputs.head? ≠ some .reset := by
  refine ⟨by decide, fun h => ?_, by decide⟩
  rcases h with h | h <;> cases h

theorem test_witness_ResultChangesOnlyAtReturn :
    (after (step (withInputs [.answer .timeout] (awaiting 3 0 2 0))) (·.res.resKind)) = some 2 ∧
      (withInputs [.answer .timeout] (awaiting 3 0 2 0)).inputs.head? ≠ some .reset := by decide

theorem test_witness_RequestHeldWhileBusy :
    (after (step sendingV33) (·.req.count)) = some 2 ∧ sendingV33.phase ≠ .idle ∧
      sendingV33.inputs.head? ≠ some .reset := by decide

theorem test_witness_WriteOnlyFromSending :
    let s : State := { sendingV33 with sendStage := .write }
    (after (step s) fun t => (emitted s t).filter isWrite)
      = some [.write [0x01, 0x03, 0x00, 0x00, 0x00, 0x02, 0xC4, 0x0B]] := by decide +kernel

theorem test_witness_ParametersNeverChange : (after (step sendingV33) (·.cfg.rxCap)) = some (some 256) := by decide

theorem test_witness_ResetMeetsInvariant :
    Config.Params.default.legal = true ∧ ({ rxCap := none, qtyFloor := 1, tw := 3, tDefault := 7 } : Config.Params).legal = true ∧
      ({ rxCap := some 7, qtyFloor := 0, tw := 3, tDefault := 7 } : Config.Params).legal = false ∧
      ({ rxCap := none, qtyFloor := 1, tw := 3, tDefault := 8 } : Config.Params).legal = false ∧
      ({ rxCap := none, qtyFloor := 1, tw := 0, tDefault := 0 } : Config.Params).legal = false := by decide

theorem test_witness_StepKeepsMemoryCanonical :
    MemoryCanonical sendingV33 ∧ (after (step sendingV33) fun _ => true) = some true := by
  refine ⟨⟨by decide, by decide, by decide, fun c _ => ?_, by decide, by decide, by decide, by decide⟩, by decide⟩
  simp [sendingV33, host, State.reset, State.resetWith]

/-- A state with a request built that is not reset, and that meets the invariant. -/
theorem test_witness_StepKeepsInvariant : Inv sendingV33 where
  cfg := by decide
  memory := test_witness_StepKeepsMemoryCanonical.1
  phase := by unfold PhaseLegal; decide
  request := fun _ => ⟨.readHoldingRegisters, by decide, fun c h => by obtain rfl := Option.some.inj h; decide⟩
  built := by unfold RequestBuilt; decide
  reception := by
    refine ⟨⟨fun h => by simp [sendingV33, host, State.reset, State.resetWith] at h, fun ⟨c, _, h⟩ => ?_⟩, ?_, by decide⟩
    · exact absurd h (Nat.not_lt_zero c)
    · exact fun a h => absurd h (Nat.not_lt_zero a)
  reading := by unfold ReadOutstanding; decide
  timer := by unfold TimerInWidth; decide
  result := by unfold ResultLegal; decide

theorem test_witness_InvariantExcludesFaults : Inv sendingV33 := test_witness_StepKeepsInvariant

end Sys2Proof.Tests
end

/-! What the statements about the step as such need: a step run on an early packet, and the parameters under each
transition of the block. -/

namespace Sys2Proof.Machine

/-! ### The step and the instruction (R7, R78) -/

/-- The next event, where it lands early, is consumed whatever the block is doing. -/
theorem step_of_landsEarly {s : State} {x : Input} {rest : List Input} (hi : s.inputs = x :: rest)
    (he : landsEarly s.inputs = true) : step s = consume x (withInputs rest s) := by
  unfold step stepOnce
  rw [if_pos he, consumeNext_cons x rest s hi]

/-- A packet marked early that decodes is run at once. -/
theorem step_early_decoded {s : State} {p : Packet} {i : Instr} {rest : List Input} (hd : decode p = .ok i)
    (hi : s.inputs = .early p :: rest) : step s = exec i (withInputs rest s) := by
  have he : landsEarly s.inputs = true := by rw [hi]; rfl
  rw [step_of_landsEarly hi he]
  exact consumePacket_decoded hd _

/-- A packet that decodes is run where the block has no move of its own. -/
theorem step_packet_decoded {s : State} {p : Packet} {i : Instr} {rest : List Input} (hd : decode p = .ok i)
    (hi : s.inputs = .packet p :: rest)
    (hw : s.phase = .idle ∨ (s.phase = .awaitingReply ∧ s.reading = true ∧ s.line.inBuf = [])) :
    step s = exec i (withInputs rest s) := by
  rw [step_consume hi hw]
  exact consumePacket_decoded hd _

/-- A packet placed next that decodes is run in the very state it was placed before. -/
theorem step_placeNext_decoded {p : Packet} {i : Instr} (hd : decode p = .ok i) (s : State) :
    step (placeNext p s) = exec i s :=
  step_early_decoded (s := placeNext p s) (rest := s.inputs) hd rfl

/-- Settles O49, case by case of how the packet stands among the events to come. -/
theorem stepRunsDecodedInstruction : Obligations.StepRunsDecodedInstruction := by
  unfold Obligations.StepRunsDecodedInstruction
  intro s p i rest hd
  refine ⟨step_early_decoded hd, step_packet_decoded hd, ?_⟩
  rintro nbits w rfl
  exact step_placeNext_decoded hd s

/-! ### The parameters (R6) -/

theorem accept_cfg (op : Op) (s : State) : (accept op s).cfg = s.cfg := by
  rcases accept_cases op s with ⟨bound, -, e⟩ | ⟨-, e⟩ <;> rw [e] <;> rfl

theorem decodeMove_cfg {s t : State} (h : decodeMove s = .next t) : t.cfg = s.cfg := by
  obtain ⟨op, r, -, -, -, rfl⟩ := decodeMove_next h
  rfl

/-- Every transition of the block leaves the parameters at `c`. -/
theorem stepKeeps_cfg (c : Config.Params) : StepKeeps fun s => s.cfg = c where
  byte _ _ _ h := h
  issue _ _ h := h
  stall s _ h := (stall_cfg s).trans h
  line _ _ h := h
  count _ h := h
  inputs _ _ h := h
  endless _ _ h := h
  discardIn _ _ h := h
  discardOut _ _ h := h
  write _ _ h := h
  decode _ _ _ hd h := (decodeMove_cfg hd).trans h
  leave _ _ h := h
  accept s op _ _ h := (accept_cfg op s).trans h
  operands _ _ _ _ h := h
  entry _ _ _ _ _ h := h
  values _ _ _ h := h
  timeout _ _ _ h := h
  port _ _ _ _ h := h
  read _ _ _ _ h := h
  wrapper _ _ _ h := h
  noCall _ _ h := h
  reset _ h := h

/-- Settles O54: the parameters a step starts with are kept by every transition it can be made of. -/
theorem parametersNeverChange : Obligations.ParametersNeverChange := by
  unfold Obligations.ParametersNeverChange
  intro s t h
  exact (stepKeeps_cfg s.cfg).step h rfl

end Sys2Proof.Machine

/-! What a busy block does with a packet, and that it holds the request and the operands meanwhile (10_state.md R27,
60_exceptions.md R248, 70_reset_and_hazards.md R291). -/

namespace Sys2Proof.Machine

/-! ### A reply, whole -/

/-- The reply rows are one operation: their frame delivered (R94 to R98). -/
theorem exec_of_encode_reply {i : Instr} {f : List Byte} (h : encode i = .reply f) (s : State) :
    exec i s = deliverReply f s := by
  cases i <;> cases h <;> rfl

/-- A reply that meets AwaitingReply: its bytes, the stalled read, and the decode where a byte came (R208 to R210). -/
theorem deliverReply_next {f : List Byte} {s t : State} (h : deliverReply f s = .next t) :
    (s.phase ≠ .awaitingReply ∧ t = { s with line := { s.line with inBuf := s.line.inBuf ++ f } }) ∨
      (s.phase = .awaitingReply ∧ ∃ u : State,
        u = stall (receiveBytes (s.line.inBuf ++ f) (readOn { s with line := { s.line with inBuf := [] } })) ∧
          ((u.phase = .decoding ∧ decodeMove u = .next t) ∨ t = u)) := by
  unfold deliverReply at h
  split at h
  · rename_i hp
    dsimp only at h
    split at h
    · rename_i hd; exact .inr ⟨hp, _, rfl, .inl ⟨hd, h⟩⟩
    · cases h; exact .inr ⟨hp, _, rfl, .inr rfl⟩
  · rename_i hp; cases h; exact .inl ⟨hp, rfl⟩

/-! ### What reaches a busy block -/

section busy

variable {s t : State} (hb : s.phase ≠ .idle)
include hb

theorem callOperation_busy (op : Op) (load : State → State) :
    callOperation op load s = .refused .startWhileBusy :=
  if_pos (busy_eq_true_iff.2 hb)

theorem not_callOperation_next_of_busy {op : Op} {load : State → State}
    (h : callOperation op load s = .next t) : False :=
  nomatch (callOperation_busy hb op load).symm.trans h

theorem not_startOperation_next_of_busy (h : startOperation s = .next t) : False :=
  hb (startOperation_next h).1

theorem not_whenIdle_next_of_busy {r : Refusal} {u : State} (h : whenIdle r s u = .next t) : False :=
  hb (whenIdle_next h).1

/-- Of the calls a busy block is given only the host-side wrapper's ParameterError goes on (R125, R290). -/
theorem callMultiple_busy_next {op : Op} {u : Byte} {a : Word} {vs : List Word}
    (h : callMultiple op u a vs s = .next t) : ∃ es, t = emit es s := by
  rcases callMultiple_cases op u a vs s with ⟨-, e⟩ | ⟨-, bound, e⟩ <;> rw [e] at h
  · exact (not_callOperation_next_of_busy hb h).elim
  · cases h; exact ⟨_, rfl⟩

/-- An instruction a busy block carries out is a reply or only emits. -/
theorem exec_busy_next {i : Instr} (h : exec i s = .next t) :
    (∃ f, deliverReply f s = .next t) ∨ ∃ es, t = emit es s := by
  cases i with
  | readCoils u a q => exact (not_callOperation_next_of_busy hb h).elim
  | readDiscreteInputs u a q => exact (not_callOperation_next_of_busy hb h).elim
  | readHoldingRegisters u a q => exact (not_callOperation_next_of_busy hb h).elim
  | readInputRegisters u a q => exact (not_callOperation_next_of_busy hb h).elim
  | writeSingleCoil u a on => exact (not_callOperation_next_of_busy hb h).elim
  | writeSingleRegister u a v => exact (not_callOperation_next_of_busy hb h).elim
  | writeMultipleCoils u a vs => exact .inr (callMultiple_busy_next hb h)
  | writeMultipleRegisters u a vs => exact .inr (callMultiple_busy_next hb h)
  | readCoilsReply u n d c => exact .inl ⟨_, h⟩
  | readDiscreteInputsReply u n d c => exact .inl ⟨_, h⟩
  | readHoldingRegistersReply u n d c => exact .inl ⟨_, h⟩
  | readInputRegistersReply u n d c => exact .inl ⟨_, h⟩
  | writeSingleCoilReply u a v c => exact .inl ⟨_, h⟩
  | writeSingleRegisterReply u a v c => exact .inl ⟨_, h⟩
  | writeMultipleCoilsReply u a q c => exact .inl ⟨_, h⟩
  | writeMultipleRegistersReply u a q c => exact .inl ⟨_, h⟩
  | exceptionReply u f e x c => exact .inl ⟨_, h⟩
  | crcSeed => exact (not_whenIdle_next_of_busy hb h).elim
  | crcByte b => exact (not_whenIdle_next_of_busy hb h).elim
  | crcRead => exact (not_whenIdle_next_of_busy hb h).elim
  | setTimeout v => exact (not_whenIdle_next_of_busy hb h).elim
  | start go =>
    cases go with
    | true => exact (not_startOperation_next_of_busy hb h).elim
    | false => cases h; exact .inr ⟨[], by simp [emit]⟩

/-- No register access but a write of 0 to CTRL is a write a busy block takes (R291). -/
theorem hostWrite_busy_next {reg : Word} {d : HostWord} (h : hostWrite reg d s = .next t) : t = s := by
  unfold hostWrite at h
  split at h
  case h_7 =>
    split at h
    · exact (not_startOperation_next_of_busy hb h).elim
    · cases h; rfl
  case h_2 | h_3 | h_4 | h_5 | h_6 | h_8 | h_9 | h_10 | h_11 =>
    exact (not_whenIdle_next_of_busy hb h).elim
  all_goals cases h

/-- A packet a busy block takes is a reply, or changes nothing but what has been emitted. -/
theorem consumePacket_busy_next {p : Packet} (h : consumePacket p s = .next t) :
    (∃ f, deliverReply f s = .next t) ∨ ∃ es n, t = { s with out := s.out ++ es, draws := n } := by
  unfold consumePacket at h
  split at h
  · rcases exec_busy_next hb h with hf | ⟨es, rfl⟩
    · exact .inl hf
    · exact .inr ⟨es, s.draws, rfl⟩
  · unfold unlisted at h
    split at h
    · exact .inr ⟨[], s.draws, by rw [hostWrite_busy_next hb h]; simp⟩
    · obtain ⟨v, n, rfl⟩ := hostRead_next h; exact .inr ⟨_, n, rfl⟩
    · exact .inl ⟨_, h⟩
    · split at h
      · cases h
      · cases h; exact .inr ⟨_, s.draws, rfl⟩

end busy

/-! ### The request held (R27, R248) -/

/-- `t` has the latched request, the request frame, the operands and T_CFG of `s`. -/
def SameRequest (s t : State) : Prop :=
  t.req = s.req ∧ t.cmd = s.cmd ∧ t.written = s.written ∧ t.vbuf = s.vbuf ∧ t.tCfg = s.tCfg ∧
    t.txBuf = s.txBuf ∧ t.txLen = s.txLen

theorem SameRequest.refl (s : State) : SameRequest s s := ⟨rfl, rfl, rfl, rfl, rfl, rfl, rfl⟩

theorem SameRequest.trans {s t u : State} (h : SameRequest s t) (h' : SameRequest t u) : SameRequest s u := by
  obtain ⟨h1, h2, h3, h4, h5, h6, h7⟩ := h
  obtain ⟨g1, g2, g3, g4, g5, g6, g7⟩ := h'
  exact ⟨g1.trans h1, g2.trans h2, g3.trans h3, g4.trans h4, g5.trans h5, g6.trans h6, g7.trans h7⟩

theorem sameRequest_stall (s : State) : SameRequest s (stall s) := by simp [SameRequest]

/-- Nothing the Line does reaches the request. -/
theorem lineKeeps_sameRequest (s : State) : LineKeeps (SameRequest s) where
  byte _ _ _ h := h
  issue _ _ h := h
  stall t _ h := h.trans (sameRequest_stall t)
  line _ _ h := h
  count _ h := h
  inputs _ _ h := h
  endless _ _ h := h

theorem sameRequest_decodeMove {s t : State} (h : decodeMove s = .next t) : SameRequest s t := by
  obtain ⟨op, r, -, -, -, rfl⟩ := decodeMove_next h
  exact .refl s

theorem sameRequest_sendStep (s : State) : SameRequest s (sendStep s) := by
  rcases sendStep_cases s with ⟨-, e⟩ | ⟨-, e⟩ | ⟨-, e⟩ <;> rw [e] <;> exact .refl s

theorem sameRequest_deliverReply {f : List Byte} {s t : State} (h : deliverReply f s = .next t) :
    SameRequest s t := by
  rcases deliverReply_next h with ⟨-, rfl⟩ | ⟨-, u, hu, hd⟩
  · exact .refl s
  · have hsu : SameRequest s u := by subst hu; simp [SameRequest]
    rcases hd with ⟨-, hd⟩ | rfl
    · exact hsu.trans (sameRequest_decodeMove hd)
    · exact hsu

/-- The block's own moves leave the request alone. -/
theorem sameRequest_ownMove {s t : State} (h : ownMove s = some (.next t)) : SameRequest s t := by
  rcases ownMove_cases h with ⟨-, e⟩ | ⟨-, -, e⟩ | ⟨hp, -, -, e⟩ | ⟨-, e⟩ | ⟨-, e⟩
  · cases e; exact sameRequest_sendStep s
  · cases e; exact .refl s
  · cases e; exact (lineKeeps_sameRequest s).takeWaiting hp (.refl s)
  · exact sameRequest_decodeMove e.symm
  · cases e; exact .refl s

/-- Outside Idle no event but a reset reaches the request. -/
theorem sameRequest_consume_busy {x : Input} {s t : State} (hb : s.phase ≠ .idle) (hx : x ≠ .reset)
    (h : consume x s = .next t) : SameRequest s t := by
  have packet {p : Packet} (h : consumePacket p s = .next t) : SameRequest s t := by
    rcases consumePacket_busy_next hb h with ⟨f, hf⟩ | ⟨es, n, rfl⟩
    · exact sameRequest_deliverReply hf
    · exact .refl s
  unfold consume at h
  split at h
  · exact packet h
  · exact packet h
  · cases ho : ownMove s with
    | none => rw [ho] at h; cases h; exact .refl s
    | some o => rw [ho] at h; cases h; exact sameRequest_ownMove ho
  · split at h
    · cases h; exact .refl s
    · cases h
  · split at h
    · cases h; exact sameRequest_stall s
    · cases h
  · cases h; exact (lineKeeps_sameRequest s).arrive _ (.refl s)
  · cases h; exact (lineKeeps_sameRequest s).tickTimer (.refl s)
  · cases h; exact .refl s
  · exact absurd rfl hx

/-- Settles O52: whichever of the three a step outside Idle is, it leaves the request alone. -/
theorem requestHeldWhileBusy : Obligations.RequestHeldWhileBusy := by
  unfold Obligations.RequestHeldWhileBusy
  intro s t h hb hr
  show SameRequest s t
  rcases step_cases (s := s) with ⟨-, o, ho, hs⟩ | ⟨x, rest, hi, hs, -⟩ | ⟨-, -, hs⟩ <;> rw [hs] at h
  · exact sameRequest_ownMove (h ▸ ho)
  · have hx : x ≠ .reset := fun e => hr (by rw [hi, e]; rfl)
    exact sameRequest_consume_busy (s := withInputs rest s) hb hx h
  · cases h; exact (lineKeeps_sameRequest s).receiveEndless (.refl s)

end Sys2Proof.Machine

/-! The invariant of Safety.lean: what each transition that touches a part of it leaves of that part, and from these
that reset meets it and every step keeps it. -/

namespace Sys2Proof.Machine

open Safety

variable {s : State}

/-! ### The buffers (R62) -/

theorem memGet_memWrite_zero_ne_none {w : Nat} (m : Memory w) {xs : List (BitVec w)} {a : Nat} (h : a < xs.length) :
    memGet (memWrite m 0 xs) a ≠ none := by
  rw [memGet_memWrite, if_pos (by omega), Nat.sub_zero, List.getElem?_eq_getElem h]
  exact Option.some_ne_none _

theorem memoryCanonical_receiveByte (b : Byte) (h : MemoryCanonical s) : MemoryCanonical (receiveByte b s) := by
  obtain ⟨htx, htxc, hrx, hrxc, hv, hvc, hr, hrc⟩ := h
  refine ⟨htx, htxc, ?_, fun c hc => ?_, hv, hvc, hr, hrc⟩ <;> rw [receiveByte_rxBuf] <;> split
  · exact memWf_memSet hrx _ _
  · exact hrx
  · rename_i hroom; exact memBelow_memSet (hrxc c hc) (hasRoom_iff.1 hroom c hc) b
  · exact hrxc c hc

theorem memoryCanonical_setVbuf {i : Nat} (hi : i < Config.vCap) (v : Word) (h : MemoryCanonical s) :
    MemoryCanonical (setVbuf i v s) := by
  obtain ⟨htx, htxc, hrx, hrxc, hv, hvc, hr, hrc⟩ := h
  exact ⟨htx, htxc, hrx, hrxc, memWf_memSet hv i v, memBelow_memSet hvc hi v, hr, hrc⟩

theorem memoryCanonical_loadVbuf (vs : List Word) (h : MemoryCanonical s) : MemoryCanonical (loadVbuf vs s) := by
  obtain ⟨htx, htxc, hrx, hrxc, hv, hvc, hr, hrc⟩ := h
  have hlen : 0 + (vs.take Config.vCap).length ≤ Config.vCap := by
    rw [Nat.zero_add]; exact List.length_take_le _ _
  exact ⟨htx, htxc, hrx, hrxc, memWf_memWrite hv 0 _, memBelow_memWrite hvc hlen, hr, hrc⟩

/-- The request an accepted `Start` builds is at most 255 bytes long (R163). -/
theorem latched_request_length_le {op : Op} (hb : violatedBound s.cfg op (countOperand s) = none) :
    (sealed (requestBody op (latched op s) (vbufEntries s (latched op s).count.toNat))).length ≤ 255 :=
  sealed_requestBody_length_le op (latched op s) _ (vbufEntries_length s _) hb

theorem memoryCanonical_latchAndEncode {op : Op} (hb : violatedBound s.cfg op (countOperand s) = none)
    (h : MemoryCanonical s) : MemoryCanonical (latchAndEncode op s) := by
  obtain ⟨htx, htxc, hrx, hrxc, hv, hvc, hr, hrc⟩ := h
  have hlen := latched_request_length_le hb
  have hcap : Config.txCap = 256 := rfl
  exact ⟨memWf_memWrite htx 0 _, memBelow_memWrite htxc (by omega), hrx, hrxc, hv, hvc, hr, hrc⟩

theorem memoryCanonical_finish {r : Result} (hr : ∀ data, r = .ok data → data.length ≤ Config.rCap)
    (h : MemoryCanonical s) : MemoryCanonical (finish r s) := by
  obtain ⟨htx, htxc, hrx, hrxc, hv, hvc, hrb, hrc⟩ := h
  exact ⟨htx, htxc, hrx, hrxc, hv, hvc, memWf_resultBuffer hrb r, memBelow_resultBuffer hrc hr⟩

/-! ### The request (R177, R202, R204) -/

theorem requestAdmitted_latchAndEncode {op : Op} (hop : opOfCode (funcOperand s) = some op)
    (hb : violatedBound s.cfg op (countOperand s) = none) : RequestAdmitted (latchAndEncode op s) :=
  fun _ => ⟨op, hop, fun _ hc => (violatedBound_eq_none hb hc).1⟩

theorem requestBuilt_latchAndEncode {op : Op} (hb : violatedBound s.cfg op (countOperand s) = none) :
    RequestBuilt (latchAndEncode op s) := by
  have hlen := latched_request_length_le hb
  have htx := (requestFrame_latchAndEncode hb).2
  intro _
  refine ⟨htx.trans_le hlen, fun a ha => ?_⟩
  rw [htx] at ha
  exact memGet_memWrite_zero_ne_none s.txBuf ha

/-! ### Reception (R33, R209) -/

theorem rxOvf_receiveByte_iff (b : Byte) (h : s.rxOvf = true ↔ ∃ c, s.cfg.rxCap = some c ∧ c < s.rxLen) :
    (receiveByte b s).rxOvf = true ↔ ∃ c, s.cfg.rxCap = some c ∧ c < s.rxLen + 1 := by
  rw [receiveByte_rxOvf]
  split
  · rename_i hroom
    rw [h]
    have room := hasRoom_iff.1 hroom
    constructor
    · rintro ⟨c, hc, hlt⟩; exact ⟨c, hc, by omega⟩
    · rintro ⟨c, hc, hlt⟩; have := room c hc; omega
  · rename_i hroom
    rw [hasRoom_iff] at hroom
    push Not at hroom
    obtain ⟨c, hc, hle⟩ := hroom
    exact ⟨fun _ => ⟨c, hc, by omega⟩, fun _ => rfl⟩

theorem memGet_rxBuf_receiveByte_ne_none (b : Byte)
    (h : ∀ a < s.rxLen, (∀ c, s.cfg.rxCap = some c → a < c) → memGet s.rxBuf a ≠ none) {a : Nat}
    (ha : a < s.rxLen + 1) (hfit : ∀ c, s.cfg.rxCap = some c → a < c) :
    memGet (receiveByte b s).rxBuf a ≠ none := by
  rw [receiveByte_rxBuf]
  by_cases hlast : a = s.rxLen
  · subst hlast
    rw [if_pos (hasRoom_iff.2 hfit), memGet_memSet_same]
    exact Option.some_ne_none b
  · have hold := h a (by omega) hfit
    split
    · rwa [memGet_memSet_other _ _ hlast]
    · exact hold

theorem receptionCounted_receiveByte (b : Byte) (hp : s.phase = .awaitingReply) (h : ReceptionCounted s) :
    ReceptionCounted (receiveByte b s) := by
  obtain ⟨hovf, hstored, -⟩ := h
  exact ⟨rxOvf_receiveByte_iff b hovf, fun _ => memGet_rxBuf_receiveByte_ne_none b hstored,
    fun hd => nomatch hp.symm.trans hd⟩

/-- In another state than Decoding with no byte received, reception is counted. -/
theorem receptionCounted_of_empty (h0 : s.rxLen = 0) (hovf : s.rxOvf = false) (hp : s.phase ≠ .decoding) :
    ReceptionCounted s := by
  refine ⟨?_, ?_, fun hd => absurd hd hp⟩
  · simp [h0, hovf]
  · simp [h0]

/-! ### The result group (R36, R37, R39, R248) -/

/-- No failure recorded, the group is legal where RBUF holds what RES_LEN counts. -/
theorem resultLegal_of_no_failure (hkind : s.res.resKind = 0) (hfc : s.res.fcKind = 0)
    (hlen : ∀ a < s.res.resLen.toNat, memGet s.rbuf a ≠ none) : ResultLegal s := by
  simpa [ResultLegal, hkind, hfc] using hlen

theorem resultLegal_finish_failed (f : Failure) (s : State) : ResultLegal (finish (.failed f) s) := by
  have hlen : (failureGroup f).resLen = 0 := by cases f <;> rfl
  have hkind : (failureGroup f).resKind ≤ 4 := by cases f <;> simp [failureGroup, ResultGroup.zero]
  have hfc : (failureGroup f).fcKind ≠ 0 ↔ (failureGroup f).resKind = 3 := by
    cases f <;> simp [failureGroup, ResultGroup.zero]
  refine ⟨hkind, hfc, fun _ => hlen, fun a ha => ?_⟩
  rw [show (finish (.failed f) s).res.resLen = 0 from hlen] at ha
  exact absurd ha (Nat.not_lt_zero a)

theorem resultLegal_finish_ok (data : List Word) (s : State) : ResultLegal (finish (.ok data) s) := by
  refine resultLegal_of_no_failure rfl rfl fun a ha => ?_
  have hle : (BitVec.ofNat 16 data.length).toNat ≤ data.length := by
    rw [BitVec.toNat_ofNat]; exact Nat.mod_le _ _
  exact memGet_memWrite_zero_ne_none s.rbuf (lt_of_lt_of_le ha hle)

theorem resultLegal_finish (r : Result) (s : State) : ResultLegal (finish r s) := by
  cases r with
  | ok data => exact resultLegal_finish_ok data s
  | failed f => exact resultLegal_finish_failed f s

/-! ### The whole invariant -/

/-- Reset meets the invariant under legal parameters (R48). -/
theorem inv_resetWith {p : Config.Params} (hp : p.legal = true) : Inv (State.resetWith p) where
  cfg := hp
  memory := by simp [MemoryCanonical, State.resetWith]
  phase := ⟨nofun, fun _ => rfl⟩
  request h := absurd rfl h
  built := nofun
  reception := receptionCounted_of_empty rfl rfl nofun
  reading := nofun
  timer :=
    have htd : p.tDefault < 2 ^ p.tw := of_decide_eq_true (Bool.and_eq_true_iff.1 hp).2
    ⟨htd, Nat.two_pow_pos _⟩
  result := resultLegal_of_no_failure rfl rfl fun a ha => absurd ha (Nat.not_lt_zero a)

theorem done_of_busy (hbusy : s.phase ≠ .idle) (h : Inv s) : s.done = false := h.phase.2 hbusy

theorem reading_of_not_awaiting (hp : s.phase ≠ .awaitingReply) (h : Inv s) : s.reading = false :=
  Bool.eq_false_iff.2 fun hr => hp (h.reading hr)

/-- An operation ends in a state of the invariant where no read is outstanding and the data fit RBUF (R248). -/
theorem inv_finish {r : Result} (hr : ∀ data, r = .ok data → data.length ≤ Config.rCap) (hread : s.reading = false)
    (h : Inv s) : Inv (finish r s) :=
  have ⟨hovf, hstored, _⟩ := h.reception
  { h with
    memory := memoryCanonical_finish hr h.memory
    phase := ⟨nofun, fun hi => absurd rfl hi⟩
    request := fun hi => absurd rfl hi
    built := nofun
    reception := ⟨hovf, hstored, nofun⟩
    reading := fun ht => nomatch hread.symm.trans ht
    result := resultLegal_finish r s }

theorem inv_fail (f : Failure) (hread : s.reading = false) (h : Inv s) : Inv (fail f s) :=
  inv_finish nofun hread h

theorem inv_stall (hp : s.phase = .awaitingReply) (h : Inv s) : Inv (stall s) := by
  have hbusy : s.phase ≠ .idle := by rw [hp]; nofun
  have hstop : Inv { s with ibt := 0, reading := false } :=
    { h with reading := nofun, timer := ⟨h.timer.1, Nat.two_pow_pos _⟩ }
  rcases stall_cases s with ⟨-, e⟩ | ⟨hpos, e⟩ <;> rw [e]
  · exact inv_fail _ rfl hstop
  · have hdone : s.done = false := done_of_busy hbusy h
    obtain ⟨hovf, hstored, -⟩ := h.reception
    exact { hstop with
      phase := ⟨nofun, fun _ => hdone⟩
      request := fun _ => h.request hbusy
      built := nofun
      reception := ⟨hovf, hstored, fun _ => hpos⟩
      reading := nofun }

theorem inv_latchAndEncode {op : Op} (hi : s.phase = .idle) (hd : s.done = false)
    (hop : opOfCode (funcOperand s) = some op) (hb : violatedBound s.cfg op (countOperand s) = none) (h : Inv s) :
    Inv (latchAndEncode op s) :=
  have ⟨hovf, hstored, _⟩ := h.reception
  { h with
    memory := memoryCanonical_latchAndEncode hb h.memory
    phase := ⟨nofun, fun _ => hd⟩
    request := requestAdmitted_latchAndEncode hop hb
    built := requestBuilt_latchAndEncode hb
    reception := ⟨hovf, hstored, nofun⟩
    reading := fun hr => nomatch hi.symm.trans (h.reading hr) }

theorem inv_accept {op : Op} (hi : s.phase = .idle) (hop : opOfCode (funcOperand s) = some op) (h : Inv s) :
    Inv (accept op s) := by
  have hread : s.reading = false := reading_of_not_awaiting (by rw [hi]; nofun) h
  have hclear : Inv (clearDone s) := { h with phase := ⟨h.phase.1, fun _ => rfl⟩ }
  rcases accept_cases op s with ⟨bound, -, e⟩ | ⟨hb, e⟩ <;> rw [e]
  · exact inv_fail _ hread hclear
  · exact inv_latchAndEncode hi rfl hop hb hclear

theorem inv_writeRequest (hp : s.phase = .sending) (h : Inv s) : Inv (writeRequest s) :=
  have hbusy : s.phase ≠ .idle := by rw [hp]; nofun
  have hdone : s.done = false := done_of_busy hbusy h
  { h with
    phase := ⟨nofun, fun _ => hdone⟩
    request := fun _ => h.request hbusy
    built := nofun
    reception := receptionCounted_of_empty rfl rfl nofun
    reading := nofun }

theorem inv_decodeMove {t : State} (hp : s.phase = .decoding) (hd : decodeMove s = .next t) (h : Inv s) : Inv t := by
  have hread : s.reading = false := reading_of_not_awaiting (by rw [hp]; nofun) h
  obtain ⟨op, r, -, -, hr, rfl⟩ := decodeMove_next hd
  have hcrc : Inv { s with crc := crcAfterDecode (received s) s.crc } := { h with }
  exact inv_finish hr hread hcrc

/-- Every transition of the block keeps the invariant. -/
theorem stepKeeps_inv : StepKeeps Inv where
  byte _ b hp h :=
    { h with
      memory := memoryCanonical_receiveByte b h.memory
      reception := receptionCounted_receiveByte b hp h.reception
      reading := fun _ => hp }
  issue _ hp h := { h with reading := fun _ => hp, timer := ⟨h.timer.1, h.timer.1⟩ }
  stall _ hp h := inv_stall hp h
  line _ _ h := { h with }
  count s h := { h with timer := ⟨h.timer.1, (countDown_le s.ibt).trans_lt h.timer.2⟩ }
  inputs _ _ h := { h with }
  endless _ _ h := { h with }
  discardIn _ _ h := { h with }
  discardOut _ _ h := { h with }
  write _ hp h := inv_writeRequest hp h
  decode _ _ hp hd h := inv_decodeMove hp hd h
  leave _ hp h := absurd hp h.phase.1
  accept _ _ hi hop h := inv_accept hi hop h
  operands _ _ _ _ h := { h with }
  entry _ _ v _ hlt h := { h with memory := memoryCanonical_setVbuf hlt v h.memory }
  values _ vs _ h := { h with memory := memoryCanonical_loadVbuf vs h.memory }
  timeout s t _ h := { h with timer := ⟨setTimer_lt t s, h.timer.2⟩ }
  port _ _ _ _ h := { h with }
  read _ _ _ _ h := { h with }
  wrapper _ _ _ h := { h with }
  noCall _ _ h := { h with }
  reset _ h := { inv_resetWith h.cfg with }

/-- Settles O59: the invariant is kept by every transition a step can be made of. -/
theorem stepKeepsInvariant : Obligations.StepKeepsInvariant := by
  unfold Obligations.StepKeepsInvariant
  exact fun s t hs h => stepKeeps_inv.step h hs

/-- Settles O57, conjunct by conjunct of the invariant. -/
theorem resetMeetsInvariant : Obligations.ResetMeetsInvariant := by
  unfold Obligations.ResetMeetsInvariant
  exact fun p hp => inv_resetWith hp

end Sys2Proof.Machine

/-! The register map as the host meets it: what a read returns, what a write leaves in every register, and which
accesses are refused (10_state.md R36 to R40; 93_implementation_defined.md U8, U9). -/

namespace Sys2Proof.Machine

open Claims

/-! ### Numbers and registers (R40) -/

/-- The number of a register. -/
def regNumber : Reg → Nat
  | .cmdUnit => 0x00
  | .cmdFunc => 0x01
  | .cmdAddr => 0x02
  | .cmdCount => 0x03
  | .cmdValue => 0x04
  | .ctrl => 0x05
  | .status => 0x06
  | .tCfg => 0x07
  | .resKind => 0x08
  | .fcKind => 0x09
  | .excCode => 0x0A
  | .crcRx => 0x0B
  | .crcCalc => 0x0C
  | .exp => 0x0D
  | .got => 0x0E
  | .misField => 0x0F
  | .resLen => 0x10
  | .rxLen => 0x11
  | .crcSeed => 0x12
  | .crcDin => 0x13
  | .crcVal => 0x14
  | .vbuf i => 0x1000 + i
  | .rbuf i => 0x2000 + i

theorem toNat_eq_regNumber {reg : Word} {r : Reg} (h : registerAt reg = some r) : reg.toNat = regNumber r := by
  unfold registerAt at h
  dsimp only at h
  split at h
  · unfold lowRegister at h
    split at h <;> cases h <;> assumption
  · split at h
    · cases h; simp only [regNumber]; omega
    · split at h
      · cases h
      · split at h
        · cases h; simp only [regNumber]; omega
        · cases h

/-- Two numbers never name one register. -/
theorem registerAt_injective {a b : Word} {r : Reg} (ha : registerAt a = some r) (hb : registerAt b = some r) :
    a = b :=
  BitVec.eq_of_toNat_eq ((toNat_eq_regNumber ha).trans (toNat_eq_regNumber hb).symm)

/-! ### Reads in Idle -/

/-- What a host read of a register returns in Idle; the write-only registers return nothing (R40). -/
def idleValue (s : State) : Reg → Option HostWord
  | .cmdUnit => some (unitOperand s).toNat
  | .cmdFunc => some (funcOperand s).toNat
  | .cmdAddr => some (addrOperand s).toNat
  | .cmdCount => some (countOperand s).toNat
  | .cmdValue => some (valueOperand s).toNat
  | .ctrl => some 0
  | .status => some (statusWord s).toNat
  | .tCfg => some s.tCfg
  | .resKind => some s.res.resKind.toNat
  | .fcKind => some s.res.fcKind.toNat
  | .excCode => some s.res.excCode.toNat
  | .crcRx => some s.res.crcRx.toNat
  | .crcCalc => some s.res.crcCalc.toNat
  | .exp => some s.res.exp.toNat
  | .got => some s.res.got.toNat
  | .misField => some (BitVec.ofBool s.res.misField).toNat
  | .resLen => some s.res.resLen.toNat
  | .rxLen => some (saturate s.rxLen).toNat
  | .crcSeed => none
  | .crcDin => none
  | .crcVal => some (hostCrc s).toNat
  | .vbuf i => some (vbufEntry s i).toNat
  | .rbuf i => some (rbufEntry s i).toNat

theorem answerResult_idle {w : Nat} {s : State} (hi : s.phase = .idle) (reg : Word) (v : BitVec w) :
    answerResult reg v s = answerRead reg v.toNat s :=
  if_neg (by rw [busy_eq_false_iff.2 hi]; exact Bool.false_ne_true)

theorem hostRead_idle {reg : Word} {r : Reg} {v : HostWord} {s : State} (hi : s.phase = .idle)
    (hreg : registerAt reg = some r) (hv : idleValue s r = some v) : hostRead reg s = .next (answerRead reg v s) := by
  unfold hostRead
  rw [hreg]
  cases r <;> cases hv
  case crcVal =>
    obtain rfl : reg = 0x14 := BitVec.eq_of_toNat_eq (toNat_eq_regNumber hreg)
    exact whenIdle_idle hi _ _
  all_goals simp only [answerResult_idle hi]

theorem hostRead_writeOnly {reg : Word} {r : Reg} (hreg : registerAt reg = some r) (hr : r = .crcSeed ∨ r = .crcDin)
    (s : State) : hostRead reg s = .refused (.writeOnlyRegister reg) := by
  unfold hostRead
  rw [hreg]
  rcases hr with rfl | rfl <;> rfl

theorem hostRead_reserved {reg : Word} (hreg : registerAt reg = none) (s : State) :
    hostRead reg s = .refused (.reservedRegister reg) := by
  unfold hostRead
  rw [hreg]

theorem idleValue_eq_none {s : State} {r : Reg} (h : idleValue s r = none) : r = .crcSeed ∨ r = .crcDin := by
  cases r <;> cases h
  case crcSeed => exact .inl rfl
  case crcDin => exact .inr rfl

theorem readBack_of_refused {reg : Word} {why : Refusal} {s : State} (h : hostRead reg s = .refused why) :
    readBack reg s = none := by
  unfold readBack
  rw [consumePacket_read, h]

/-- A register read in Idle gives back its value. -/
theorem readBack_register {reg : Word} {r : Reg} {s : State} (hi : s.phase = .idle) (hreg : registerAt reg = some r) :
    readBack reg s = idleValue s r := by
  cases hv : idleValue s r with
  | none => exact readBack_of_refused (hostRead_writeOnly hreg (idleValue_eq_none hv) s)
  | some v =>
    unfold readBack
    rw [consumePacket_read, hostRead_idle hi hreg hv]
    simp [answerRead]

theorem readBack_reserved {reg : Word} (hreg : registerAt reg = none) (s : State) : readBack reg s = none :=
  readBack_of_refused (hostRead_reserved hreg s)

/-! ### Writes in Idle -/

/-- The width of a register that a host write sets to the value written, under parameters `p`; the others have none
(R40). -/
def storeWidth (p : Config.Params) : Reg → Option Nat
  | .cmdUnit => some 8
  | .cmdFunc => some 8
  | .cmdAddr => some 16
  | .cmdCount => some 16
  | .cmdValue => some 16
  | .tCfg => some p.tw
  | .vbuf _ => some 16
  | _ => none

/-- The state after `d` is stored in register `r` (R40). -/
def storeRegister (r : Reg) (d : HostWord) (s : State) : State :=
  match r with
  | .cmdUnit => setUnit (BitVec.ofNat 8 d) s
  | .cmdFunc => setFunc (BitVec.ofNat 8 d) s
  | .cmdAddr => setAddr (BitVec.ofNat 16 d) s
  | .cmdCount => setCount (BitVec.ofNat 16 d) s
  | .cmdValue => setValue (BitVec.ofNat 16 d) s
  | .tCfg => setTimer d s
  | .vbuf i => setVbuf i (BitVec.ofNat 16 d) s
  | _ => s

theorem hostWrite_idle {reg : Word} {r : Reg} {w : Nat} {s : State} (hi : s.phase = .idle)
    (hreg : registerAt reg = some r) (hw : storeWidth s.cfg r = some w) (d : HostWord) :
    hostWrite reg d s = .next (storeRegister r d s) := by
  unfold hostWrite
  rw [hreg]
  cases r <;> cases hw <;> exact whenIdle_idle hi _ _

@[simp] theorem storeRegister_phase (r : Reg) (d : HostWord) (s : State) : (storeRegister r d s).phase = s.phase := by
  cases r <;> rfl

theorem vbufEntry_setVbuf (i j : Nat) (v : Word) (s : State) :
    vbufEntry (setVbuf i v s) j = if j = i then v else vbufEntry s j := by
  unfold vbufEntry
  rw [setVbuf_vbuf, memGet_memSet]
  split <;> rfl

/-- A register stored reads as the value truncated to its width. -/
theorem idleValue_storeRegister_same {r : Reg} {w : Nat} {s : State} (hw : storeWidth s.cfg r = some w)
    (d : HostWord) : idleValue (storeRegister r d s) r = some (d % 2 ^ w) := by
  cases r <;> cases hw
  case vbuf i =>
    show some (vbufEntry (setVbuf i (BitVec.ofNat 16 d) s) i).toNat = _
    rw [vbufEntry_setVbuf, if_pos rfl, BitVec.toNat_ofNat]
  all_goals rfl

/-- A register stored changes the value of no other. -/
theorem idleValue_storeRegister_other {r r' : Reg} (hne : r' ≠ r) (d : HostWord) (s : State) :
    idleValue (storeRegister r d s) r' = idleValue s r' := by
  cases r <;> cases r'
  case vbuf.vbuf i j =>
    show some (vbufEntry (setVbuf i (BitVec.ofNat 16 d) s) j).toNat = _
    rw [vbufEntry_setVbuf, if_neg fun e => hne (by rw [e])]
    rfl
  -- Elsewhere the two are one register, or reading `r'` does not meet what was stored.
  all_goals first | exact absurd rfl hne | rfl

/-- The numbers of the registers the host may write in Idle (R40, R29). -/
theorem storeWidth_of_number {p : Config.Params} {reg : Word} {w : Nat}
    (h : (reg, w) ∈ [((0x00 : Word), 8), (0x01, 8), (0x02, 16), (0x03, 16), (0x04, 16), (0x07, p.tw)] ∨
      (0x1000 ≤ reg.toNat ∧ reg.toNat < 0x1000 + 1968 ∧ w = 16)) :
    ∃ r, registerAt reg = some r ∧ storeWidth p r = some w := by
  rcases h with h | ⟨h1, h2, rfl⟩
  · simp only [List.mem_cons, Prod.mk.injEq, List.not_mem_nil, or_false] at h
    rcases h with ⟨rfl, rfl⟩ | ⟨rfl, rfl⟩ | ⟨rfl, rfl⟩ | ⟨rfl, rfl⟩ | ⟨rfl, rfl⟩ | ⟨rfl, rfl⟩
    all_goals exact ⟨_, rfl, rfl⟩
  · exact ⟨_, registerAt_vbufWindow h1 h2, rfl⟩

/-- Settles O13: the write stores into one register, which reads back, and the reads of every other register number
go through another register or none. -/
theorem registerWriteReadsBack : Obligations.RegisterWriteReadsBack := by
  unfold Obligations.RegisterWriteReadsBack
  intro s reg w d hi h
  obtain ⟨r, hreg, hw⟩ := storeWidth_of_number h
  have hi' : (storeRegister r d s).phase = .idle := (storeRegister_phase r d s).trans hi
  refine ⟨storeRegister r d s, ?_, ?_, fun other hne => ?_⟩
  · rw [consumePacket_write, hostWrite_idle hi hreg hw d]
  · rw [readBack_register hi' hreg, idleValue_storeRegister_same hw]
  · cases ho : registerAt other with
    | none => rw [readBack_reserved ho, readBack_reserved ho]
    | some r' =>
      have hr : r' ≠ r := fun e => hne (registerAt_injective ho (e ▸ hreg))
      rw [readBack_register hi' ho, readBack_register hi ho, idleValue_storeRegister_other hr]

/-! ### The result group (R36 to R40) -/

theorem toNat_saturate (n : Nat) : (saturate n).toNat = min n 0xFFFF := by
  unfold saturate
  rw [BitVec.toNat_ofNat]
  exact Nat.mod_eq_of_lt (by omega)

theorem registerAt_rbufNumber {i : Nat} (h : i < 2000) :
    registerAt (BitVec.ofNat 16 (0x2000 + i)) = some (.rbuf i) := by
  have hn : (BitVec.ofNat 16 (0x2000 + i)).toNat = 0x2000 + i := by
    rw [BitVec.toNat_ofNat]; exact Nat.mod_eq_of_lt (by omega)
  have hcap : Config.rCap = 2000 := rfl
  rw [registerAt_rbufWindow (by omega) (by omega), hn, Nat.add_sub_cancel_left]

theorem rbufEntry_eq {s : State} {i : Nat} {v : Word} (hi : i < s.res.resLen.toNat) (hv : memGet s.rbuf i = some v) :
    rbufEntry s i = v := by
  unfold rbufEntry
  rw [if_pos hi, hv, Option.getD_some]

/-- Settles O15, register by register. -/
theorem resultGroupReads : Obligations.ResultGroupReads := by
  unfold Obligations.ResultGroupReads
  intro s hi
  refine ⟨readBack_register (r := .resKind) hi rfl,
    readBack_register (r := .fcKind) hi rfl,
    readBack_register (r := .excCode) hi rfl,
    readBack_register (r := .crcRx) hi rfl,
    readBack_register (r := .crcCalc) hi rfl,
    readBack_register (r := .exp) hi rfl,
    readBack_register (r := .got) hi rfl, ?_,
    readBack_register (r := .resLen) hi rfl, ?_, fun i v hlen hcap hv => ?_⟩
  · rw [readBack_register (r := .misField) hi rfl]
    cases h : s.res.misField <;> simp [idleValue, h]
  · rw [readBack_register (r := .rxLen) hi rfl]
    exact congrArg some (toNat_saturate s.rxLen)
  · rw [readBack_register hi (registerAt_rbufNumber hcap)]
    exact congrArg (fun w : Word => some w.toNat) (rbufEntry_eq hlen hv)

/-! ### Accesses the map does not give (R40, U8, U9) -/

/-- The registers R40 makes read-only. -/
def readOnly : Reg → Bool
  | .status | .resKind | .fcKind | .excCode | .crcRx | .crcCalc | .exp | .got | .misField | .resLen | .rxLen | .crcVal
  | .rbuf _ => true
  | _ => false

theorem hostWrite_readOnly {reg : Word} {r : Reg} (hreg : registerAt reg = some r) (hr : readOnly r = true)
    (d : HostWord) (s : State) : hostWrite reg d s = .refused (.readOnlyRegister reg) := by
  unfold hostWrite
  rw [hreg]
  cases r <;> cases hr <;> rfl

theorem hostWrite_reserved {reg : Word} (hreg : registerAt reg = none) (d : HostWord) (s : State) :
    hostWrite reg d s = .refused (.reservedRegister reg) := by
  unfold hostWrite
  rw [hreg]

theorem registerAt_eq_none {reg : Word} (h : (0x15 ≤ reg.toNat ∧ reg.toNat < 0x1000) ∨
    (0x1000 + 1968 ≤ reg.toNat ∧ reg.toNat < 0x2000) ∨ 0x2000 + 2000 ≤ reg.toNat) : registerAt reg = none := by
  rcases h with ⟨h1, h2⟩ | ⟨h1, h2⟩ | h
  · rw [registerAt_low h2, lowRegister_reserved h1]
  · exact registerAt_gap h1 h2
  · exact registerAt_above h

theorem lowRegister_resultWindow {n : Nat} (h1 : 0x08 ≤ n) (h2 : n ≤ 0x11) :
    ∃ r, lowRegister n = some r ∧ readOnly r = true := by
  interval_cases n <;> exact ⟨_, rfl, rfl⟩

theorem registerAt_readOnly {reg : Word} (h : reg = 0x06 ∨ (0x08 ≤ reg.toNat ∧ reg.toNat ≤ 0x11) ∨ reg = 0x14 ∨
    (0x2000 ≤ reg.toNat ∧ reg.toNat < 0x2000 + 2000)) : ∃ r, registerAt reg = some r ∧ readOnly r = true := by
  rcases h with rfl | ⟨h1, h2⟩ | rfl | ⟨h1, h2⟩
  · exact ⟨.status, rfl, rfl⟩
  · rw [registerAt_low (by omega)]
    exact lowRegister_resultWindow h1 h2
  · exact ⟨.crcVal, rfl, rfl⟩
  · exact ⟨_, registerAt_rbufWindow h1 h2, rfl⟩

theorem registerAt_writeOnly {reg : Word} (h : reg = 0x12 ∨ reg = 0x13) :
    ∃ r, registerAt reg = some r ∧ (r = .crcSeed ∨ r = .crcDin) := by
  rcases h with rfl | rfl
  · exact ⟨_, rfl, .inl rfl⟩
  · exact ⟨_, rfl, .inr rfl⟩

/-- A packet that decodes to no instruction is turned away or run as what it is (R40, log entry 24). -/
theorem consumePacket_rejected {p : Packet} {why : Reject} (h : decode p = .error why) (s : State) :
    consumePacket p s = unlisted why p s := by
  unfold consumePacket
  rw [h]

/-- Bytes that are no call of an operation are turned away by the wrapper (log entry 24). -/
theorem unlisted_call {why : Reject} (h : why ≠ .callFunction) (f : List Byte) (s : State) :
    unlisted why (.call f) s = .next (emit [.noCall why] s) := by
  cases why
  case callFunction => exact absurd rfl h
  all_goals rfl

/-- Settles O17: the register numbers by what the map gives them, the bytes by why they are no call. -/
theorem unlistedAccessesRefused : Obligations.UnlistedAccessesRefused := by
  unfold Obligations.UnlistedAccessesRefused
  intro s reg d
  refine ⟨fun h => ?_, fun h => ?_, fun h => ?_, fun f why hd => ⟨?_, fun hne => ?_⟩⟩
  · have hreg := registerAt_eq_none h
    exact ⟨(consumePacket_read reg s).trans (hostRead_reserved hreg s),
      (consumePacket_write reg d s).trans (hostWrite_reserved hreg d s)⟩
  · obtain ⟨r, hreg, hr⟩ := registerAt_readOnly h
    exact (consumePacket_write reg d s).trans (hostWrite_readOnly hreg hr d s)
  · obtain ⟨r, hreg, hr⟩ := registerAt_writeOnly h
    exact (consumePacket_read reg s).trans (hostRead_writeOnly hreg hr s)
  · rintro rfl
    rw [consumePacket_rejected hd]
    rfl
  · rw [consumePacket_rejected hd, unlisted_call hne]
    rfl

/-! ### STATUS and the values after reset (R30, R31, R40, R48) -/

theorem statusWord_toNat (s : State) :
    (statusWord s).toNat = (phaseCode s.phase).toNat + 8 * (busy s).toNat + 16 * s.done.toNat := by
  unfold statusWord busy
  cases s.phase <;> cases s.done <;> rfl

/-- Settles O14: STATUS is read in every state alike, and its bits are those of STATE, BUSY and DONE. -/
theorem statusReadsStateBusyDone : Obligations.StatusReadsStateBusyDone := by
  unfold Obligations.StatusReadsStateBusyDone
  refine fun s => ⟨consumePacket_read 0x06 s, ?_⟩
  rw [statusWord_toNat, busy]
  cases s.phase <;> cases s.done <;> rfl

/-- Settles O55: the fields by their definition, STATUS by what a read in Idle returns. -/
theorem resetValues : Obligations.ResetValues := by
  unfold Obligations.ResetValues
  intro p
  have hstatus : readBack 0x06 (State.resetWith p) = some 0 :=
    (readBack_register (r := .status) rfl rfl).trans (congrArg some (statusWord_toNat (State.resetWith p)))
  exact ⟨rfl, rfl, rfl, rfl, rfl, rfl, rfl, rfl, rfl, rfl, rfl, rfl, rfl, rfl, rfl, hstatus⟩

/-! ### Bytes that nothing reads (R44, R82, R254) -/

/-- Settles O46: every reply row is its frame delivered, and outside AwaitingReply the frame joins the Line. -/
theorem unreadRepliesWait : Obligations.UnreadRepliesWait := by
  unfold Obligations.UnreadRepliesWait
  intro s i f he hp
  rw [exec_of_encode_reply he]
  exact if_neg hp

/-- The state with the bytes `bs` behind those that wait in the Line's input buffer (R44). -/
def joinLine (bs : List Byte) (s : State) : State := { s with line := { s.line with inBuf := s.line.inBuf ++ bs } }

theorem joinLine_nil (s : State) : joinLine [] s = s := by simp [joinLine]

theorem joinLine_joinLine (as bs : List Byte) (s : State) : joinLine bs (joinLine as s) = joinLine (as ++ bs) s := by
  simp [joinLine]

theorem arrive_idle {s : State} (hi : s.phase = .idle) (b : Byte) : arrive b s = joinLine [b] s := by
  have hw : awaitsAnswer s = false :=
    Bool.eq_false_iff.2 fun h => nomatch hi.symm.trans (awaitsAnswer_iff.1 h).1
  unfold arrive
  rw [hw]
  rfl

theorem step_rx_idle {s : State} (hi : s.phase = .idle) (b : Byte) (rest : List Input) :
    step (withInputs (.rx b :: rest) s) = .next (withInputs rest (joinLine [b] s)) := by
  rw [step_inputs s _ rest (.inl hi), consume, arrive_idle (s := withInputs rest s) hi]
  rfl

theorem run_rx_idle (bs : List Byte) (rest : List Input) {s : State} (hi : s.phase = .idle) :
    core.run bs.length (withInputs (bs.map .rx ++ rest) s) = .next (withInputs rest (joinLine bs s)) := by
  induction bs generalizing s with
  | nil => rw [joinLine_nil]; rfl
  | cons b bs ih =>
    calc core.run (bs.length + 1) (withInputs (.rx b :: (bs.map .rx ++ rest)) s)
      _ = core.run bs.length (withInputs (bs.map .rx ++ rest) (joinLine [b] s)) :=
        run_succ bs.length (step_rx_idle hi b _)
      _ = .next (withInputs rest (joinLine bs (joinLine [b] s))) := ih hi
      _ = .next (withInputs rest (joinLine (b :: bs) s)) := by rw [joinLine_joinLine]; rfl

theorem step_discardIn {s : State} (hp : s.phase = .sending) (hs : s.sendStage = .discardIn)
    (he : landsEarly s.inputs = false) : step s = .next (discardIn s) := by
  have ho : ownMove s = some (.next (discardIn s)) := by
    unfold ownMove sendStep
    rw [hp, hs]
  exact step_own he ho

/-- Settles O28: in Idle byte by byte; in Sending the first discard drops whatever waited. -/
theorem staleBytesAreDiscarded : Obligations.StaleBytesAreDiscarded := by
  unfold Obligations.StaleBytesAreDiscarded
  exact fun s bs rest => ⟨run_rx_idle bs rest, fun hp hs he =>
    ⟨discardIn s, step_discardIn hp hs he,
      step_discardIn (s := { s with line := { s.line with inBuf := bs } }) hp hs he, rfl⟩⟩

end Sys2Proof.Machine

/-! What a step is made of: the host's accesses, an accepted `Start`, the block's sending, and the Line's events with
the decode at their end (43_transaction.md R200 to R214, 10_state.md R40). -/

namespace Sys2Proof.Machine

open Claims

/-! ### What is emitted -/

/-- From `s` to `t` the block emits outputs of the kind `E` only, and what was emitted before stands. -/
def Emits (E : Output → Prop) (s t : State) : Prop := ∃ es, t.out = s.out ++ es ∧ ∀ e ∈ es, E e

theorem Emits.of_out_eq {E : Output → Prop} {s t : State} (h : t.out = s.out) : Emits E s t :=
  ⟨[], by rw [h, List.append_nil], nofun⟩

theorem Emits.trans {E : Output → Prop} {s t u : State} (h : Emits E s t) (h' : Emits E t u) : Emits E s u := by
  obtain ⟨es, ht, hE⟩ := h
  obtain ⟨fs, hu, hF⟩ := h'
  exact ⟨es ++ fs, by rw [hu, ht, List.append_assoc], List.forall_mem_append.2 ⟨hE, hF⟩⟩

theorem Emits.append_one {E : Output → Prop} {s t u : State} {e : Output} (h : Emits E s u)
    (ht : t.out = u.out ++ [e]) (he : E e) : Emits E s t :=
  h.trans ⟨[e], ht, List.forall_mem_singleton.2 he⟩

theorem Emits.mono {E F : Output → Prop} {s t : State} (h : Emits E s t) (hEF : ∀ e, E e → F e) : Emits F s t := by
  obtain ⟨es, hes, hE⟩ := h
  exact ⟨es, hes, fun e he => hEF e (hE e he)⟩

/-! ### The host's side -/

/-- What the host alone is answered: the value of a read, or the wrapper's own refusals (R40, R125). -/
def isHostAnswer : Output → Bool
  | .data _ _ => true
  | .wrapperError _ _ => true
  | .noCall _ => true
  | _ => false

/-- From `s` to `t` the host's accesses alone have acted: only what the host writes has changed, and only the host has
been answered (R40). -/
structure HostSide (s t : State) : Prop where
  frame : t = { s with cmd := t.cmd, written := t.written, vbuf := t.vbuf, tCfg := t.tCfg, crc := t.crc,
                       crcOwned := t.crcOwned, out := t.out, draws := t.draws }
  out : Emits (isHostAnswer · = true) s t

namespace HostSide

variable {s t : State}

theorem refl (s : State) : HostSide s s := ⟨rfl, .of_out_eq rfl⟩

theorem res (h : HostSide s t) : t.res = s.res := (congrArg State.res h.frame :)

theorem rbuf (h : HostSide s t) : t.rbuf = s.rbuf := (congrArg State.rbuf h.frame :)

/-- An answer to the host. -/
theorem answer {e : Output} (he : isHostAnswer e = true) (n : Nat) (s : State) :
    HostSide s { s with out := s.out ++ [e], draws := n } :=
  ⟨rfl, (Emits.of_out_eq rfl).append_one (u := s) rfl he⟩

end HostSide

/-! ### The reception of a reply -/

/-- From `s` to `t` the block receives and decodes: the Line's events and the reads they answer, and the decode at their
end (R208 to R212). -/
inductive Receives (s : State) : State → Prop
  | refl : Receives s s
  | byte {t : State} (b : Byte) : t.phase = .awaitingReply → Receives s t → Receives s (receiveByte b t)
  | issue {t : State} : t.phase = .awaitingReply → Receives s t → Receives s (issueRead t)
  | stall {t : State} : t.phase = .awaitingReply → Receives s t → Receives s (stall t)
  | line {t : State} (l : Line) : Receives s t → Receives s { t with line := l }
  | count {t : State} : Receives s t → Receives s { t with ibt := countDown t.ibt }
  | inputs {t : State} (xs : List Input) : Receives s t → Receives s (withInputs xs t)
  | endless {t : State} (n : Option Nat) : Receives s t → Receives s { t with endless := n }
  | decode {t u : State} : t.phase = .decoding → decodeMove t = .next u → Receives s t → Receives s u

/-- Each of the Line's events goes on with the reception. -/
theorem lineKeeps_receives (s : State) : LineKeeps (Receives s) where
  byte _ b hp h := h.byte b hp
  issue _ hp h := h.issue hp
  stall _ hp h := h.stall hp
  line _ l h := h.line l
  count _ h := h.count
  inputs _ xs h := h.inputs xs
  endless _ n h := h.endless n

theorem receives_deliverReply {f : List Byte} {s t : State} (h : deliverReply f s = .next t) : Receives s t := by
  rcases deliverReply_next h with ⟨-, rfl⟩ | ⟨hp, u, hu, hd⟩
  · exact Receives.refl.line _
  · have hr : (readOn { s with line := { s.line with inBuf := [] } }).phase = .awaitingReply := by
      rw [readOn_phase]; exact hp
    have hsu : Receives s u := hu ▸ Receives.stall (by rw [receiveBytes_phase, hr])
      ((lineKeeps_receives s).receiveBytes _ hr ((lineKeeps_receives s).readOn (Receives.refl.line _)))
    rcases hd with ⟨hdec, hd⟩ | rfl
    · exact hsu.decode hdec hd
    · exact hsu

/-- The whole transaction: the accepted `Start` alone, or the request sent and what the Line makes of it (R214). -/
theorem transact_next {op : Op} {s t : State} (h : transact op s = .next t) :
    t = accept op s ∨ ((accept op s).phase = .sending ∧ Receives (sendRequest (accept op s)) t) := by
  unfold transact at h
  dsimp only at h
  split at h
  · rename_i hs
    have hr := (lineKeeps_receives (sendRequest (accept op s))).awaitReply (accept op s).inputs .refl
    unfold afterAwait at h
    split at h
    · rename_i hd; exact .inr ⟨hs, hr.decode hd h⟩
    · cases h; exact .inr ⟨hs, hr⟩
  · cases h; exact .inl rfl

/-! ### One event -/

/-- What one event other than a reset makes of `s`. `call` is what a whole transaction in one step asks for: that the
event is a call of an operation (R200, R214). -/
inductive Move (call : Prop) (s : State) : State → Prop
  | host {t : State} : HostSide s t → Move call s t
  | send : s.phase = .sending → Move call s (sendStep s)
  | leave : s.phase = .failed → Move call s (leaveFailed s)
  | receive {t : State} : Receives s t → Move call s t
  | start {u : State} (op : Op) : s.phase = .idle → HostSide s u → opOfCode (funcOperand u) = some op →
      Move call s (accept op u)
  | transact {u t : State} (op : Op) : call → s.phase = .idle → HostSide s u → opOfCode (funcOperand u) = some op →
      (accept op u).phase = .sending → Receives (sendRequest (accept op u)) t → Move call s t

/-! ### The host's events -/

theorem startOperation_move {c : Prop} {s t : State} (h : startOperation s = .next t) : Move c s t := by
  obtain ⟨hi, op, hop, rfl⟩ := startOperation_next h
  exact .start op hi (.refl s) hop

theorem hostWrite_move {c : Prop} {reg : Word} {d : HostWord} {s t : State} (h : hostWrite reg d s = .next t) :
    Move c s t := by
  unfold hostWrite at h
  split at h
  case h_7 =>
    split at h
    · exact startOperation_move h
    · cases h; exact .host (.refl s)
  case h_2 | h_3 | h_4 | h_5 | h_6 | h_8 | h_9 | h_10 | h_11 =>
    obtain ⟨-, rfl⟩ := whenIdle_next h
    exact .host ⟨rfl, .of_out_eq rfl⟩
  all_goals cases h

section calls

variable {c : Prop} (hc : c) {op : Op} {s t : State}
include hc

/-- A call of an operation is the host's register writes, then the transaction (R125, R214). -/
theorem callOperation_move {load : State → State} (hl : HostSide s (load s))
    (hop : opOfCode (funcOperand (load s)) = some op) (h : callOperation op load s = .next t) : Move c s t := by
  unfold callOperation at h
  split at h
  · cases h
  · rename_i hb
    have hi : s.phase = .idle := busy_eq_false_iff.1 (by simpa using hb)
    rcases transact_next h with rfl | ⟨ha, hr⟩
    · exact .start op hi hl hop
    · exact .transact op hc hi hl hop ha hr

theorem callRead_move {u : Byte} {a q : Word} (h : callOperation op (loadRead op u a q) s = .next t) : Move c s t :=
  callOperation_move hc ⟨rfl, .of_out_eq rfl⟩ (by simp) h

theorem callSingle_move {u : Byte} {a v : Word} (h : callOperation op (loadSingle op u a v) s = .next t) :
    Move c s t :=
  callOperation_move hc ⟨rfl, .of_out_eq rfl⟩ (by simp) h

theorem callMultiple_move {u : Byte} {a : Word} {vs : List Word} (h : callMultiple op u a vs s = .next t) :
    Move c s t := by
  rcases callMultiple_cases op u a vs s with ⟨-, e⟩ | ⟨-, bound, e⟩ <;> rw [e] at h
  · exact callOperation_move hc ⟨rfl, .of_out_eq rfl⟩ (by simp) h
  · cases h; exact .host (.answer rfl s.draws s)

theorem exec_call_move {i : Instr} {f : List Byte} (he : encode i = .call f) (h : exec i s = .next t) :
    Move c s t := by
  cases i <;> cases he
  case readCoils | readDiscreteInputs | readHoldingRegisters | readInputRegisters => exact callRead_move hc h
  case writeSingleCoil | writeSingleRegister => exact callSingle_move hc h
  case writeMultipleCoils | writeMultipleRegisters => exact callMultiple_move hc h

end calls

/-! ### Which side a packet's instruction is of (R110, R111) -/

theorem callFields_ok {rest : List Byte} {k : Word → Word → Except Reject Instr} {i : Instr}
    (h : callFields rest k = .ok i) : ∃ a b, k a b = .ok i := by
  unfold callFields at h
  split at h
  · exact ⟨_, _, h⟩
  · cases h

theorem callData_ok {rest : List Byte} {need : Nat → Nat} {k : Word → Nat → List Byte → Except Reject Instr}
    {i : Instr} (h : callData rest need k = .ok i) : ∃ a q d, k a q d = .ok i := by
  unfold callData at h
  split at h
  · dsimp only at h
    split at h
    · cases h
    · split at h
      · cases h
      · exact ⟨_, _, _, h⟩
  · cases h

theorem callCoil_ok {u : Byte} {a v : Word} {i : Instr} (h : callCoil u a v = .ok i) :
    ∃ on, i = .writeSingleCoil u a on := by
  unfold callCoil at h
  split at h
  · cases h; exact ⟨true, rfl⟩
  · split at h
    · cases h; exact ⟨false, rfl⟩
    · cases h

/-- What a call decodes to is one of the eight operations. -/
theorem encode_of_decodeCall {f : List Byte} {i : Instr} (h : decodeCall f = .ok i) : ∃ g, encode i = .call g := by
  unfold decodeCall at h
  split at h
  · split at h
    case h_1 => cases h
    case h_2 | h_3 | h_4 | h_5 | h_7 => obtain ⟨a, b, h⟩ := callFields_ok h; cases h; exact ⟨_, rfl⟩
    case h_6 =>
      obtain ⟨a, b, h⟩ := callFields_ok h
      obtain ⟨on, rfl⟩ := callCoil_ok h
      exact ⟨_, rfl⟩
    case h_8 | h_9 => obtain ⟨a, q, d, h⟩ := callData_ok h; cases h; exact ⟨_, rfl⟩
  · cases h

theorem replyData_ok {rest : List Byte} {k : Byte → List Byte → Word → Instr} {i : Instr}
    (h : replyData rest k = .ok i) : ∃ n d crc, i = k n d crc := by
  unfold replyData at h
  split at h
  · split at h
    · cases h; exact ⟨_, _, _, rfl⟩
    · cases h
  · cases h

theorem replyEcho_ok {rest : List Byte} {k : Word → Word → Word → Instr} {i : Instr}
    (h : replyEcho rest k = .ok i) : ∃ a b crc, i = k a b crc := by
  unfold replyEcho at h
  split at h
  · cases h; exact ⟨_, _, _, rfl⟩
  · cases h

/-- What a reply decodes to is one of the nine replies. -/
theorem encode_of_decodeReply {f : List Byte} {i : Instr} (h : decodeReply f = .ok i) : ∃ g, encode i = .reply g := by
  unfold decodeReply at h
  split at h
  · split at h
    · obtain ⟨n, d, crc, rfl⟩ := replyData_ok h; exact ⟨_, rfl⟩
    · split at h
      case h_1 => cases h
      case h_2 | h_3 | h_4 | h_5 => obtain ⟨n, d, crc, rfl⟩ := replyData_ok h; exact ⟨_, rfl⟩
      case h_6 | h_7 | h_8 | h_9 => obtain ⟨a, b, crc, rfl⟩ := replyEcho_ok h; exact ⟨_, rfl⟩
  · cases h

/-- A reply packet is its bytes delivered, whether a reply format fits it or not (R208). -/
theorem consumePacket_reply_next {f : List Byte} {s t : State} (h : consumePacket (.reply f) s = .next t) :
    ∃ g, deliverReply g s = .next t := by
  unfold consumePacket at h
  split at h
  · rename_i hd
    obtain ⟨g, hg⟩ := encode_of_decodeReply hd
    exact ⟨g, exec_of_encode_reply hg s ▸ h⟩
  · exact ⟨f, h⟩

theorem consumePacket_call_move {c : Prop} (hc : c) {f : List Byte} {s t : State}
    (h : consumePacket (.call f) s = .next t) : Move c s t := by
  unfold consumePacket at h
  split at h
  · rename_i hd
    obtain ⟨g, hg⟩ := encode_of_decodeCall hd
    exact exec_call_move hc hg h
  · unfold unlisted at h
    dsimp only at h
    split at h
    · cases h
    · cases h; exact .host (.answer rfl s.draws s)

/-- A packet, by the side it arrives at and what it asks for (R8). -/
theorem consumePacket_move {c : Prop} {p : Packet} (hc : ∀ f, p = .call f → c) {s t : State}
    (h : consumePacket p s = .next t) : Move c s t := by
  cases p with
  | write reg d => exact hostWrite_move (consumePacket_write reg d s ▸ h)
  | read reg =>
    obtain ⟨v, n, rfl⟩ := hostRead_next (consumePacket_read reg s ▸ h)
    exact .host (.answer rfl n s)
  | reply f => obtain ⟨g, hg⟩ := consumePacket_reply_next h; exact .receive (receives_deliverReply hg)
  | call f => exact consumePacket_call_move (hc f rfl) h

/-! ### One step -/

theorem ownMove_move {c : Prop} {s t : State} (h : ownMove s = some (.next t)) : Move c s t := by
  rcases ownMove_cases h with ⟨hp, e⟩ | ⟨hp, -, e⟩ | ⟨hp, -, -, e⟩ | ⟨hp, e⟩ | ⟨hp, e⟩
  · cases e; exact .send hp
  · cases e; exact .receive (Receives.refl.issue hp)
  · cases e; exact .receive ((lineKeeps_receives s).takeWaiting hp .refl)
  · exact .receive (Receives.refl.decode hp e.symm)
  · cases e; exact .leave hp

theorem consume_move {x : Input} (rest : List Input) {s t : State} (hx : x ≠ .reset) (h : consume x s = .next t) :
    Move (nextIsCall (x :: rest) = true) s t := by
  have k := lineKeeps_receives s
  unfold consume at h
  split at h
  · exact consumePacket_move (by rintro f rfl; rfl) h
  · exact consumePacket_move (by rintro f rfl; rfl) h
  · cases ho : ownMove s with
    | none => rw [ho] at h; cases h; exact .host (.refl s)
    | some o => rw [ho] at h; cases h; exact ownMove_move ho
  · split at h
    · rename_i ha; cases h; exact .receive (k.byte s _ (awaitsAnswer_iff.1 ha).1 .refl)
    · cases h
  · split at h
    · rename_i ha; cases h; exact .receive (k.stall s (awaitsAnswer_iff.1 ha).1 .refl)
    · cases h
  · cases h; exact .receive (k.arrive _ .refl)
  · cases h; exact .receive (k.tickTimer .refl)
  · cases h; exact .receive (k.line s _ .refl)
  · exact absurd rfl hx

/-- A step that is no reset is one event's work on the state with the events `xs` left to come (R7, R8). -/
theorem step_move {s t : State} (h : step s = .next t) (hr : s.inputs.head? ≠ some .reset) :
    ∃ xs, Move (nextIsCall s.inputs = true) (withInputs xs s) t := by
  rcases step_cases (s := s) with ⟨-, o, ho, hs⟩ | ⟨x, rest, hi, hs, -⟩ | ⟨-, -, hs⟩ <;> rw [hs] at h
  · exact ⟨s.inputs, ownMove_move (h ▸ ho)⟩
  · have hx : x ≠ .reset := fun e => hr (by rw [hi, e]; rfl)
    exact ⟨rest, hi ▸ consume_move rest hx h⟩
  · cases h; exact ⟨s.inputs, .receive ((lineKeeps_receives s).receiveEndless .refl)⟩

end Sys2Proof.Machine

/-! What a step makes of the result group, of the frames written and of the buffers, and that a host read leaves them
all (20_memory.md R62, R71, R76; 60_exceptions.md R248). -/

namespace Sys2Proof.Machine

open Safety Claims

/-! ### The result group (R76, R248) -/

theorem emitted_eq {s t : State} {es : List Output} (h : t.out = s.out ++ es) : emitted s t = es := by
  rw [emitted, h, List.drop_left]

/-- Between `s` and `t` the operation has ended: `Return(r)` emitted and the whole result group of `r` recorded. -/
def Returned (s t : State) : Prop :=
  ∃ r, Output.ret r ∈ emitted s t ∧ t.res = resultGroup r ∧ t.phase = .idle ∧ t.done = true ∧
    ∀ data, r = .ok data → ∀ i < data.length, memGet t.rbuf i = data[i]?

/-- What was emitted up to `s` stands in `t`, and the result group and RBUF do, unless the operation has ended. -/
def ResultAccounted (s t : State) : Prop :=
  s.out <+: t.out ∧ ((t.res = s.res ∧ t.rbuf = s.rbuf) ∨ Returned s t)

namespace ResultAccounted

variable {s t u : State}

theorem of_held (hout : s.out <+: t.out) (hres : t.res = s.res) (hrbuf : t.rbuf = s.rbuf) : ResultAccounted s t :=
  ⟨hout, .inl ⟨hres, hrbuf⟩⟩

/-- A block that is busy has not ended the operation. -/
theorem held_of_busy (h : ResultAccounted s t) (hb : t.phase ≠ .idle) : t.res = s.res ∧ t.rbuf = s.rbuf :=
  h.2.resolve_right fun ⟨_, _, _, hi, _⟩ => hb hi

/-- A busy block goes on without touching the result group. -/
theorem held (h : ResultAccounted s t) (hb : t.phase ≠ .idle) (hout : t.out <+: u.out) (hres : u.res = t.res)
    (hrbuf : u.rbuf = t.rbuf) : ResultAccounted s u :=
  have ⟨h1, h2⟩ := h.held_of_busy hb
  of_held (h.1.trans hout) (hres.trans h1) (hrbuf.trans h2)

end ResultAccounted

theorem memGet_resultBuffer_ok (m : Memory 16) (data : List Word) {i : Nat} (h : i < data.length) :
    memGet (resultBuffer m (.ok data)) i = data[i]? :=
  (memGet_memWrite m 0 data i).trans (if_pos (by omega))

/-- The end of an operation accounts for everything it writes. -/
theorem resultAccounted_finish (r : Result) {s t : State} (hout : s.out <+: t.out) :
    ResultAccounted s (finish r t) := by
  obtain ⟨es, hes⟩ := hout
  have hret : (finish r t).out = s.out ++ (es ++ [.ret r]) := by rw [finish_out, ← hes, List.append_assoc]
  refine ⟨⟨_, hret.symm⟩, .inr ⟨r, ?_, rfl, rfl, rfl, ?_⟩⟩
  · rw [emitted_eq hret]; simp
  · rintro data rfl i hi; exact memGet_resultBuffer_ok t.rbuf data hi

theorem resultAccounted_stall {s t : State} (hp : t.phase = .awaitingReply) (h : ResultAccounted s t) :
    ResultAccounted s (stall t) := by
  rcases stall_cases t with ⟨-, e⟩ | ⟨-, e⟩ <;> rw [e]
  · exact resultAccounted_finish _ h.1
  · exact h.held (by rw [hp]; nofun) (List.prefix_refl _) rfl rfl

/-- The reception of a reply accounts for the result group: only its end writes it. -/
theorem Receives.resultAccounted {s t u : State} (hr : Receives t u) (h : ResultAccounted s t) :
    ResultAccounted s u := by
  induction hr with
  | refl => exact h
  | byte b hp _ ih => exact ih
  | issue hp _ ih => exact ih.held (by rw [hp]; nofun) (List.prefix_append _ _) rfl rfl
  | stall hp _ ih => exact resultAccounted_stall hp ih
  | line l _ ih => exact ih
  | count _ ih => exact ih
  | inputs xs _ ih => exact ih
  | endless n _ ih => exact ih
  | decode hp hd _ ih =>
    obtain ⟨op, r, -, -, -, rfl⟩ := decodeMove_next hd
    exact resultAccounted_finish r ih.1

theorem HostSide.resultAccounted {s t : State} (h : HostSide s t) : ResultAccounted s t :=
  have ⟨es, hes, _⟩ := h.out
  .of_held ⟨es, hes.symm⟩ h.res h.rbuf

/-- An accepted `Start` leaves the result group, or ends in ParameterError (R202, R241). -/
theorem resultAccounted_accept (op : Op) {s t : State} (h : HostSide s t) : ResultAccounted s (accept op t) := by
  rcases accept_cases op t with ⟨bound, -, e⟩ | ⟨-, e⟩ <;> rw [e]
  · exact resultAccounted_finish _ h.resultAccounted.1
  · exact .of_held h.resultAccounted.1 h.res h.rbuf

theorem resultAccounted_sendStep (s : State) : ResultAccounted s (sendStep s) := by
  rcases sendStep_cases s with ⟨-, e⟩ | ⟨-, e⟩ | ⟨-, e⟩ <;> rw [e]
  all_goals exact .of_held (List.prefix_append _ _) rfl rfl

theorem Move.resultAccounted {c : Prop} {s t : State} (h : Move c s t) : ResultAccounted s t := by
  cases h with
  | host h => exact h.resultAccounted
  | send _ => exact resultAccounted_sendStep s
  | leave _ => exact .of_held (List.prefix_refl _) rfl rfl
  | receive h => exact h.resultAccounted (.of_held (List.prefix_refl _) rfl rfl)
  | start op _ hu _ => exact resultAccounted_accept op hu
  | @transact u _ op _ _ hu _ hs hr =>
    refine hr.resultAccounted ((resultAccounted_accept op hu).held (by rw [hs]; nofun) ?_ rfl rfl)
    exact ⟨_, (sendRequest_out (accept op u)).symm⟩

/-- Settles O51: whatever one event a step is, it accounts for the result group. -/
theorem resultChangesOnlyAtReturn : Obligations.ResultChangesOnlyAtReturn := by
  unfold Obligations.ResultChangesOnlyAtReturn
  intro s t h hr
  obtain ⟨xs, hm⟩ := step_move h hr
  have ⟨hout, hres⟩ : ResultAccounted s t := hm.resultAccounted
  exact ⟨(List.prefix_iff_eq_append.1 hout).symm, hres⟩

/-! ### The frames written (R76, R213) -/

/-- From `s` to `t` the block writes nothing to the Line. -/
abbrev NoWrite (s t : State) : Prop := Emits (isWrite · = false) s t

theorem noWrite_finish (r : Result) {s t : State} (h : NoWrite s t) : NoWrite s (finish r t) :=
  h.append_one (finish_out r t) rfl

theorem noWrite_stall {s t : State} (h : NoWrite s t) : NoWrite s (stall t) := by
  rcases stall_cases t with ⟨-, e⟩ | ⟨-, e⟩ <;> rw [e]
  · exact noWrite_finish _ h
  · exact h

/-- The reception of a reply writes nothing: a corrupted or a missing reply is not asked for again (R213). -/
theorem Receives.noWrite {s t : State} (h : Receives s t) : NoWrite s t := by
  induction h with
  | refl => exact .of_out_eq rfl
  | byte b hp _ ih => exact ih
  | issue hp _ ih => exact ih.append_one (issueRead_out _) rfl
  | stall hp _ ih => exact noWrite_stall ih
  | line l _ ih => exact ih
  | count _ ih => exact ih
  | inputs xs _ ih => exact ih
  | endless n _ ih => exact ih
  | decode hp hd _ ih =>
    obtain ⟨op, r, -, -, -, rfl⟩ := decodeMove_next hd
    exact noWrite_finish r ih

theorem HostSide.noWrite {s t : State} (h : HostSide s t) : NoWrite s t :=
  h.out.mono fun e he => by cases e <;> cases he <;> rfl

theorem noWrite_accept (op : Op) {s t : State} (h : NoWrite s t) : NoWrite s (accept op t) := by
  rcases accept_cases op t with ⟨bound, -, e⟩ | ⟨-, e⟩ <;> rw [e]
  · exact noWrite_finish _ h
  · exact h

/-- From `s` to `t` at most one frame is written, and one that is has the property `F`. -/
def WritesOnce (F : List Byte → Prop) (s t : State) : Prop :=
  ((emitted s t).filter isWrite).length ≤ 1 ∧ ∀ f, Output.write f ∈ emitted s t → F f

theorem filter_isWrite_eq_nil {es : List Output} (h : ∀ e ∈ es, isWrite e = false) : es.filter isWrite = [] :=
  List.filter_eq_nil_iff.2 fun e he => Bool.eq_false_iff.1 (h e he)

theorem not_write_mem {es : List Output} (h : ∀ e ∈ es, isWrite e = false) (f : List Byte) : Output.write f ∉ es :=
  fun hf => nomatch h _ hf

section writes

variable {F : List Byte → Prop} {s t u v : State}

theorem writesOnce_of_noWrite (h : NoWrite s t) : WritesOnce F s t := by
  obtain ⟨es, hes, hw⟩ := h
  unfold WritesOnce
  rw [emitted_eq hes, filter_isWrite_eq_nil hw]
  exact ⟨Nat.zero_le 1, fun f hf => absurd hf (not_write_mem hw f)⟩

/-- One frame written, and nothing before it or after it. -/
theorem writesOnce_of_write {f : List Byte} (hsu : NoWrite s u) (hv : v.out = u.out ++ [.write f]) (hvt : NoWrite v t)
    (hf : F f) : WritesOnce F s t := by
  obtain ⟨as, hu, has⟩ := hsu
  obtain ⟨bs, ht, hbs⟩ := hvt
  have hout : t.out = s.out ++ (as ++ .write f :: bs) := by rw [ht, hv, hu]; simp
  unfold WritesOnce
  rw [emitted_eq hout]
  constructor
  · rw [List.filter_append, List.filter_cons_of_pos rfl, filter_isWrite_eq_nil has, filter_isWrite_eq_nil hbs]
    exact Nat.le_refl 1
  · intro g hg
    rcases List.mem_append.1 hg with hg | hg
    · exact absurd hg (not_write_mem has g)
    · rcases List.mem_cons.1 hg with hg | hg
      · cases hg; exact hf
      · exact absurd hg (not_write_mem hbs g)

/-- Sending writes in the last of its three steps (R205, R206). -/
theorem writesOnce_sendStep (hF : s.sendStage = .write → F (requestFrame s)) : WritesOnce F s (sendStep s) := by
  rcases sendStep_cases s with ⟨-, e⟩ | ⟨-, e⟩ | ⟨hw, e⟩ <;> rw [e]
  · exact writesOnce_of_noWrite ((Emits.of_out_eq rfl).append_one (discardIn_out s) rfl)
  · exact writesOnce_of_noWrite ((Emits.of_out_eq rfl).append_one (discardOut_out s) rfl)
  · exact writesOnce_of_write (.of_out_eq rfl) (writeRequest_out s) (.of_out_eq rfl) (hF hw)

/-- A transaction writes between its discards and its first read (R205 to R208). -/
theorem writesOnce_sendRequest (hsu : NoWrite s u) (hr : Receives (sendRequest u) t) (hF : ∀ f, F f) :
    WritesOnce F s t := by
  have hdiscards : NoWrite s (discardOut (discardIn u)) :=
    (hsu.append_one (discardIn_out u) rfl).append_one (discardOut_out _) rfl
  have hread : NoWrite (writeRequest (discardOut (discardIn u))) (sendRequest u) :=
    (Emits.of_out_eq rfl).append_one (issueRead_out _) rfl
  exact writesOnce_of_write hdiscards (writeRequest_out _) (hread.trans hr.noWrite) (hF _)

end writes

/-- Where an event of `s` may write the frame `f`: in the step of Sending that writes, or in a call made in Idle. -/
def MayWrite (call : Prop) (s : State) (f : List Byte) : Prop :=
  (s.phase = .sending ∧ s.sendStage = .write ∧ f = requestFrame s) ∨ (s.phase = .idle ∧ call)

theorem Move.writesOnce {c : Prop} {s t : State} (h : Move c s t) : WritesOnce (MayWrite c s) s t := by
  cases h with
  | host h => exact writesOnce_of_noWrite h.noWrite
  | send hp => exact writesOnce_sendStep fun hw => .inl ⟨hp, hw, rfl⟩
  | leave _ => exact writesOnce_of_noWrite (.of_out_eq rfl)
  | receive h => exact writesOnce_of_noWrite h.noWrite
  | start op _ hu _ => exact writesOnce_of_noWrite (noWrite_accept op hu.noWrite)
  | transact op hc hi hu _ _ hr =>
    exact writesOnce_sendRequest (noWrite_accept op hu.noWrite) hr fun _ => .inr ⟨hi, hc⟩

/-- A reset lands before anything else (R281). -/
theorem step_reset {s t : State} (h : step s = .next t) (hr : s.inputs.head? = some .reset) :
    ∃ rest, t = resetBlock (withInputs rest s) := by
  obtain ⟨rest, hi⟩ := List.head?_eq_some_iff.1 hr
  rw [step_of_landsEarly hi (by rw [hi]; rfl)] at h
  cases h
  exact ⟨rest, rfl⟩

/-- Settles O53: a reset writes nothing, and any other event at most one frame where it may. -/
theorem writeOnlyFromSending : Obligations.WriteOnlyFromSending := by
  unfold Obligations.WriteOnlyFromSending
  intro s t h
  by_cases hr : s.inputs.head? = some .reset
  · obtain ⟨rest, rfl⟩ := step_reset h hr
    exact writesOnce_of_noWrite (.of_out_eq rfl)
  · obtain ⟨xs, hm⟩ := step_move h hr
    exact hm.writesOnce

/-! ### The buffers (R62) -/

theorem memoryCanonical_stall {s : State} (h : MemoryCanonical s) : MemoryCanonical (stall s) := by
  rcases stall_cases s with ⟨-, e⟩ | ⟨-, e⟩ <;> rw [e]
  · exact memoryCanonical_finish nofun h
  · exact h

theorem memoryCanonical_decodeMove {s t : State} (hd : decodeMove s = .next t) (h : MemoryCanonical s) :
    MemoryCanonical t := by
  obtain ⟨op, r, -, -, hr, rfl⟩ := decodeMove_next hd
  exact memoryCanonical_finish hr h

theorem memoryCanonical_accept (op : Op) {s : State} (h : MemoryCanonical s) : MemoryCanonical (accept op s) := by
  rcases accept_cases op s with ⟨bound, -, e⟩ | ⟨hb, e⟩ <;> rw [e]
  · exact memoryCanonical_finish nofun h
  · exact memoryCanonical_latchAndEncode (s := clearDone s) hb h

theorem memoryCanonical_resetBlock (s : State) : MemoryCanonical (resetBlock s) := by
  simp [MemoryCanonical]

/-- Every transition of the block keeps the buffers canonical and within their capacities. -/
theorem stepKeeps_memoryCanonical : StepKeeps MemoryCanonical where
  byte _ b _ h := memoryCanonical_receiveByte b h
  issue _ _ h := h
  stall _ _ h := memoryCanonical_stall h
  line _ _ h := h
  count _ h := h
  inputs _ _ h := h
  endless _ _ h := h
  discardIn _ _ h := h
  discardOut _ _ h := h
  write _ _ h := h
  decode _ _ _ hd h := memoryCanonical_decodeMove hd h
  leave _ _ h := h
  accept _ op _ _ h := memoryCanonical_accept op h
  operands _ _ _ _ h := h
  entry _ _ v _ hlt h := memoryCanonical_setVbuf hlt v h
  values _ vs _ h := memoryCanonical_loadVbuf vs h
  timeout _ _ _ h := h
  port _ _ _ _ h := h
  read _ _ _ _ h := h
  wrapper _ _ _ h := h
  noCall _ _ h := h
  reset s _ := memoryCanonical_resetBlock s

/-- Settles O58: the buffers are kept by every transition a step can be made of, whatever the rest of the state. -/
theorem stepKeepsMemoryCanonical : Obligations.StepKeepsMemoryCanonical := by
  unfold Obligations.StepKeepsMemoryCanonical
  exact fun s t hm h => stepKeeps_memoryCanonical.step h hm

/-! ### A host read (R71) -/

/-- Settles O16: the access is a host read, instruction or not, and that changes what it emits and a counter. -/
theorem hostReadsHaveNoSideEffects : Obligations.HostReadsHaveNoSideEffects := by
  unfold Obligations.HostReadsHaveNoSideEffects
  intro s t reg h
  obtain ⟨v, n, rfl⟩ := hostRead_next (consumePacket_read reg s ▸ h)
  exact ⟨v, rfl⟩

end Sys2Proof.Machine

/-! The words of the instructions: that decoding the encoded words gives each instruction back, and that packed bits
unpack to what was packed (30_encoding.md R92 to R105, R110). -/

namespace Sys2Proof.Machine

/-! ### Packed bits (R103) -/

/-- Bytes that agree with the sequence on its bits unpack to it, whatever the unused bits are. -/
theorem unpackBits_eq {d : List Byte} {c : List Bool} (h : ∀ i < c.length, packedBit d i = c.getD i false) :
    unpackBits d c.length = c := by
  refine List.ext_getElem (unpackBits_length d c.length) fun i _ hi => ?_
  rw [← List.getD_eq_getElem c false hi, ← h i hi]
  simp [unpackBits]

@[simp] theorem unpackBits_packBits (c : List Bool) : unpackBits (packBits c) c.length = c :=
  unpackBits_eq fun i _ => packedBit_packBits c i

/-- Settles O11: every bit of the packed bytes is the sequence's, or 0 beyond its end. -/
theorem packThenUnpack : Obligations.PackThenUnpack := by
  unfold Obligations.PackThenUnpack
  intro c
  refine ⟨packBits_length c, unpackBits_packBits c, fun i hi => ?_, fun d hd => unpackBits_eq fun i hi => ?_⟩
  · rw [packedBit_packBits, List.getD_eq_default c false hi]
  · rw [hd i hi, packedBit_packBits]

/-! ### The requests (R92, R93, R101) -/

/-- The fields of a sealed REQ8 body after its function byte, whatever the checksum. -/
theorem callFields_fields (a b : Word) (s : List Byte) (k : Word → Word → Except Reject Instr) :
    callFields (be16bytes a ++ be16bytes b ++ checksumBytes s) k = k a b :=
  congrArg₂ k (be16_hi_lo a) (be16_hi_lo b)

/-- The fields and data of a sealed REQ_WM body after its function byte, whatever the checksum. -/
theorem callData_fields (a q : Word) (d s : List Byte) {need : Nat → Nat} (hd : d.length = need q.toNat)
    (k : Word → Nat → List Byte → Except Reject Instr) :
    callData (be16bytes a ++ be16bytes q ++ [BitVec.ofNat 8 d.length] ++ d ++ checksumBytes s) need k
      = k a q.toNat d := by
  show callData (hi a :: lo a :: hi q :: lo q :: BitVec.ofNat 8 d.length :: (d ++ checksumBytes s)) need k = _
  simp [callData, hd]

theorem callCoil_coilWord (u : Byte) (a : Word) (on : Bool) :
    callCoil u a (coilWord on) = .ok (.writeSingleCoil u a on) := by
  cases on <;> rfl

theorem toNat_ofNat_length {α : Type} {l : List α} (h : l.length ≤ 65535) :
    (BitVec.ofNat 16 l.length).toNat = l.length :=
  Nat.mod_eq_of_lt (by omega)

/-- The REQ8 call with function byte `f` is decoded from its two fields (R92). -/
theorem decodeCall_body8 (u f : Byte) (a b : Word) (k : Word → Word → Except Reject Instr)
    (h : ∀ rest, decodeCall (u :: f :: rest) = callFields rest k) : decodeCall (sealed (body8 u f a b)) = k a b :=
  (h _).trans (callFields_fields a b _ k)

/-- The REQ_WM call with function byte `f` is decoded from its address, quantity and data (R93). -/
theorem decodeCall_bodyWm (u f : Byte) (a q : Word) (d : List Byte) {need : Nat → Nat}
    (k : Word → Nat → List Byte → Except Reject Instr)
    (h : ∀ rest, decodeCall (u :: f :: rest) = callData rest need k) (hd : d.length = need q.toNat) :
    decodeCall (sealed (bodyWm u f a q d)) = k a q.toNat d :=
  (h _).trans (callData_fields a q d _ hd k)

theorem decodeCall_writeMultipleCoils (u : Byte) (a : Word) {c : List Bool} (h : c.length ≤ 65535) :
    decodeCall (sealed (bodyWriteMultipleCoils u a (BitVec.ofNat 16 c.length) c))
      = .ok (.writeMultipleCoils u a c) := by
  have hq := toNat_ofNat_length h
  have hd : (packBits c).length = bitBytes (BitVec.ofNat 16 c.length).toNat := by rw [packBits_length, hq]
  refine (decodeCall_bodyWm u 0x0F a _ (packBits c) (fun a q d => .ok (.writeMultipleCoils u a (unpackBits d q)))
    (fun _ => rfl) hd).trans ?_
  rw [hq, unpackBits_packBits]

theorem decodeCall_writeMultipleRegisters (u : Byte) (a : Word) {r : List Word} (h : r.length ≤ 65535) :
    decodeCall (sealed (bodyWriteMultipleRegisters u a (BitVec.ofNat 16 r.length) r))
      = .ok (.writeMultipleRegisters u a r) := by
  have hd : (regBytes r).length = 2 * (BitVec.ofNat 16 r.length).toNat := by
    rw [regBytes_length, toNat_ofNat_length h]
  refine (decodeCall_bodyWm u 0x10 a _ (regBytes r) (fun a _ d => .ok (.writeMultipleRegisters u a (regWords d)))
    (fun _ => rfl) hd).trans ?_
  rw [regWords_regBytes]

/-- Every instruction of the host's side is what its words decode to. -/
theorem decode_encode_hostSide {i : Instr} (hw : i.wellFormed = true) (hr : ∀ f, encode i ≠ .reply f) :
    decode (encode i) = .ok i := by
  cases i
  case readCoils u a q =>
    exact decodeCall_body8 u 0x01 a q (fun a q => .ok (.readCoils u a q)) fun _ => rfl
  case readDiscreteInputs u a q =>
    exact decodeCall_body8 u 0x02 a q (fun a q => .ok (.readDiscreteInputs u a q)) fun _ => rfl
  case readHoldingRegisters u a q =>
    exact decodeCall_body8 u 0x03 a q (fun a q => .ok (.readHoldingRegisters u a q)) fun _ => rfl
  case readInputRegisters u a q =>
    exact decodeCall_body8 u 0x04 a q (fun a q => .ok (.readInputRegisters u a q)) fun _ => rfl
  case writeSingleCoil u a on =>
    exact (decodeCall_body8 u 0x05 a _ (callCoil u) fun _ => rfl).trans (callCoil_coilWord u a on)
  case writeSingleRegister u a v =>
    exact decodeCall_body8 u 0x06 a v (fun a v => .ok (.writeSingleRegister u a v)) fun _ => rfl
  case writeMultipleCoils u a c => exact decodeCall_writeMultipleCoils u a (of_decide_eq_true hw)
  case writeMultipleRegisters u a r => exact decodeCall_writeMultipleRegisters u a (of_decide_eq_true hw)
  case crcSeed => rfl
  case crcByte b => exact congrArg (fun b => Except.ok (Instr.crcByte b)) (by simp : BitVec.ofNat 8 b.toNat = b)
  case crcRead => rfl
  case setTimeout t => rfl
  case start go => cases go <;> rfl
  all_goals exact absurd rfl (hr _)

/-- Settles O9: none of the thirteen is a reply. -/
theorem hostSideRoundTrip : Obligations.HostSideRoundTrip := by
  unfold Obligations.HostSideRoundTrip
  intro u b a v on go bits words t i hi hw
  refine decode_encode_hostSide hw ?_
  simp only [List.mem_cons, List.not_mem_nil, or_false] at hi
  rcases hi with rfl | rfl | rfl | rfl | rfl | rfl | rfl | rfl | rfl | rfl | rfl | rfl | rfl <;> nofun

/-! ### The replies (R94 to R98) -/

theorem splitCrc_append (d : List Byte) (l h : Byte) : splitCrc (d ++ [l, h]) = some (d, le16 l h) := by
  induction d with
  | nil => rfl
  | cons b d ih =>
    have hcons : splitCrc (b :: (d ++ [l, h])) = (splitCrc (d ++ [l, h])).map fun p => (b :: p.1, p.2) := by
      rcases d with - | ⟨c, - | ⟨e, d⟩⟩ <;> rfl
    rw [List.cons_append, hcons, ih]
    rfl

/-- The fields of an RSP_BITS or RSP_REGS reply (R94, R95, R105). -/
theorem replyData_fields (n : Byte) (d : List Byte) (crc : Word) (k : Byte → List Byte → Word → Instr) :
    replyData (n :: d ++ le16bytes crc) k = .ok (k n d crc) := by
  show replyData (n :: (d ++ [lo crc, hi crc])) k = _
  unfold replyData
  dsimp only
  rw [splitCrc_append, le16_lo_hi]

/-- The fields of an RSP_ECHO reply (R97, R105). -/
theorem replyEcho_fields (a b crc : Word) (k : Word → Word → Word → Instr) :
    replyEcho (be16bytes a ++ be16bytes b ++ le16bytes crc) k = .ok (k a b crc) := by
  show Except.ok (k (be16 (hi a) (lo a)) (be16 (hi b) (lo b)) (le16 (lo crc) (hi crc))) = _
  rw [be16_hi_lo, be16_hi_lo, le16_lo_hi]

/-- The RSP_BITS or RSP_REGS reply with function byte `f` is decoded from its fields (R94, R95). -/
theorem decodeReply_data (u f n : Byte) (d : List Byte) (crc : Word) {k : Byte → List Byte → Word → Instr}
    (h : ∀ rest, decodeReply (u :: f :: rest) = replyData rest k) :
    decodeReply (replyFrame u f (n :: d) crc) = .ok (k n d crc) :=
  (h _).trans (replyData_fields n d crc k)

/-- The RSP_ECHO reply with function byte `f` is decoded from its fields (R97). -/
theorem decodeReply_echo (u f : Byte) (a b crc : Word) {k : Word → Word → Word → Instr}
    (h : ∀ rest, decodeReply (u :: f :: rest) = replyEcho rest k) :
    decodeReply (replyFrame u f (be16bytes a ++ be16bytes b) crc) = .ok (k a b crc) :=
  (h _).trans (replyEcho_fields a b crc k)

/-- The function byte of an exception reply: above 0x80, its low seven bits the function's (R98). -/
theorem lt_exceptionByte_and_setWidth {func : BitVec 7} (h : func ≠ 0) :
    0x80#8 < 1#1 ++ func ∧ (1#1 ++ func).setWidth 7 = func := by
  decide +revert

/-- A reply whose function byte is above 0x80 is an exception reply (R91, R98). -/
theorem decodeReply_exception (u : Byte) {func : BitVec 7} (h : func ≠ 0) (rest : List Byte) :
    decodeReply (u :: (1#1 ++ func) :: rest) = replyData rest (.exceptionReply u func) := by
  obtain ⟨hhigh, hlow⟩ := lt_exceptionByte_and_setWidth h
  unfold decodeReply
  dsimp only
  rw [if_pos hhigh, hlow]

/-- Every reply is what its words decode to. -/
theorem decode_encode_reply {i : Instr} {f : List Byte} (hw : i.wellFormed = true) (hr : encode i = .reply f) :
    decode (encode i) = .ok i := by
  cases i
  case readCoilsReply u n d crc => exact decodeReply_data u 0x01 n d crc fun _ => rfl
  case readDiscreteInputsReply u n d crc => exact decodeReply_data u 0x02 n d crc fun _ => rfl
  case readHoldingRegistersReply u n d crc => exact decodeReply_data u 0x03 n d crc fun _ => rfl
  case readInputRegistersReply u n d crc => exact decodeReply_data u 0x04 n d crc fun _ => rfl
  case writeSingleCoilReply u a v crc => exact decodeReply_echo u 0x05 a v crc fun _ => rfl
  case writeSingleRegisterReply u a v crc => exact decodeReply_echo u 0x06 a v crc fun _ => rfl
  case writeMultipleCoilsReply u a q crc => exact decodeReply_echo u 0x0F a q crc fun _ => rfl
  case writeMultipleRegistersReply u a q crc => exact decodeReply_echo u 0x10 a q crc fun _ => rfl
  case exceptionReply u func code extra crc =>
    exact decodeReply_data u _ code extra crc (decodeReply_exception u (bne_iff_ne.1 hw))
  all_goals cases hr

/-- Settles O10: each of the nine is a reply. -/
theorem replyRoundTrip : Obligations.ReplyRoundTrip := by
  unfold Obligations.ReplyRoundTrip
  intro u n d a v crc f i hi hw
  have hr : ∃ g, encode i = .reply g := by
    simp only [List.mem_cons, List.not_mem_nil, or_false] at hi
    rcases hi with rfl | rfl | rfl | rfl | rfl | rfl | rfl | rfl | rfl <;> exact ⟨_, rfl⟩
  obtain ⟨g, hg⟩ := hr
  exact decode_encode_reply hw hg

/-! ### Words written out (V3, V4, R40) -/

/-- Settles O8, word by word. -/
theorem wordsDecode : Obligations.WordsDecode := by
  unfold Obligations.WordsDecode
  exact ⟨rfl, rfl, rfl, rfl, rfl, rfl, rfl, rfl⟩

end Sys2Proof.Machine

/-! The calls as programs: the host's register writes and `Start` one step at a time, then the block's own moves and the
Line's answers, end where the call's one step ends (30_encoding.md R125, 43_transaction.md R214). -/

namespace Sys2Proof.Machine

open Claims

/-! ### Register writes one at a time (R40) -/

theorem run_one (s : State) : core.run 1 s = step s := by
  show core.run 1 s = core.step s
  cases h : core.step s <;> simp only [Host.Core.run, h]

/-- From `s` the events `prog` alone lead to `t`, in as many steps as there are events, whatever comes after them. -/
def Leads (prog : List Input) (s t : State) : Prop :=
  ∀ k xs, core.run (k + prog.length) (withInputs (prog ++ xs) s) = core.run k (withInputs xs t)

theorem Leads.nil (s : State) : Leads [] s s := fun _ _ => rfl

theorem Leads.append {p q : List Input} {s t u : State} (h : Leads p s t) (h' : Leads q t u) :
    Leads (p ++ q) s u := by
  intro k xs
  rw [List.length_append, Nat.add_comm p.length, ← Nat.add_assoc, List.append_assoc, h, h']

theorem Leads.cons {x : Input} {q : List Input} {s t u : State} (h : Leads [x] s t) (h' : Leads q t u) :
    Leads (x :: q) s u :=
  h.append h'

theorem step_hostWrites {s : State} (hi : s.phase = .idle) (reg : Word) (d : HostWord) (xs : List Input) :
    step (withInputs (hostWrites reg d :: xs) s) = hostWrite reg d (withInputs xs s) :=
  (step_inputs s _ xs (.inl hi)).trans (consumePacket_write reg d _)

theorem storeRegister_withInputs (r : Reg) (d : HostWord) (xs : List Input) (s : State) :
    storeRegister r d (withInputs xs s) = withInputs xs (storeRegister r d s) := by
  cases r <;> rfl

/-- A host write in Idle of a register it may write is one step (R40). -/
theorem leads_store {reg : Word} {r : Reg} {w : Nat} {s : State} (hi : s.phase = .idle)
    (hreg : registerAt reg = some r) (hw : storeWidth s.cfg r = some w) (d : HostWord) :
    Leads [hostWrites reg d] s (storeRegister r d s) := by
  intro k xs
  have hstep : step (withInputs (hostWrites reg d :: xs) s) = .next (withInputs xs (storeRegister r d s)) := by
    rw [step_hostWrites hi, hostWrite_idle (s := withInputs xs s) hi hreg hw, storeRegister_withInputs]
  exact run_succ k hstep

theorem leads_setFunc {s : State} (hi : s.phase = .idle) {f : HostWord} {v : Byte} (hf : BitVec.ofNat 8 f = v) :
    Leads [hostWrites 0x01 f] s (setFunc v s) :=
  hf ▸ leads_store (r := .cmdFunc) hi rfl rfl f

theorem leads_setUnit {s : State} (hi : s.phase = .idle) (v : Byte) :
    Leads [hostWrites 0x00 v.toNat] s (setUnit v s) := by
  simpa [storeRegister] using leads_store (r := .cmdUnit) hi rfl rfl v.toNat

theorem leads_setAddr {s : State} (hi : s.phase = .idle) (v : Word) :
    Leads [hostWrites 0x02 v.toNat] s (setAddr v s) := by
  simpa [storeRegister] using leads_store (r := .cmdAddr) hi rfl rfl v.toNat

/-- The writes every call begins with: CMD_FUNC, CMD_UNIT, CMD_ADDR (R125). -/
theorem leads_setAddr_setUnit_setFunc {s : State} (hi : s.phase = .idle) {f : HostWord} {v : Byte}
    (hf : BitVec.ofNat 8 f = v) (u : Byte) (a : Word) :
    Leads [hostWrites 0x01 f, hostWrites 0x00 u.toNat, hostWrites 0x02 a.toNat] s
      (setAddr a (setUnit u (setFunc v s))) :=
  (leads_setFunc hi hf).cons
    ((leads_setUnit (s := setFunc v s) hi u).cons (leads_setAddr (s := setUnit u (setFunc v s)) hi a))

theorem leads_setCount {s : State} (hi : s.phase = .idle) {d : HostWord} {v : Word} (hd : BitVec.ofNat 16 d = v) :
    Leads [hostWrites 0x03 d] s (setCount v s) :=
  hd ▸ leads_store (r := .cmdCount) hi rfl rfl d

theorem leads_setValue {s : State} (hi : s.phase = .idle) {d : HostWord} {v : Word} (hd : BitVec.ofNat 16 d = v) :
    Leads [hostWrites 0x04 d] s (setValue v s) :=
  hd ▸ leads_store (r := .cmdValue) hi rfl rfl d

theorem leads_setVbuf {s : State} (hi : s.phase = .idle) {k : Nat} (hk : k < Config.vCap) (v : Word) :
    Leads [hostWrites (BitVec.ofNat 16 (0x1000 + k)) v.toNat] s (setVbuf k v s) := by
  have hcap : Config.vCap = 1968 := rfl
  have hn : (BitVec.ofNat 16 (0x1000 + k)).toNat = 0x1000 + k := Nat.mod_eq_of_lt (by omega)
  have hreg : registerAt (BitVec.ofNat 16 (0x1000 + k)) = some (.vbuf k) := by
    rw [registerAt_vbufWindow (by omega) (by omega), hn, Nat.add_sub_cancel_left]
  simpa [storeRegister] using leads_store hi hreg rfl v.toNat

/-- One write of VBUF for each value, from entry `off` on, as far as VBUF goes (R26). -/
theorem leads_entries (values : List Word) (off : Nat) {s : State} (hi : s.phase = .idle)
    (h : off + values.length ≤ Config.vCap) :
    Leads (values.mapIdx fun k v => hostWrites (BitVec.ofNat 16 (0x1000 + (off + k))) v.toNat) s
      { s with vbuf := memWrite s.vbuf off values } := by
  induction values generalizing off s with
  | nil => exact .nil s
  | cons v values ih =>
    rw [List.length_cons] at h
    rw [List.mapIdx_cons]
    have hrest := ih (off + 1) (s := setVbuf off v s) hi (by omega)
    simp only [Nat.add_assoc, Nat.add_comm 1] at hrest ⊢
    exact (leads_setVbuf hi (by omega) v).cons hrest

/-! ### The block's own moves (R205 to R208) -/

theorem step_sending {s : State} (hp : s.phase = .sending) (he : landsEarly s.inputs = false) :
    step s = .next (sendStep s) :=
  step_own he (by unfold ownMove; rw [hp])

theorem step_issueRead {s : State} (hp : s.phase = .awaitingReply) (hr : s.reading = false)
    (he : landsEarly s.inputs = false) : step s = .next (issueRead s) :=
  step_own he (by unfold ownMove; rw [hp]; exact if_pos hr)

theorem step_decoding {s : State} (hp : s.phase = .decoding) (he : landsEarly s.inputs = false) :
    step s = decodeMove s :=
  step_own he (by unfold ownMove; rw [hp])

/-- A built request is sent in four steps, the first read the last of them (R205 to R208). -/
theorem run_sendRequest {s : State} (hp : s.phase = .sending) (hs : s.sendStage = .discardIn)
    (he : landsEarly s.inputs = false) : core.run 4 s = .next (sendRequest s) := by
  calc core.run 4 s
    _ = core.run 3 (discardIn s) := run_succ 3 (step_discardIn hp hs he)
    _ = core.run 2 (discardOut (discardIn s)) := run_succ 2 (step_sending (s := discardIn s) hp he)
    _ = core.run 1 (writeRequest (discardOut (discardIn s))) :=
      run_succ 1 (step_sending (s := discardOut (discardIn s)) hp he)
    _ = .next (sendRequest s) := run_succ 0 (step_issueRead rfl rfl he)

/-! ### The Line's answers (R208, R209) -/

section answers

variable {s : State} (hp : s.phase = .awaitingReply) (hr : s.reading = true) (hb : s.line.inBuf = [])
include hp hr hb

theorem step_answer_byte (b : Byte) (xs : List Input) :
    step (withInputs (.answer (.byte b) :: xs) s) = .next (withInputs xs (receiveByte b s)) := by
  rw [step_inputs s _ xs (.inr ⟨hp, hr, hb⟩)]
  exact if_pos (awaitsAnswer_iff.2 ⟨hp, hr⟩)

theorem step_answer_timeout (xs : List Input) :
    step (withInputs (.answer .timeout :: xs) s) = .next (stall (withInputs xs s)) := by
  rw [step_inputs s _ xs (.inr ⟨hp, hr, hb⟩)]
  exact if_pos (awaitsAnswer_iff.2 ⟨hp, hr⟩)

/-- Bytes answered one after the other, each two steps, its answer and the next read (R208). -/
theorem run_answer_bytes (bs : List Byte) {rest : List Input} (he : landsEarly rest = false) :
    core.run (2 * bs.length) (withInputs (bs.map (fun b => .answer (.byte b)) ++ rest) s)
      = .next (withInputs rest (receiveBytes bs s)) := by
  induction bs generalizing s with
  | nil => rfl
  | cons b bs ih =>
    let xs := bs.map (fun b => Input.answer (.byte b)) ++ rest
    have hxs : landsEarly xs = false := by
      cases bs with
      | nil => exact he
      | cons c bs => rfl
    calc core.run (2 * bs.length + 2) (withInputs (.answer (.byte b) :: xs) s)
      _ = core.run (2 * bs.length + 1) (withInputs xs (receiveByte b s)) :=
        run_succ _ (step_answer_byte hp hr hb b xs)
      _ = core.run (2 * bs.length) (withInputs xs (issueRead (receiveByte b s))) :=
        run_succ _ (step_issueRead (s := withInputs xs (receiveByte b s)) hp rfl hxs)
      _ = .next (withInputs rest (receiveBytes (b :: bs) s)) := ih hp rfl hb

/-- The answers of a whole reply, and the stall after it (R208, R209). -/
theorem run_answers (bs : List Byte) (rest : List Input) :
    core.run (2 * bs.length + 1) (withInputs (answers bs ++ rest) s)
      = .next (stall (withInputs rest (receiveBytes bs s))) := by
  have hin : answers bs ++ rest = bs.map (fun b => .answer (.byte b)) ++ .answer .timeout :: rest := by simp [answers]
  have hstall := step_answer_timeout (s := receiveBytes bs s) (by rw [receiveBytes_phase, hp])
    (receiveBytes_reading bs hr) (by rw [receiveBytes_line, hb]) rest
  rw [hin, run_add 1 (run_answer_bytes hp hr hb bs rfl), run_one]
  exact hstall

end answers

/-! ### The transaction, whole and step by step (R214) -/

theorem stall_withInputs (xs : List Input) (s : State) : stall (withInputs xs s) = withInputs xs (stall s) := by
  unfold stall
  rw [apply_ite (withInputs xs)]
  rfl

/-- The transaction of an admitted request against a reply, or none, and the stall after it (R214). -/
theorem transact_awaited {op : Op} {s : State} (bs : List Byte) {rest : List Input}
    (hv : violatedBound s.cfg op (countOperand s) = none) (hin : s.inputs = answers bs ++ rest) :
    transact op s
      = afterAwait (stall (withInputs rest (receiveBytes bs (sendRequest (latchAndEncode op (clearDone s)))))) := by
  have ha : accept op s = latchAndEncode op (clearDone s) := by unfold accept; rw [hv]
  have hin' : (latchAndEncode op (clearDone s)).inputs
      = bs.map (fun b => .answer (.byte b)) ++ .answer .timeout :: rest := by simp [hin, answers]
  unfold transact
  rw [ha]
  dsimp only
  rw [if_pos (latchAndEncode_phase op _), hin', awaitReply_answers bs rest _ rfl, stall_withInputs]

/-- The request sent, the answers of a reply and the stall after it, one step at a time (R205 to R209). -/
theorem run_awaited {op : Op} {s : State} (bs : List Byte) {rest : List Input} (hin : s.inputs = answers bs ++ rest) :
    core.run (4 + (2 * bs.length + 1)) (latchAndEncode op s)
      = .next (stall (withInputs rest (receiveBytes bs (sendRequest (latchAndEncode op s))))) := by
  have he : landsEarly (latchAndEncode op s).inputs = false := by
    rw [latchAndEncode_inputs, hin]
    cases bs <;> rfl
  have hself : withInputs (answers bs ++ rest) (sendRequest (latchAndEncode op s))
      = sendRequest (latchAndEncode op s) := by rw [← hin]; rfl
  have hrun := run_answers (s := sendRequest (latchAndEncode op s)) rfl rfl rfl bs rest
  rw [run_add _ (run_sendRequest rfl rfl he)]
  rwa [hself] at hrun

/-- With no byte received the stall has ended the operation; else the decode is one step more (R209, R210). -/
theorem run_afterAwait {s : State} (h : landsEarly s.inputs = false ∨ s.rxLen = 0) :
    core.run (if s.rxLen = 0 then 0 else 1) (stall s) = afterAwait (stall s) := by
  unfold afterAwait
  rcases stall_cases s with ⟨h0, e⟩ | ⟨hpos, e⟩ <;> rw [e]
  · rw [if_pos h0]; rfl
  · have hne : s.rxLen ≠ 0 := Nat.ne_of_gt hpos
    rw [if_neg hne, run_one]
    exact step_decoding rfl (h.resolve_right hne)

/-- After an accepted `Start` the block's steps and the Line's answers end where the transaction ends (R214). -/
theorem run_accept {op : Op} {s : State} {bs : List Byte} {rest : List Input} {admitted : Bool}
    (hin : s.inputs = answers bs ++ rest) (he : bs ≠ [] → landsEarly rest = false)
    (hv : admitted = true ↔ violatedBound s.cfg op (countOperand s) = none) :
    core.run (callSteps 0 admitted bs) (accept op s) = transact op s := by
  rcases accept_cases op s with ⟨bound, hs, ha⟩ | ⟨hs, ha⟩
  · have hf : admitted = false := by simpa [hs] using hv
    unfold transact
    rw [ha, hf]
    rfl
  · let u := withInputs rest (receiveBytes bs (sendRequest (latchAndEncode op (clearDone s))))
    have hlen : u.rxLen = bs.length := by simp [u]
    have hend : landsEarly u.inputs = false ∨ u.rxLen = 0 := by
      rcases eq_or_ne bs [] with rfl | hb
      · exact .inr rfl
      · exact .inl (he hb)
    have hsteps : callSteps 0 admitted bs = 4 + (2 * bs.length + 1) + (if u.rxLen = 0 then 0 else 1) := by
      rw [hv.2 hs, hlen]
      rcases bs with - | ⟨b, bs⟩
      · rfl
      · simp [callSteps]; omega
    rw [ha, hsteps, run_add _ (run_awaited (s := clearDone s) bs hin), transact_awaited bs hs hin]
    exact run_afterAwait hend

/-! ### A call and its program (R125) -/

theorem run_start {op : Op} {s : State} (hi : s.phase = .idle) (hf : funcOperand s = funcCode op) (k : Nat)
    (xs : List Input) :
    core.run (k + 1) (withInputs (hostWrites 0x05 1 :: xs) s) = core.run k (accept op (withInputs xs s)) := by
  refine run_succ k ((step_hostWrites hi 0x05 1 xs).trans ?_)
  show startOperation (withInputs xs s) = _
  unfold startOperation
  have hb : busy (withInputs xs s) = false := busy_eq_false_iff.2 hi
  rw [hb, funcOperand_withInputs, hf, opOfCode_funcCode]
  rfl

theorem callSteps_add (n : Nat) (admitted : Bool) (bs : List Byte) :
    callSteps n admitted bs = callSteps 0 admitted bs + n := by
  unfold callSteps
  split <;> omega

/-- A program of register writes that loads what a call loads, then `Start` and what follows, ends as the call does. -/
theorem run_program {op : Op} {load : State → State} {prog : List Input} {s : State} {bs : List Byte}
    {rest : List Input} {admitted : Bool} {n : Nat} (hi : s.phase = .idle) (he : bs ≠ [] → landsEarly rest = false)
    (hp : Leads prog s (load s)) (hn : n = prog.length + 1)
    (hl : ∀ xs, load (withInputs xs s) = withInputs xs (load s)) (hidle : (load s).phase = .idle)
    (hf : funcOperand (load s) = funcCode op)
    (hv : admitted = true ↔ violatedBound (load s).cfg op (countOperand (load s)) = none) :
    core.run (callSteps n admitted bs) (withInputs (prog ++ hostWrites 0x05 1 :: (answers bs ++ rest)) s)
      = callOperation op load (withInputs (answers bs ++ rest) s) := by
  have hcall : callOperation op load (withInputs (answers bs ++ rest) s)
      = transact op (withInputs (answers bs ++ rest) (load s)) := by
    have hb : busy (withInputs (answers bs ++ rest) s) = false := busy_eq_false_iff.2 hi
    unfold callOperation
    rw [hb, hl]
    rfl
  rw [hn, callSteps_add, Nat.add_comm prog.length, ← Nat.add_assoc, hp, run_start hidle hf, hcall]
  exact run_accept (s := withInputs (answers bs ++ rest) (load s)) rfl he hv

theorem violatedBound_eq_none_iff {p : Config.Params} {op : Op} {q c : Word} (hc : ceiling op = some c) :
    violatedBound p op q = none ↔ q ≤ c ∧ p.qtyFloor ≤ q :=
  ⟨fun h => violatedBound_eq_none h hc,
    fun h => violatedBound_of_within fun _ hc' => Option.some.inj (hc.symm.trans hc') ▸ h⟩

/-- The quantity of a multiple write of at most VCAP values is their number, and so are its bounds (R202). -/
theorem violatedBound_length_eq_none_iff {p : Config.Params} {op : Op} {max : Nat} {values : List Word}
    (hlen : values.length ≤ Config.vCap) (hmax : max ≤ Config.vCap) (hc : ceiling op = some (BitVec.ofNat 16 max)) :
    violatedBound p op (BitVec.ofNat 16 values.length) = none
      ↔ values.length ≤ max ∧ p.qtyFloor.toNat ≤ values.length := by
  have hcap : Config.vCap = 1968 := rfl
  rw [violatedBound_eq_none_iff hc, BitVec.le_def, BitVec.le_def, BitVec.toNat_ofNat, BitVec.toNat_ofNat,
    Nat.mod_eq_of_lt (by omega), Nat.mod_eq_of_lt (by omega)]

/-- The values of a multiple write, where VBUF holds them, are loaded one entry at a time (R125). -/
theorem leads_loadVbuf {values : List Word} (hlen : values.length ≤ Config.vCap) {s : State} (hi : s.phase = .idle) :
    Leads (values.mapIdx fun k v => hostWrites (BitVec.ofNat 16 (0x1000 + k)) v.toNat) s (loadVbuf values s) := by
  have h := leads_entries values 0 hi (by omega)
  simp only [Nat.zero_add] at h
  rwa [loadVbuf, List.take_of_length_le hlen]

section programs

variable {op : Op} {s : State} {bs : List Byte} {rest : List Input} (hi : s.phase = .idle)
  (he : bs ≠ [] → landsEarly rest = false) (u : Byte) (a : Word) {f : HostWord} (hf : BitVec.ofNat 8 f = funcCode op)
include hi he hf

theorem run_readProgram (q : Word) {max : Word} (hc : ceiling op = some max) :
    core.run (callSteps 5 (decide (q ≤ max ∧ s.cfg.qtyFloor ≤ q)) bs)
        (withInputs ([hostWrites 0x01 f, hostWrites 0x00 u.toNat, hostWrites 0x02 a.toNat] ++
            [hostWrites 0x03 q.toNat] ++ hostWrites 0x05 1 :: (answers bs ++ rest)) s)
      = callOperation op (loadRead op u a q) (withInputs (answers bs ++ rest) s) := by
  have hcount := leads_setCount (s := setAddr a (setUnit u (setFunc (funcCode op) s))) (d := q.toNat) (v := q) hi
    (by simp)
  exact run_program (load := loadRead op u a q) hi he ((leads_setAddr_setUnit_setFunc hi hf u a).append hcount)
    rfl (fun _ => rfl) hi rfl (decide_eq_true_iff.trans (violatedBound_eq_none_iff hc).symm)

theorem run_singleProgram {d : HostWord} {v : Word} (hd : BitVec.ofNat 16 d = v) (hc : ceiling op = none) :
    core.run (callSteps 5 true bs)
        (withInputs ([hostWrites 0x01 f, hostWrites 0x00 u.toNat, hostWrites 0x02 a.toNat] ++
            [hostWrites 0x04 d] ++ hostWrites 0x05 1 :: (answers bs ++ rest)) s)
      = callOperation op (loadSingle op u a v) (withInputs (answers bs ++ rest) s) := by
  have hvalue := leads_setValue (s := setAddr a (setUnit u (setFunc (funcCode op) s))) hi hd
  exact run_program (load := loadSingle op u a v) hi he ((leads_setAddr_setUnit_setFunc hi hf u a).append hvalue)
    rfl (fun _ => rfl) hi rfl (iff_of_true rfl (violatedBound_of_within fun c hc' => nomatch hc.symm.trans hc'))

theorem run_multipleProgram {values : List Word} (hlen : values.length ≤ Config.vCap) {max : Nat}
    (hmax : max ≤ Config.vCap) (hc : ceiling op = some (BitVec.ofNat 16 max)) :
    core.run (callSteps (values.length + 5) (decide (values.length ≤ max ∧ s.cfg.qtyFloor.toNat ≤ values.length)) bs)
        (withInputs ([hostWrites 0x01 f, hostWrites 0x00 u.toNat, hostWrites 0x02 a.toNat] ++
            (hostWrites 0x03 values.length ::
              values.mapIdx fun k v => hostWrites (BitVec.ofNat 16 (0x1000 + k)) v.toNat) ++
          hostWrites 0x05 1 :: (answers bs ++ rest)) s)
      = callMultiple op u a values (withInputs (answers bs ++ rest) s) := by
  have hmultiple : callMultiple op u a values (withInputs (answers bs ++ rest) s)
      = callOperation op (loadMultiple op u a values) (withInputs (answers bs ++ rest) s) :=
    if_neg (Nat.not_lt.2 hlen)
  have hcount := leads_setCount (s := setAddr a (setUnit u (setFunc (funcCode op) s))) (d := values.length) hi rfl
  have hload := (leads_setAddr_setUnit_setFunc hi hf u a).append (hcount.cons (leads_loadVbuf hlen hi))
  rw [hmultiple]
  exact run_program (load := loadMultiple op u a values) hi he hload (by simp) (fun _ => rfl) hi rfl
    (decide_eq_true_iff.trans (violatedBound_length_eq_none_iff hlen hmax hc).symm)

end programs

/-- Settles O39: the four programs differ in the function code and the ceiling only. -/
theorem readCallIsRegisterProgram : Obligations.ReadCallIsRegisterProgram := by
  unfold Obligations.ReadCallIsRegisterProgram
  intro s u a q bs rest hi he i f max h
  simp only [List.mem_cons, List.not_mem_nil, or_false, Prod.mk.injEq] at h
  rcases h with ⟨rfl, rfl, rfl⟩ | ⟨rfl, rfl, rfl⟩ | ⟨rfl, rfl, rfl⟩ | ⟨rfl, rfl, rfl⟩
  · exact run_readProgram (op := .readCoils) hi he u a rfl q rfl
  · exact run_readProgram (op := .readDiscreteInputs) hi he u a rfl q rfl
  · exact run_readProgram (op := .readHoldingRegisters) hi he u a rfl q rfl
  · exact run_readProgram (op := .readInputRegisters) hi he u a rfl q rfl

/-- Settles O40: the value written is the coil's bit or the register's value. -/
theorem singleWriteCallIsRegisterProgram : Obligations.SingleWriteCallIsRegisterProgram := by
  unfold Obligations.SingleWriteCallIsRegisterProgram
  intro s u a v on bs rest hi he i f d h
  simp only [List.mem_cons, List.not_mem_nil, or_false, Prod.mk.injEq] at h
  rcases h with ⟨rfl, rfl, rfl⟩ | ⟨rfl, rfl, rfl⟩
  · exact run_singleProgram (op := .writeSingleCoil) hi he u a rfl (by cases on <;> rfl) rfl
  · exact run_singleProgram (op := .writeSingleRegister) hi he u a rfl (by simp) rfl

/-- Settles O41: the two programs differ in the function code and the ceiling, and a coil is its bit as an entry. -/
theorem multipleWriteCallIsRegisterProgram : Obligations.MultipleWriteCallIsRegisterProgram := by
  unfold Obligations.MultipleWriteCallIsRegisterProgram
  intro s u a bits words bs rest hi he i f values max h hlen
  simp only [List.append_assoc]
  simp only [List.mem_cons, List.not_mem_nil, or_false, Prod.mk.injEq] at h
  rcases h with ⟨rfl, rfl, rfl, rfl⟩ | ⟨rfl, rfl, rfl, rfl⟩
  · exact run_multipleProgram (op := .writeMultipleCoils) hi he u a rfl hlen (by decide) rfl
  · exact run_multipleProgram (op := .writeMultipleRegisters) hi he u a rfl hlen (by decide) rfl

end Sys2Proof.Machine

/-! What a call leaves as it was (30_encoding.md R125, 41_encode.md R150, 60_exceptions.md R248). -/

namespace Sys2Proof.Machine

open Claims

/-! ### The reception of a reply -/

/-- What the Line's events and the decode keep, the reception of a reply keeps. -/
theorem Receives.keeps {P : State → Prop} (k : LineKeeps P)
    (hdecode : ∀ t u, t.phase = .decoding → decodeMove t = .next u → P t → P u) {s t : State} (h : Receives s t)
    (hs : P s) : P t := by
  induction h with
  | refl => exact hs
  | byte b hp _ ih => exact k.byte _ b hp ih
  | issue hp _ ih => exact k.issue _ hp ih
  | stall hp _ ih => exact k.stall _ hp ih
  | line l _ ih => exact k.line _ l ih
  | count _ ih => exact k.count _ ih
  | inputs xs _ ih => exact k.inputs _ xs ih
  | endless n _ ih => exact k.endless _ n ih
  | decode hp hd _ ih => exact hdecode _ _ hp hd ih

theorem Receives.sameRequest {s t : State} (h : Receives s t) : SameRequest s t :=
  h.keeps (lineKeeps_sameRequest s) (fun _ _ _ hd ht => ht.trans (sameRequest_decodeMove hd)) (.refl s)

theorem lineKeeps_resets (n : Nat) : LineKeeps (·.resets = n) where
  byte _ _ _ h := h
  issue _ _ h := h
  stall t _ h := (stall_resets t).trans h
  line _ _ h := h
  count _ h := h
  inputs _ _ h := h
  endless _ _ h := h

theorem decodeMove_resets {s t : State} (h : decodeMove s = .next t) : t.resets = s.resets := by
  obtain ⟨op, r, -, -, -, rfl⟩ := decodeMove_next h
  rfl

theorem Receives.resets {s t : State} (h : Receives s t) : t.resets = s.resets :=
  h.keeps (lineKeeps_resets s.resets) (fun _ _ _ hd ht => (decodeMove_resets hd).trans ht) rfl

/-- RXBUF is as it was from the offset of the next byte on (R33). -/
def RxBufFrame (s t : State) : Prop := ∀ k, t.rxLen ≤ k → memGet t.rxBuf k = memGet s.rxBuf k

theorem RxBufFrame.refl (s : State) : RxBufFrame s s := fun _ _ => rfl

theorem RxBufFrame.of_rxBuf_eq {s u t : State} (h : RxBufFrame u t) (hu : u.rxBuf = s.rxBuf) : RxBufFrame s t :=
  fun k hk => hu ▸ h k hk

theorem rxBufFrame_receiveByte (b : Byte) {s t : State} (h : RxBufFrame s t) : RxBufFrame s (receiveByte b t) := by
  intro k hk
  rw [receiveByte_rxLen] at hk
  rw [receiveByte_rxBuf, ← h k (by omega)]
  split
  · exact memGet_memSet_other _ _ (by omega)
  · rfl

theorem rxBufFrame_stall {s t : State} (h : RxBufFrame s t) : RxBufFrame s (stall t) := by
  intro k hk
  rw [stall_rxLen] at hk
  rw [stall_rxBuf, h k hk]

theorem lineKeeps_rxBufFrame (s : State) : LineKeeps (RxBufFrame s) where
  byte _ b _ h := rxBufFrame_receiveByte b h
  issue _ _ h := h
  stall _ _ h := rxBufFrame_stall h
  line _ _ h := h
  count _ h := h
  inputs _ _ h := h
  endless _ _ h := h

theorem rxBufFrame_decodeMove {s t u : State} (hd : decodeMove t = .next u) (h : RxBufFrame s t) :
    RxBufFrame s u := by
  obtain ⟨op, r, -, -, -, rfl⟩ := decodeMove_next hd
  exact h

theorem Receives.rxBufFrame {s t : State} (h : Receives s t) : RxBufFrame s t :=
  h.keeps (lineKeeps_rxBufFrame s) (fun _ _ _ hd ht => rxBufFrame_decodeMove hd ht) (.refl s)

/-- RBUF is as it was from RES_LEN on, and wholly so while the block is busy (R39, R248). -/
def RBufFrame (s t : State) : Prop :=
  (t.phase ≠ .idle → t.rbuf = s.rbuf) ∧ ∀ k, t.res.resLen.toNat ≤ k → memGet t.rbuf k = memGet s.rbuf k

theorem RBufFrame.refl (s : State) : RBufFrame s s := ⟨fun _ => rfl, fun _ _ => rfl⟩

theorem RBufFrame.of_rbuf_eq {s u t : State} (h : RBufFrame u t) (hu : u.rbuf = s.rbuf) : RBufFrame s t :=
  ⟨fun hp => (h.1 hp).trans hu, fun k hk => hu ▸ h.2 k hk⟩

theorem rBufFrame_finish {r : Result} (hr : ∀ data, r = .ok data → data.length ≤ Config.rCap) {s t : State}
    (h : t.rbuf = s.rbuf) : RBufFrame s (finish r t) := by
  refine ⟨fun hi => absurd rfl hi, fun k hk => ?_⟩
  rw [finish_rbuf, h]
  cases r with
  | failed f => rfl
  | ok data =>
    have hcap : Config.rCap = 2000 := rfl
    have hle := hr data rfl
    have hlen : (BitVec.ofNat 16 data.length).toNat = data.length := Nat.mod_eq_of_lt (by omega)
    have hk' : (BitVec.ofNat 16 data.length).toNat ≤ k := hk
    exact memGet_memWrite_outside _ (.inr (by omega))

theorem lineKeeps_rBufFrame (s : State) : LineKeeps (RBufFrame s) where
  byte _ _ _ h := h
  issue _ _ h := h
  stall t hp h := (RBufFrame.refl _).of_rbuf_eq ((stall_rbuf t).trans (h.1 (by rw [hp]; nofun)))
  line _ _ h := h
  count _ h := h
  inputs _ _ h := h
  endless _ _ h := h

theorem rBufFrame_decodeMove {s t u : State} (hp : t.phase = .decoding) (hd : decodeMove t = .next u)
    (h : RBufFrame s t) : RBufFrame s u := by
  obtain ⟨op, r, -, -, hr, rfl⟩ := decodeMove_next hd
  exact rBufFrame_finish hr (h.1 (by rw [hp]; nofun))

theorem Receives.rBufFrame {s t : State} (h : Receives s t) : RBufFrame s t :=
  h.keeps (lineKeeps_rBufFrame s) (fun _ _ hp hd ht => rBufFrame_decodeMove hp hd ht) (.refl s)

/-! ### The Line's endless sequence: a call takes none of it (R214, R295) -/

theorem lineEvent_endless {x : Input} {s t : State} (h : lineEvent x s = some t) : t.endless = s.endless := by
  rcases lineEvent_cases h with ⟨b, rfl⟩ | rfl | ⟨b, rfl⟩ | rfl | rfl | ⟨f, rfl⟩ <;> simp

theorem awaitReply_endless (xs : List Input) (s : State) : (awaitReply xs s).endless = s.endless := by
  induction xs generalizing s with
  | nil => rfl
  | cons x rest ih =>
    unfold awaitReply
    split
    · split
      · rename_i hx; rw [ih, lineEvent_endless hx]
      · rfl
    · rfl

theorem afterAwait_endless {s t : State} (h : afterAwait s = .next t) : t.endless = s.endless := by
  unfold afterAwait at h
  split at h
  · obtain ⟨op, r, -, -, -, rfl⟩ := decodeMove_next h; rfl
  · cases h; rfl

/-! ### The transaction, whole -/

/-- An accepted `Start` leaves the operands, T_CFG, what was received and what was decoded (R201 to R204). -/
theorem accept_frame (op : Op) (s : State) :
    (accept op s).cmd = s.cmd ∧ (accept op s).written = s.written ∧ (accept op s).vbuf = s.vbuf ∧
      (accept op s).tCfg = s.tCfg ∧ (accept op s).rxBuf = s.rxBuf ∧ (accept op s).rbuf = s.rbuf ∧
      (accept op s).endless = s.endless ∧ (accept op s).resets = s.resets := by
  rcases accept_cases op s with ⟨bound, -, e⟩ | ⟨-, e⟩ <;> rw [e]
  all_goals exact ⟨rfl, rfl, rfl, rfl, rfl, rfl, rfl, rfl⟩

/-- The request that operation `op` makes of the operands of `s` (R204). -/
def operandFrame (op : Op) (s : State) : List Byte :=
  sealed (requestBody op (latched op s) (vbufEntries s (countOperand s).toNat))

/-- TXBUF is as it was beyond the request (R32, R204). -/
theorem memGet_txBuf_accept (op : Op) (s : State) {k : Nat} (hk : (operandFrame op s).length ≤ k) :
    memGet (accept op s).txBuf k = memGet s.txBuf k := by
  rcases accept_cases op s with ⟨bound, -, e⟩ | ⟨-, e⟩ <;> rw [e]
  · rfl
  · exact memGet_memWrite_outside s.txBuf (.inr (by rw [Nat.zero_add]; exact hk))

/-- What a transaction of operation `op` from `s` to `t` leaves as it was. -/
structure TransactFrame (op : Op) (s t : State) : Prop where
  cmd : t.cmd = s.cmd
  written : t.written = s.written
  vbuf : t.vbuf = s.vbuf
  tCfg : t.tCfg = s.tCfg
  endless : t.endless = s.endless
  resets : t.resets = s.resets
  txBuf : ∀ k, (operandFrame op s).length ≤ k → memGet t.txBuf k = memGet s.txBuf k
  rxBuf : RxBufFrame s t
  rbuf : RBufFrame s t

theorem transact_endless {op : Op} {s t : State} (h : transact op s = .next t) :
    t.endless = (accept op s).endless := by
  unfold transact at h
  dsimp only at h
  split at h
  · exact (afterAwait_endless h).trans (awaitReply_endless _ _)
  · cases h; rfl

theorem transact_frame {op : Op} {s t : State} (h : transact op s = .next t) : TransactFrame op s t := by
  obtain ⟨hcmd, hwritten, hvbuf, htCfg, hrxBuf, hrbuf, hendless, hresets⟩ := accept_frame op s
  have htxBuf := fun k => memGet_txBuf_accept op s (k := k)
  have hendless' := (transact_endless h).trans hendless
  have hnext := transact_next h
  generalize accept op s = u at *
  rcases hnext with rfl | ⟨-, hr⟩
  · exact ⟨hcmd, hwritten, hvbuf, htCfg, hendless', hresets, htxBuf,
      (RxBufFrame.refl _).of_rxBuf_eq hrxBuf, (RBufFrame.refl _).of_rbuf_eq hrbuf⟩
  · obtain ⟨-, gcmd, gwritten, gvbuf, gtCfg, gtxBuf, -⟩ := hr.sameRequest
    exact ⟨gcmd.trans hcmd, gwritten.trans hwritten, gvbuf.trans hvbuf, gtCfg.trans htCfg, hendless',
      hr.resets.trans hresets, fun k hk => gtxBuf ▸ htxBuf k hk,
      hr.rxBufFrame.of_rxBuf_eq hrxBuf, hr.rBufFrame.of_rbuf_eq hrbuf⟩

/-! ### The host's side: the fields no access of the host's changes -/

namespace HostSide

variable {s t : State}

theorem txBuf (h : HostSide s t) : t.txBuf = s.txBuf := (congrArg State.txBuf h.frame :)

theorem rxBuf (h : HostSide s t) : t.rxBuf = s.rxBuf := (congrArg State.rxBuf h.frame :)

theorem endless (h : HostSide s t) : t.endless = s.endless := (congrArg State.endless h.frame :)

theorem resets (h : HostSide s t) : t.resets = s.resets := (congrArg State.resets h.frame :)

end HostSide

/-! ### What a call loads and sends (R125) -/

theorem callOperation_frame {op : Op} {load : State → State} {s t : State} (h : callOperation op load s = .next t) :
    TransactFrame op (load s) t := by
  unfold callOperation at h
  split at h
  · cases h
  · exact transact_frame h

theorem map_getLsbD_bitWord (bits : List Bool) : (bits.map bitWord).map (·.getLsbD 0) = bits := by
  have hbit : ((fun w : Word => w.getLsbD 0) ∘ bitWord) = id := by funext b; cases b <;> rfl
  rw [List.map_map, hbit, List.map_id]

theorem operandFrame_loadMultiple_coils (u : Byte) (a : Word) {bits : List Bool} (h : bits.length ≤ Config.vCap)
    (s : State) : operandFrame .writeMultipleCoils (loadMultiple .writeMultipleCoils u a (bits.map bitWord) s)
      = sealed (bodyWriteMultipleCoils u a (BitVec.ofNat 16 bits.length) bits) := by
  have hcap : Config.vCap = 1968 := rfl
  have hlen : (bits.map bitWord).length = bits.length := List.length_map _
  have hcount : (BitVec.ofNat 16 (bits.map bitWord).length).toNat = (bits.map bitWord).length :=
    toNat_ofNat_length (by omega)
  unfold operandFrame
  rw [countOperand_loadMultiple, hcount, vbufEntries_loadMultiple _ _ _ _ _ (by omega), requestBody,
    map_getLsbD_bitWord, ← hlen]
  rfl

theorem operandFrame_loadMultiple_registers (u : Byte) (a : Word) {words : List Word}
    (h : words.length ≤ Config.vCap) (s : State) :
    operandFrame .writeMultipleRegisters (loadMultiple .writeMultipleRegisters u a words s)
      = sealed (bodyWriteMultipleRegisters u a (BitVec.ofNat 16 words.length) words) := by
  have hcap : Config.vCap = 1968 := rfl
  have hcount : (BitVec.ofNat 16 words.length).toNat = words.length := toNat_ofNat_length (by omega)
  unfold operandFrame
  rw [countOperand_loadMultiple, hcount, vbufEntries_loadMultiple _ _ _ _ _ h]
  rfl

theorem operandFrame_loadSingle_coil (u : Byte) (a : Word) (on : Bool) (s : State) :
    operandFrame .writeSingleCoil (loadSingle .writeSingleCoil u a (bitWord on) s)
      = sealed (bodyWriteSingleCoil u a (coilWord on)) := by
  have hwire : wireValue .writeSingleCoil (bitWord on) = coilWord on := by cases on <;> rfl
  rw [← hwire]
  rfl

/-- A call is answered by the host-side wrapper alone, or it is register writes and a transaction, and the request that
these make of the operands is the call's own frame (R125, R204). -/
theorem exec_call_cases {i : Instr} {f : List Byte} (he : encode i = .call f) (s : State) :
    (∃ e, exec i s = .next (emit [e] s)) ∨
      ∃ op load, exec i s = callOperation op load s ∧ f = operandFrame op (load s) ∧ HostSide s (load s) ∧
        (load s).tCfg = s.tCfg := by
  cases i <;> cases he
  case readCoils u a q | readDiscreteInputs u a q | readHoldingRegisters u a q | readInputRegisters u a q =>
    exact .inr ⟨_, loadRead _ u a q, rfl, rfl, ⟨rfl, .of_out_eq rfl⟩, rfl⟩
  case writeSingleRegister u a v => exact .inr ⟨_, loadSingle _ u a v, rfl, rfl, ⟨rfl, .of_out_eq rfl⟩, rfl⟩
  case writeSingleCoil u a on =>
    exact .inr ⟨_, loadSingle _ u a (bitWord on), rfl, (operandFrame_loadSingle_coil u a on s).symm,
      ⟨rfl, .of_out_eq rfl⟩, rfl⟩
  case writeMultipleCoils u a bits =>
    rcases callMultiple_cases .writeMultipleCoils u a (bits.map bitWord) s with ⟨hlen, e⟩ | ⟨-, bound, e⟩
    · rw [List.length_map] at hlen
      exact .inr ⟨_, loadMultiple _ u a (bits.map bitWord), e, (operandFrame_loadMultiple_coils u a hlen s).symm,
        ⟨rfl, .of_out_eq rfl⟩, rfl⟩
    · exact .inl ⟨_, e⟩
  case writeMultipleRegisters u a words =>
    rcases callMultiple_cases .writeMultipleRegisters u a words s with ⟨hlen, e⟩ | ⟨-, bound, e⟩
    · exact .inr ⟨_, loadMultiple _ u a words, e, (operandFrame_loadMultiple_registers u a hlen s).symm,
        ⟨rfl, .of_out_eq rfl⟩, rfl⟩
    · exact .inl ⟨_, e⟩

/-! ### The frame of the eight operations -/

/-- A multiple write leaves CMD_VALUE, and VBUF beyond the values it is given (R125). -/
theorem callMultiple_operands {op : Op} {u : Byte} {a : Word} {values : List Word} {s t : State}
    (h : callMultiple op u a values s = .next t) :
    t.cmd.value = s.cmd.value ∧ t.written.value = s.written.value ∧
      ∀ k, min values.length 1968 ≤ k → memGet t.vbuf k = memGet s.vbuf k := by
  rcases callMultiple_cases op u a values s with ⟨-, e⟩ | ⟨-, bound, e⟩ <;> rw [e] at h
  · have hf := callOperation_frame h
    rw [hf.cmd, hf.written, hf.vbuf]
    refine ⟨rfl, rfl, fun k hk => memGet_memWrite_outside s.vbuf (.inr ?_)⟩
    have hcap : Config.vCap = 1968 := rfl
    rw [Nat.zero_add, List.length_take]
    omega
  · cases h; exact ⟨rfl, rfl, fun _ _ => rfl⟩

theorem callRead_operands {op : Op} {u : Byte} {a q : Word} {s t : State}
    (h : callOperation op (loadRead op u a q) s = .next t) :
    t.cmd.value = s.cmd.value ∧ t.written.value = s.written.value ∧ ∀ k, memGet t.vbuf k = memGet s.vbuf k := by
  have hf := callOperation_frame h
  rw [hf.cmd, hf.written, hf.vbuf]
  exact ⟨rfl, rfl, fun _ => rfl⟩

theorem callSingle_operands {op : Op} {u : Byte} {a v : Word} {s t : State}
    (h : callOperation op (loadSingle op u a v) s = .next t) :
    t.cmd.count = s.cmd.count ∧ t.written.count = s.written.count ∧ ∀ k, memGet t.vbuf k = memGet s.vbuf k := by
  have hf := callOperation_frame h
  rw [hf.cmd, hf.written, hf.vbuf]
  exact ⟨rfl, rfl, fun _ => rfl⟩

/-- Every call leaves the parameters, T_CFG and the buffers beyond the request, the reply and the result. -/
theorem exec_call_frame {i : Instr} {f : List Byte} {s t : State} (he : encode i = .call f) (h : exec i s = .next t) :
    t.cfg = s.cfg ∧ t.tCfg = s.tCfg ∧ t.endless = s.endless ∧ t.resets = s.resets ∧
      (∀ k, f.length ≤ k → memGet t.txBuf k = memGet s.txBuf k) ∧
      (∀ k, t.rxLen ≤ k → memGet t.rxBuf k = memGet s.rxBuf k) ∧
      (∀ k, t.res.resLen.toNat ≤ k → memGet t.rbuf k = memGet s.rbuf k) := by
  refine ⟨(stepKeeps_cfg s.cfg).exec h rfl, ?_⟩
  rcases exec_call_cases he s with ⟨e, hw⟩ | ⟨op, load, hc, rfl, hl, htCfg⟩
  · rw [hw] at h; cases h
    exact ⟨rfl, rfl, rfl, fun _ _ => rfl, fun _ _ => rfl, fun _ _ => rfl⟩
  · have hf := callOperation_frame (hc ▸ h)
    exact ⟨hf.tCfg.trans htCfg, hf.endless.trans hl.endless, hf.resets.trans hl.resets,
      fun k hk => hl.txBuf ▸ hf.txBuf k hk, hf.rxBuf.of_rxBuf_eq hl.rxBuf, (hf.rbuf.of_rbuf_eq hl.rbuf).2⟩

/-- Settles O48: the operands call by call, the rest for all eight alike. -/
theorem callFrame : Obligations.CallFrame := by
  unfold Obligations.CallFrame
  intro s t u a v on bits words
  refine ⟨fun i hi h => ?_, fun i hi h => ?_, fun i n hi h => ?_, fun i f he h => exec_call_frame he h⟩
  · simp only [List.mem_cons, List.not_mem_nil, or_false] at hi
    rcases hi with rfl | rfl | rfl | rfl <;> exact callRead_operands h
  · simp only [List.mem_cons, List.not_mem_nil, or_false] at hi
    rcases hi with rfl | rfl <;> exact callSingle_operands h
  · simp only [List.mem_cons, List.not_mem_nil, or_false, Prod.mk.injEq] at hi
    rcases hi with ⟨rfl, rfl⟩ | ⟨rfl, rfl⟩
    · simpa using callMultiple_operands (values := bits.map bitWord) h
    · exact callMultiple_operands h

end Sys2Proof.Machine

/-! The Checksum Engine: the iteration of the update as a linear map, the checksum over a sealed frame, the port in
Idle, and what a busy block refuses (40_crc.md R130 to R140, 70_reset_and_hazards.md R290, R291). -/

namespace Sys2Proof.Machine

open Claims

/-! ### The update as eight iterations (R130, R134) -/

theorem crcUpdate_eq_iterate (c : Word) (b : Byte) : crcUpdate c b = crcShift^[8] (c ^^^ b.setWidth 16) := rfl

/-- The bit tested, as the spec writes the test. -/
theorem and_one_eq_one_iff (c : Word) : c &&& 1 = 1 ↔ c.getLsbD 0 = true := by
  have h := BitVec.and_one_eq_setWidth_ofBool_getLsbD (x := c)
  cases hc : c.getLsbD 0 <;> rw [hc] at h <;> simp [h]

theorem crcShift_eq_ite (c : Word) : crcShift c = if c &&& 1 = 1 then (c >>> 1) ^^^ 0xA001 else c >>> 1 := by
  simp only [crcShift, and_one_eq_one_iff]
  rfl

/-- An iteration is linear over xor: which of the two polynomials are xored in is the xor of the bits tested. -/
theorem crcShift_xor (a b : Word) : crcShift (a ^^^ b) = crcShift a ^^^ crcShift b := by
  unfold crcShift
  rw [BitVec.getLsbD_xor, BitVec.ushiftRight_xor_distrib]
  cases a.getLsbD 0 <;> cases b.getLsbD 0 <;> simp [BitVec.xor_assoc, BitVec.xor_comm crcPoly]

theorem iterate_crcShift_xor (n : Nat) (a b : Word) :
    crcShift^[n] (a ^^^ b) = crcShift^[n] a ^^^ crcShift^[n] b := by
  induction n generalizing a b with
  | zero => rfl
  | succ n ih => rw [Function.iterate_succ_apply, crcShift_xor, ih]; rfl

/-- As long as the bits tested are 0 the iterations are one plain shift. -/
theorem iterate_crcShift_of_low_zero {n : Nat} {c : Word} (h : ∀ i < n, c.getLsbD i = false) :
    crcShift^[n] c = c >>> n := by
  induction n generalizing c with
  | zero => simp
  | succ n ih =>
    have hshift : crcShift c = c >>> 1 := crcShift_of_even (h 0 n.succ_pos)
    have hlow : ∀ i < n, (c >>> 1).getLsbD i = false := fun i hi => by
      rw [BitVec.getLsbD_ushiftRight, Nat.add_comm]
      exact h (i + 1) (Nat.succ_lt_succ hi)
    rw [Function.iterate_succ_apply, hshift, ih hlow, ← BitVec.shiftRight_add, Nat.add_comm]

/-- The eight iterations by the bytes of the word: the high byte comes down, xored with what the low byte makes. -/
theorem iterate_crcShift_eq (c : Word) : crcShift^[8] c = (c >>> 8) ^^^ crcShift^[8] (c &&& 0x00FF) := by
  have hsplit : c = (c &&& 0xFF00) ^^^ (c &&& 0x00FF) := by
    ext i hi
    interval_cases i <;> simp
  have hlow : ∀ i < 8, (c &&& 0xFF00).getLsbD i = false := fun i hi => by interval_cases i <;> simp
  have hhigh : (c &&& 0xFF00) >>> 8 = c >>> 8 := by
    ext i hi
    interval_cases i <;> simp
  calc crcShift^[8] c
    _ = crcShift^[8] ((c &&& 0xFF00) ^^^ (c &&& 0x00FF)) := by rw [← hsplit]
    _ = crcShift^[8] (c &&& 0xFF00) ^^^ crcShift^[8] (c &&& 0x00FF) := iterate_crcShift_xor 8 _ _
    _ = (c >>> 8) ^^^ crcShift^[8] (c &&& 0x00FF) := by rw [iterate_crcShift_of_low_zero hlow, hhigh]

theorem xor_byte_ushiftRight (c : Word) (b : Byte) : (c ^^^ b.setWidth 16) >>> 8 = c >>> 8 := by
  ext i hi
  simp

/-- Settles O7: the update is linear, and the high byte of `c` meets no test. -/
theorem crcTableForm : Obligations.CrcTableForm := by
  unfold Obligations.CrcTableForm
  intro c b
  rw [crcUpdate_eq_iterate, iterate_crcShift_eq, xor_byte_ushiftRight, crcUpdate_eq_iterate]
  simp

/-! ### The checksum of a sealed frame (R136 to R138) -/

theorem checksum_append (s t : List Byte) : checksum (s ++ t) = t.foldl crcUpdate (checksum s) := by
  simp only [checksum, crcFeed_eq_foldl, List.foldl_append]

/-- The low byte of the register fed back leaves the high byte alone. -/
theorem crcUpdate_lo (c : Word) : crcUpdate c (lo c) = (hi c).setWidth 16 := by
  have hlow : ∀ i < 8, (c ^^^ (lo c).setWidth 16).getLsbD i = false := fun i hi => by
    have hi' : i < 16 := by omega
    simp [lo, hi, hi']
  have hhigh : c >>> 8 = (hi c).setWidth 16 := by
    apply BitVec.eq_of_toNat_eq
    simp only [hi, BitVec.toNat_setWidth, BitVec.toNat_ushiftRight, Nat.shiftRight_eq_div_pow]
    omega
  rw [crcUpdate_eq_iterate, iterate_crcShift_of_low_zero hlow, xor_byte_ushiftRight, hhigh]

/-- A register that holds one byte is cleared by that byte. -/
theorem crcUpdate_setWidth_self (b : Byte) : crcUpdate (b.setWidth 16) b = 0 := by
  rw [crcUpdate_eq_iterate, BitVec.xor_self]
  rfl

/-- Settles O6: the two bytes of the checksum clear the register one after the other. -/
theorem sealedResidueZero : Obligations.SealedResidueZero := by
  unfold Obligations.SealedResidueZero
  intro s
  calc checksum (sealed s)
    _ = crcUpdate (crcUpdate (checksum s) (lo (checksum s))) (hi (checksum s)) := checksum_append s _
    _ = 0 := by rw [crcUpdate_lo, crcUpdate_setWidth_self]

@[simp] theorem lo_le16 (l h : Byte) : lo (le16 l h) = l := by
  ext i hi
  simp [lo, le16, be16]

@[simp] theorem hi_le16 (l h : Byte) : hi (le16 l h) = h := by
  ext i hi
  have hi' : 8 + i < 16 := by omega
  simp [Machine.hi, le16, be16, hi', BitVec.getLsbD_eq_getElem hi]

/-- Two bytes read as a number are that number exactly when they are its bytes (R64). -/
theorem eq_le16_iff (v : Word) (l h : Byte) : v = le16 l h ↔ [l, h] = le16bytes v := by
  constructor
  · rintro rfl
    simp [le16bytes]
  · intro hb
    obtain ⟨rfl, rfl⟩ : l = lo v ∧ h = hi v := by simpa [le16bytes] using hb
    exact (le16_lo_hi v).symm

theorem crcCalc_append (s : List Byte) (l h : Byte) : crcCalc (s ++ [l, h]) = checksum s := by
  simp [crcCalc]

theorem crcRx_append (s : List Byte) (l h : Byte) : crcRx (s ++ [l, h]) = le16 l h := by
  simp [crcRx]

/-- Settles O5: the comparison of the two numbers is that of the byte pairs. -/
theorem checksumWireForm : Obligations.ChecksumWireForm := by
  unfold Obligations.ChecksumWireForm
  refine ⟨fun _ => rfl, fun s l h => ⟨crcCalc_append s l h, crcRx_append s l h, ?_⟩⟩
  rw [crcGood, beq_iff_eq, crcCalc_append, crcRx_append]
  exact eq_le16_iff (checksum s) l h

/-! ### The checksum port in Idle (R131 to R135) -/

/-- A CRC of the host's own making is what the host sees (R133). -/
theorem hostCrc_of_owned {s : State} (h : s.crcOwned = true) : hostCrc s = s.crc := if_pos h

theorem decode_write_crcByte (b : Byte) : decode (.write 0x13 b.toNat) = .ok (.crcByte b) :=
  decode_encode_hostSide (i := .crcByte b) rfl nofun

theorem exec_crcSeed_idle {s : State} (hi : s.phase = .idle) : exec .crcSeed s = .next (seedCrc s) :=
  whenIdle_idle hi _ _

theorem exec_crcByte_idle {s : State} (hi : s.phase = .idle) (b : Byte) : exec (.crcByte b) s = .next (feedCrc b s) :=
  whenIdle_idle hi _ _

theorem exec_crcRead_idle {s : State} (hi : s.phase = .idle) : exec .crcRead s = .next (readCrc s) :=
  whenIdle_idle hi _ _

/-- Settles O1: the register seeded, and a register seeded is seeded again to itself. -/
theorem crcSeedWritesSeed : Obligations.CrcSeedWritesSeed := by
  unfold Obligations.CrcSeedWritesSeed
  intro s d
  refine ⟨rfl, fun hi => ⟨seedCrc s, exec_crcSeed_idle hi, rfl, hostCrc_of_owned rfl, ?_⟩⟩
  exact exec_crcSeed_idle (s := seedCrc s) hi

/-- Settles O2: an iteration is the loop body the spec writes, and the port feeds the register the host sees. -/
theorem crcByteRunsEightIterations : Obligations.CrcByteRunsEightIterations := by
  unfold Obligations.CrcByteRunsEightIterations
  rw [← funext crcShift_eq_ite]
  refine ⟨crcUpdate_eq_iterate, fun s b => ⟨decode_write_crcByte b, fun hi => ?_⟩⟩
  exact ⟨feedCrc b s, exec_crcByte_idle hi b, rfl, hostCrc_of_owned rfl, crcUpdate_eq_iterate (hostCrc s) b⟩

/-- Settles O3: the read emits what the host sees in CRC and does nothing else. -/
theorem crcReadReturnsRegister : Obligations.CrcReadReturnsRegister := by
  unfold Obligations.CrcReadReturnsRegister
  exact ⟨rfl, fun _ hi => ⟨exec_crcRead_idle hi, hostCrc_of_owned⟩⟩

/-- A host write in Idle that is an instruction, carried out, is one step (R110). -/
theorem leads_exec {reg : Word} {d : HostWord} {i : Instr} {s t : State} (hi : s.phase = .idle)
    (hd : decode (.write reg d) = .ok i) (h : ∀ xs, exec i (withInputs xs s) = .next (withInputs xs t)) :
    Leads [hostWrites reg d] s t := fun k xs =>
  have hstep := step_packet_decoded (s := withInputs (hostWrites reg d :: xs) s) hd rfl (.inl hi)
  run_succ k (hstep.trans (h xs))

theorem leads_seedCrc {s : State} (hi : s.phase = .idle) (d : HostWord) : Leads [hostWrites 0x12 d] s (seedCrc s) :=
  leads_exec (i := .crcSeed) hi rfl fun xs => exec_crcSeed_idle (s := withInputs xs s) hi

theorem leads_feedCrc {s : State} (hi : s.phase = .idle) (b : Byte) :
    Leads [hostWrites 0x13 b.toNat] s (feedCrc b s) :=
  leads_exec hi (decode_write_crcByte b) fun xs => exec_crcByte_idle (s := withInputs xs s) hi b

/-- The bytes written to CRC_DIN one after the other feed a register of the host's (R135). -/
theorem leads_crcFeed (bs : List Byte) {s : State} (hi : s.phase = .idle) (ho : s.crcOwned = true) :
    Leads (bs.map fun b => hostWrites 0x13 b.toNat) s { s with crc := crcFeed s.crc bs } := by
  induction bs generalizing s with
  | nil => exact .nil s
  | cons b bs ih =>
    have hfeed : feedCrc b s = { s with crc := crcUpdate s.crc b } := by
      rw [feedCrc, hostCrc_of_owned ho, ← ho]
    rw [crcFeed_cons]
    have hrest := ih (s := feedCrc b s) hi rfl
    rw [hfeed] at hrest
    exact (hfeed ▸ leads_feedCrc hi b).cons hrest

/-- Settles O4: the seed, then the bytes one write at a time, ends with the checksum. -/
theorem portComputesChecksum : Obligations.PortComputesChecksum := by
  unfold Obligations.PortComputesChecksum
  refine ⟨rfl, checksum_append, fun s d bs rest hi => ?_⟩
  have hport := (leads_seedCrc hi d).cons (leads_crcFeed bs (s := seedCrc s) hi rfl)
  have hrun := hport 0 rest
  rw [List.length_cons, List.length_map, Nat.zero_add] at hrun
  exact hrun

/-! ### What a busy block refuses (R140, R290, R291) -/

section refusals

variable {s : State} (hb : s.phase ≠ .idle)
include hb

/-- A register the host may write in Idle is not written while busy (R291). -/
theorem hostWrite_busy {reg : Word} {r : Reg} {w : Nat} (hreg : registerAt reg = some r)
    (hw : storeWidth s.cfg r = some w) (d : HostWord) : hostWrite reg d s = .refused .writeWhileBusy := by
  unfold hostWrite
  rw [hreg]
  cases r <;> cases hw <;> exact whenIdle_busy hb _ _

theorem startOperation_busy : startOperation s = .refused .startWhileBusy :=
  if_pos (busy_eq_true_iff.2 hb)

/-- A multiple write that the registers can express is refused while busy (R290). -/
theorem callMultiple_busy (op : Op) (u : Byte) (a : Word) {values : List Word} (h : values.length ≤ Config.vCap) :
    callMultiple op u a values s = .refused .startWhileBusy :=
  (if_neg (Nat.not_lt.2 h)).trans (callOperation_busy hb op _)

/-- A call of as many values as VBUF has entries is refused while busy (R290). -/
theorem exec_call_busy {i : Instr} {f : List Byte} (he : encode i = .call f)
    (hbits : ∀ u a bits, i = .writeMultipleCoils u a bits → bits.length ≤ 1968)
    (hwords : ∀ u a words, i = .writeMultipleRegisters u a words → words.length ≤ 1968) :
    exec i s = .refused .startWhileBusy := by
  cases i <;> cases he
  case writeMultipleCoils u a bits =>
    exact callMultiple_busy hb _ u a ((List.length_map _).trans_le (hbits u a bits rfl))
  case writeMultipleRegisters u a words => exact callMultiple_busy hb _ u a (hwords u a words rfl)
  all_goals exact callOperation_busy hb _ _

end refusals

/-- The operand registers, T_CFG and VBUF are registers the host may write (R40). -/
theorem registerAt_storeRegister (p : Config.Params) {reg : Word}
    (h : reg.toNat ≤ 0x04 ∨ reg = 0x07 ∨ (0x1000 ≤ reg.toNat ∧ reg.toNat < 0x1000 + 1968)) :
    ∃ r w, registerAt reg = some r ∧ storeWidth p r = some w := by
  rcases h with h | rfl | ⟨h1, h2⟩
  · rw [registerAt_low (by omega)]
    interval_cases reg.toNat <;> exact ⟨_, _, rfl, rfl⟩
  · exact ⟨.tCfg, p.tw, rfl, rfl⟩
  · exact ⟨_, 16, registerAt_vbufWindow h1 h2, rfl⟩

/-- Settles O18: each access by what it is run as, all of them accepted in Idle only. -/
theorem busyAccessesRefused : Obligations.BusyAccessesRefused := by
  unfold Obligations.BusyAccessesRefused
  intro s reg d b hb
  refine ⟨fun h => ?_, whenIdle_busy hb _ _, whenIdle_busy hb _ _, whenIdle_busy hb _ _, startOperation_busy hb,
    fun i f he hbits hwords => exec_call_busy hb he hbits hwords⟩
  obtain ⟨r, w, hreg, hw⟩ := registerAt_storeRegister s.cfg h
  exact (consumePacket_write reg d s).trans (hostWrite_busy hb hreg hw d)

end Sys2Proof.Machine

/-! What every encoded request has in common: the four fields before its data, a checksum that is good, and its length
(41_encode.md R150 to R163). -/

namespace Sys2Proof.Machine

/-! ### The fields of a request (R162) -/

/-- The second 16-bit field of a request: the value of the single writes, the quantity of all others (R162). -/
def quantityOrValue (op : Op) (r : Latched) : Word :=
  if op = .writeSingleCoil ∨ op = .writeSingleRegister then r.value else r.count

/-- REQ8 and REQ_WM bodies begin alike; a REQ8 body has nothing after its two fields (R92, R93). -/
theorem requestBody_eq_fields_append (op : Op) (r : Latched) (entries : List Word) :
    ∃ data, requestBody op r entries = body8 r.unit (funcCode op) r.addr (quantityOrValue op r) ++ data := by
  cases op
  case writeMultipleCoils => exact ⟨_, rfl⟩
  case writeMultipleRegisters => exact ⟨_, rfl⟩
  all_goals exact ⟨[], rfl⟩

/-- The fields are where they are whatever follows them. -/
theorem body8_append_fields (u f : Byte) (a b : Word) (rest : List Byte) :
    let frame := body8 u f a b ++ rest
    frame.getD 0 0 = u ∧ frame.getD 1 0 = f ∧ be16 (frame.getD 2 0) (frame.getD 3 0) = a ∧
      be16 (frame.getD 4 0) (frame.getD 5 0) = b :=
  ⟨rfl, rfl, be16_hi_lo a, be16_hi_lo b⟩

/-- A sealed frame passes the checksum check (R136, R137). -/
theorem crcCalc_sealed (s : List Byte) : crcCalc (sealed s) = crcRx (sealed s) :=
  calc crcCalc (sealed s)
    _ = checksum s := crcCalc_append s _ _
    _ = le16 (lo (checksum s)) (hi (checksum s)) := (le16_lo_hi _).symm
    _ = crcRx (sealed s) := (crcRx_append s _ _).symm

/-- Settles O12: the fields by how every body begins, the bound with a floor of 0, which every quantity meets. -/
theorem requestFrameFields : Obligations.RequestFrameFields := by
  unfold Obligations.RequestFrameFields
  intro op r entries hfunc hlen f
  obtain ⟨data, hbody⟩ := requestBody_eq_fields_append op r entries
  have hf : f = body8 r.unit r.func r.addr (quantityOrValue op r)
      ++ (data ++ checksumBytes (requestBody op r entries)) := by
    rw [hfunc, ← List.append_assoc, ← hbody]
    rfl
  obtain ⟨hunit, hfc, haddr, hsecond⟩ := hf ▸ body8_append_fields r.unit r.func r.addr (quantityOrValue op r) _
  refine ⟨hunit, hfc, haddr, hsecond, crcCalc_sealed _, sealed_requestBody_length op r entries hlen, fun hceiling => ?_⟩
  exact sealed_requestBody_length_le op r entries hlen
    (violatedBound_of_within (p := Config.Params.default) fun c hc => ⟨hceiling c hc, Nat.zero_le _⟩)

end Sys2Proof.Machine

/-! The decoder and the verdict it ends a transaction with: the checks and the extractions case by case, the decode as a
step of the block, and that the unit identifier of a reply has no part in it (42_decode.md R170 to R192). -/

namespace Sys2Proof.Machine

open Claims

/-! ### The common checks (R170 to R175) -/

section checks

variable {x : Received}

theorem commonFailure_of_overflow (h : x.ovf = true) :
    commonFailure x = some (.overflow (capWord x.rxCap) (saturate x.n)) :=
  if_pos h

variable (ho : x.ovf = false)
include ho

theorem commonFailure_of_short (hn : x.n < 5) : commonFailure x = some (.short (BitVec.ofNat 16 x.n)) := by
  unfold commonFailure
  rw [ho, if_neg Bool.false_ne_true, if_pos hn]

variable (hn : 5 ≤ x.n)
include hn

theorem commonFailure_of_checksum (hc : crcCalc x.f ≠ crcRx x.f) :
    commonFailure x = some (.checksum (crcRx x.f) (crcCalc x.f)) := by
  unfold commonFailure
  rw [ho, if_neg Bool.false_ne_true, if_neg (Nat.not_lt.2 hn), if_pos hc]

/-- Behind check 2 only the function byte is looked at. -/
theorem commonFailure_of_good (hc : crcCalc x.f = crcRx x.f) :
    commonFailure x = if 0x80#8 < byteAt x.f 1 then some (.deviceException (byteAt x.f 2))
      else if byteAt x.f 1 ≠ x.req.func then some (.function x.req.func (byteAt x.f 1)) else none := by
  unfold commonFailure
  rw [ho, if_neg Bool.false_ne_true, if_neg (Nat.not_lt.2 hn), if_neg (not_not_intro hc)]

variable (hc : crcCalc x.f = crcRx x.f)
include hc

theorem commonFailure_of_exception (hf : 0x80 < (byteAt x.f 1).toNat) :
    commonFailure x = some (.deviceException (byteAt x.f 2)) :=
  (commonFailure_of_good ho hn hc).trans (if_pos hf)

theorem commonFailure_of_function (hf : (byteAt x.f 1).toNat ≤ 0x80) (hne : byteAt x.f 1 ≠ x.req.func) :
    commonFailure x = some (.function x.req.func (byteAt x.f 1)) := by
  exact (commonFailure_of_good ho hn hc).trans ((if_neg (Nat.not_lt.2 hf)).trans (if_pos hne))

theorem commonFailure_eq_none (hf : (byteAt x.f 1).toNat ≤ 0x80) (he : byteAt x.f 1 = x.req.func) :
    commonFailure x = none := by
  exact (commonFailure_of_good ho hn hc).trans ((if_neg (Nat.not_lt.2 hf)).trans (if_neg (not_not_intro he)))

end checks

/-! ### What CRC is left holding (R173) -/

theorem crcAfterDecode_of_unreached {x : Received} (h : x.ovf = true ∨ x.n < 5) (c : Word) :
    crcAfterDecode x c = c :=
  if_pos (by simpa using h)

theorem crcAfterDecode_of_reached {x : Received} (ho : x.ovf = false) (hn : 5 ≤ x.n) (c : Word) :
    crcAfterDecode x c = crcCalc x.f :=
  if_neg (by simp [ho, hn])

/-! ### The extractions (R180, R183, R186) -/

theorem saturate_eq {v : Nat} (h : v ≤ 0xFFFF) : saturate v = BitVec.ofNat 16 v := by
  rw [saturate, Nat.min_eq_left h]

section extractions

variable {f : List Byte} {n qty : Nat}

theorem decBits_of_count (h : (byteAt f 2).toNat < bitBytes qty) :
    decBits f n qty = .failed (.byteCount (BitVec.ofNat 16 (bitBytes qty)) ((byteAt f 2).setWidth 16)) :=
  if_pos h

theorem decBits_of_length (hc : bitBytes qty ≤ (byteAt f 2).toNat) (h : n - 5 < bitBytes qty) :
    decBits f n qty = .failed (.length (saturate (5 + bitBytes qty)) (saturate n)) :=
  (if_neg (Nat.not_lt.2 hc)).trans (if_pos h)

theorem decBits_of_enough (hc : bitBytes qty ≤ (byteAt f 2).toNat) (h : bitBytes qty ≤ n - 5) :
    decBits f n qty = .ok ((List.range qty).map fun i => bitWord ((byteAt f (3 + i / 8)).getLsbD (i % 8))) :=
  (if_neg (Nat.not_lt.2 hc)).trans (if_neg (Nat.not_lt.2 h))

theorem decRegs_of_count (h : (byteAt f 2).toNat ≠ 2 * qty) :
    decRegs f n qty = .failed (.byteCount (saturate (2 * qty)) ((byteAt f 2).setWidth 16)) :=
  if_pos h

theorem decRegs_of_length (hc : (byteAt f 2).toNat = 2 * qty) (h : n < 5 + 2 * qty) :
    decRegs f n qty = .failed (.length (saturate (5 + 2 * qty)) (saturate n)) :=
  (if_neg (not_not_intro hc)).trans (if_pos h)

theorem decRegs_of_enough (hc : (byteAt f 2).toNat = 2 * qty) (h : 5 + 2 * qty ≤ n) :
    decRegs f n qty
      = .ok ((List.range qty).map fun i => be16 (byteAt f (3 + 2 * i)) (byteAt f (4 + 2 * i))) :=
  (if_neg (not_not_intro hc)).trans (if_neg (Nat.not_lt.2 h))

theorem decEcho_of_length {a b : Word} (h : n ≠ 8) : decEcho f n a b = .failed (.length 8 (saturate n)) :=
  if_pos h

/-- Of 8 bytes the echo is compared field by field, the address first. -/
theorem decEcho_eight (f : List Byte) (a b : Word) :
    decEcho f 8 a b
      = if be16 (byteAt f 2) (byteAt f 3) ≠ a then .failed (.echo false a (be16 (byteAt f 2) (byteAt f 3)))
        else if be16 (byteAt f 4) (byteAt f 5) ≠ b then .failed (.echo true b (be16 (byteAt f 4) (byteAt f 5)))
        else .ok [] :=
  if_neg (not_not_intro rfl)

/-- The byte count bounds the registers of a reply, whatever was requested. -/
theorem decRegs_ok_le {data : List Word} (h : decRegs f n qty = .ok data) : data.length ≤ Config.rCap := by
  have hcap : Config.rCap = 2000 := rfl
  by_cases hc : (byteAt f 2).toNat = 2 * qty
  · rw [decRegs_ok h]; omega
  · rw [decRegs_of_count hc] at h; cases h

end extractions

/-- The extraction of the requested operation (R181 to R190). -/
def extract (op : Op) (x : Received) : Result :=
  match op with
  | .readCoils => decBits x.f x.n x.req.count.toNat
  | .readDiscreteInputs => decBits x.f x.n x.req.count.toNat
  | .readHoldingRegisters => decRegs x.f x.n x.req.count.toNat
  | .readInputRegisters => decRegs x.f x.n x.req.count.toNat
  | .writeSingleCoil => decEcho x.f x.n x.req.addr x.req.value
  | .writeSingleRegister => decEcho x.f x.n x.req.addr x.req.value
  | .writeMultipleCoils => decEcho x.f x.n x.req.addr x.req.count
  | .writeMultipleRegisters => decEcho x.f x.n x.req.addr x.req.count

/-- Every decoder is the common checks and then its extraction (R170, R177). -/
theorem decodeFor_eq_checked (op : Op) (x : Received) : decodeFor op x = checked x (extract op x) := by
  cases op <;> rfl

theorem decodeFor_of_failure {x : Received} {e : Failure} (h : commonFailure x = some e) (op : Op) :
    decodeFor op x = .failed e := by
  rw [decodeFor_eq_checked, checked, h]

theorem decodeFor_of_passed {x : Received} (h : commonFailure x = none) (op : Op) :
    decodeFor op x = extract op x := by
  rw [decodeFor_eq_checked, checked, h]

/-! ### The decode as a step (R210 to R212) -/

/-- The state in which the decode of `s` with verdict `r` ends. -/
def decodeEnd (r : Result) (s : State) : State := finish r { s with crc := crcAfterDecode (received s) s.crc }

theorem decodeEnd_ends (r : Result) (s : State) : Ends s (decodeEnd r s) r (resultGroup r) := by
  simp [Ends, decodeEnd]

/-- The end of a decode whose verdict is known. -/
theorem decodeEnd_ends_of_eq {r r' : Result} (h : r = r') (s : State) :
    Ends s (decodeEnd r s) r' (resultGroup r') :=
  h ▸ decodeEnd_ends r s

theorem decodeMove_eq_decodeEnd {s : State} {op : Op} {r : Result} (hop : s.req.func = funcCode op)
    (hr : decodeFor op (received s) = r) (hfit : ∀ data, r = .ok data → data.length ≤ Config.rCap) :
    decodeMove s = .next (decodeEnd r s) := by
  unfold decodeMove
  rw [hop, opOfCode_funcCode]
  dsimp only
  rw [hr]
  cases r with
  | failed e => rfl
  | ok data => exact if_neg (Nat.not_lt.2 (hfit data rfl))

section decoding

variable {s : State} {op : Op} (hd : DecodingFor op s)
include hd

theorem step_decodingFor {r : Result} (hr : decodeFor op (received s) = r)
    (hfit : ∀ data, r = .ok data → data.length ≤ Config.rCap) : step s = .next (decodeEnd r s) := by
  obtain ⟨hp, hf, he⟩ := hd
  exact (step_decoding hp he).trans (decodeMove_eq_decodeEnd hf hr hfit)

/-- One of the checks 0 to 4 fails: the failure ends the operation, whichever was requested. -/
theorem step_of_commonFailure {e : Failure} (h : commonFailure (received s) = some e) :
    let t := decodeEnd (decodeFor op (received s)) s
    step s = .next t ∧ t.crc = crcAfterDecode (received s) s.crc ∧ Ends s t (.failed e) (failureGroup e) := by
  have hr : decodeFor op (received s) = .failed e := decodeFor_of_failure h op
  rw [hr]
  exact ⟨step_decodingFor hd hr nofun, rfl, decodeEnd_ends (.failed e) s⟩

/-- Checks 0 to 4 pass: the extraction is the verdict, and CRC holds the computed checksum. -/
theorem step_of_checksPass (h : ChecksPass s (storedReply s))
    (hfit : ∀ data, extract op (received s) = .ok data → data.length ≤ Config.rCap) :
    let t := decodeEnd (extract op (received s)) s
    step s = .next t ∧ t.crc = crcCalc (storedReply s) := by
  obtain ⟨ho, hn, hc, hf, he⟩ := h
  have hpass : commonFailure (received s) = none := commonFailure_eq_none ho hn hc hf he
  exact ⟨step_decodingFor hd (decodeFor_of_passed hpass op) hfit, crcAfterDecode_of_reached ho hn s.crc⟩

end decoding

/-- Settles O29, check by check. -/
theorem commonChecksInOrder : Obligations.CommonChecksInOrder := by
  unfold Obligations.CommonChecksInOrder
  intro s op hd f n
  refine ⟨decodeEnd (decodeFor op (received s)) s, fun ho => ?_, fun ho hn => ?_, fun ho hn hc => ?_,
    fun ho hn hc hf => ?_, fun ho hn hc hf hne => ?_⟩
  · obtain ⟨hs, hcrc, he⟩ := step_of_commonFailure hd (commonFailure_of_overflow ho)
    refine ⟨hs, hcrc.trans (crcAfterDecode_of_unreached (.inl ho) _), fun c hcap => ?_⟩
    have hword : capWord (received s).rxCap = saturate c := congrArg capWord hcap
    rwa [hword] at he
  · obtain ⟨hs, hcrc, he⟩ := step_of_commonFailure hd (commonFailure_of_short ho hn)
    exact ⟨hs, hcrc.trans (crcAfterDecode_of_unreached (.inr hn) _), he⟩
  · obtain ⟨hs, hcrc, he⟩ := step_of_commonFailure hd (commonFailure_of_checksum ho hn hc)
    exact ⟨hs, hcrc.trans (crcAfterDecode_of_reached ho hn _), he⟩
  · obtain ⟨hs, hcrc, he⟩ := step_of_commonFailure hd (commonFailure_of_exception ho hn hc hf)
    exact ⟨hs, hcrc.trans (crcAfterDecode_of_reached ho hn _), he⟩
  · obtain ⟨hs, hcrc, he⟩ := step_of_commonFailure hd (commonFailure_of_function ho hn hc hf hne)
    exact ⟨hs, hcrc.trans (crcAfterDecode_of_reached ho hn _), he⟩

/-- A read whose data are known ends with as many entries in RBUF, each as in `Return` (R39, R211). -/
theorem decodeEnd_ends_range {r : Result} {q : Word} {g : Nat → Word} (s : State)
    (h : r = .ok ((List.range q.toNat).map g)) :
    ∃ data, Ends s (decodeEnd r s) (.ok data) { ResultGroup.zero with resLen := q } ∧ data.length = q.toNat ∧
      ∀ i < q.toNat, memGet (decodeEnd r s).rbuf i = some (g i) ∧ data[i]? = memGet (decodeEnd r s).rbuf i := by
  subst h
  have hlen : ((List.range q.toNat).map g).length = q.toNat := by simp
  have hgroup : resultGroup (.ok ((List.range q.toNat).map g)) = { ResultGroup.zero with resLen := q } := by
    simp [resultGroup, okGroup]
  refine ⟨_, hgroup ▸ decodeEnd_ends _ s, hlen, fun i hi => ?_⟩
  have hi' : i < ((List.range q.toNat).map g).length := by rwa [hlen]
  have hmem := memGet_resultBuffer_ok s.rbuf _ hi'
  exact ⟨hmem.trans (by simp [hi]), hmem.symm⟩

/-- Settles O30: the two bit reads have one extraction. -/
theorem bitReadsDecode : Obligations.BitReadsDecode := by
  unfold Obligations.BitReadsDecode
  intro s op hop hd f qty need hp hq
  have hx : extract op (received s) = decBits f s.rxLen qty := by rcases hop with rfl | rfl <;> rfl
  have hcap : Config.rCap = 2000 := rfl
  have hneed : need ≤ 250 := by omega
  obtain ⟨hs, hcrc⟩ := step_of_checksPass hd hp fun data h => by rw [decBits_ok (hx.symm.trans h)]; omega
  refine ⟨_, hs, hcrc, fun hc => ?_, fun hc hl => ?_, fun hc hl => ?_⟩
  · exact decodeEnd_ends_of_eq (hx.trans (decBits_of_count hc)) s
  · have hlen := hx.trans (decBits_of_length hc hl)
    have hfive : saturate (5 + bitBytes qty) = BitVec.ofNat 16 (5 + need) := saturate_eq (v := 5 + need) (by omega)
    rw [hfive, saturate_eq (by omega)] at hlen
    exact decodeEnd_ends_of_eq hlen s
  · exact decodeEnd_ends_range s (hx.trans (decBits_of_enough hc hl))

/-- Settles O31: the two register reads have one extraction. -/
theorem registerReadsDecode : Obligations.RegisterReadsDecode := by
  unfold Obligations.RegisterReadsDecode
  intro s op hop hd f qty hp
  have hx : extract op (received s) = decRegs f s.rxLen qty := by rcases hop with rfl | rfl <;> rfl
  obtain ⟨hs, hcrc⟩ := step_of_checksPass hd hp fun data h => decRegs_ok_le (hx.symm.trans h)
  refine ⟨_, hs, hcrc, fun hc => ?_, fun hc hl => ?_, fun hc hl => ?_⟩
  · exact decodeEnd_ends_of_eq (hx.trans (decRegs_of_count hc)) s
  · have hlen := hx.trans (decRegs_of_length hc hl)
    rw [saturate_eq (by omega), saturate_eq (by omega)] at hlen
    exact decodeEnd_ends_of_eq hlen s
  · exact decodeEnd_ends_range s (hx.trans (decRegs_of_enough hc hl))

/-- Settles O32: the four writes have one extraction, of the value or the quantity. -/
theorem writeEchoesDecode : Obligations.WriteEchoesDecode := by
  unfold Obligations.WriteEchoesDecode
  intro s op b hd hop f fa fb hp
  have hx : extract op (received s) = decEcho f s.rxLen s.req.addr b := by
    simp only [List.mem_cons, List.not_mem_nil, or_false, Prod.mk.injEq] at hop
    rcases hop with ⟨rfl, rfl⟩ | ⟨rfl, rfl⟩ | ⟨rfl, rfl⟩ | ⟨rfl, rfl⟩ <;> rfl
  obtain ⟨hs, hcrc⟩ := step_of_checksPass hd hp fun data h => by
    rw [decEcho_ok (hx.symm.trans h)]; exact Nat.zero_le _
  have hx8 (h8 : s.rxLen = 8) := (h8 ▸ hx).trans (decEcho_eight f s.req.addr b)
  refine ⟨_, hs, hcrc, fun hl => ?_, fun h8 ha => ?_, fun h8 ha hb => ?_, fun h8 ha hb => ?_⟩
  · exact decodeEnd_ends_of_eq (hx.trans (decEcho_of_length hl)) s
  · exact decodeEnd_ends_of_eq ((hx8 h8).trans (if_pos ha)) s
  · exact decodeEnd_ends_of_eq ((hx8 h8).trans ((if_neg (not_not_intro ha)).trans (if_pos hb))) s
  · exact decodeEnd_ends_of_eq
      ((hx8 h8).trans ((if_neg (not_not_intro ha)).trans (if_neg (not_not_intro hb)))) s

/-! ### The unit identifier of a reply (R176) -/

/-- What stands between the unit identifier and the checksum of `n` bytes is the same in `f` and `g`. -/
def SameAfterUnit (n : Nat) (f g : List Byte) : Prop := ∀ k, 1 ≤ k → k + 2 < n → byteAt f k = byteAt g k

section unit

variable {n : Nat} {f g : List Byte} (h : SameAfterUnit n f g)
include h

theorem decEcho_congr (a b : Word) : decEcho f n a b = decEcho g n a b := by
  by_cases h8 : n = 8
  · subst h8
    rw [decEcho_eight, decEcho_eight, h 2 (by decide) (by decide), h 3 (by decide) (by decide),
      h 4 (by decide) (by decide), h 5 (by decide) (by decide)]
  · rw [decEcho_of_length h8, decEcho_of_length h8]

variable (hn : 5 ≤ n)
include hn

theorem decBits_congr (qty : Nat) : decBits f n qty = decBits g n qty := by
  have hcount : byteAt f 2 = byteAt g 2 := h 2 (by decide) hn
  rcases Nat.lt_or_ge (byteAt g 2).toNat (bitBytes qty) with hc | hc
  · rw [decBits_of_count hc, decBits_of_count (hcount ▸ hc), hcount]
  · rcases Nat.lt_or_ge (n - 5) (bitBytes qty) with hl | hl
    · rw [decBits_of_length hc hl, decBits_of_length (hcount ▸ hc) hl]
    · rw [decBits_of_enough hc hl, decBits_of_enough (hcount ▸ hc) hl]
      refine congrArg Result.ok (List.map_congr_left fun i hi => ?_)
      have hi' := List.mem_range.1 hi
      unfold bitBytes at hl
      rw [h (3 + i / 8) (by omega) (by omega)]

theorem decRegs_congr (qty : Nat) : decRegs f n qty = decRegs g n qty := by
  have hcount : byteAt f 2 = byteAt g 2 := h 2 (by decide) hn
  by_cases hc : (byteAt g 2).toNat = 2 * qty
  · rcases Nat.lt_or_ge n (5 + 2 * qty) with hl | hl
    · rw [decRegs_of_length hc hl, decRegs_of_length (hcount ▸ hc) hl]
    · rw [decRegs_of_enough hc hl, decRegs_of_enough (hcount ▸ hc) hl]
      refine congrArg Result.ok (List.map_congr_left fun i hi => ?_)
      have hi' := List.mem_range.1 hi
      rw [h (3 + 2 * i) (by omega) (by omega), h (4 + 2 * i) (by omega) (by omega)]
  · rw [decRegs_of_count hc, decRegs_of_count (hcount ▸ hc), hcount]

end unit

section verdict

variable {x : Received} {f g : List Byte} (h : SameAfterUnit x.n f g)
include h

theorem extract_congr (hn : 5 ≤ x.n) (op : Op) : extract op { x with f := f } = extract op { x with f := g } := by
  cases op with
  | readCoils => exact decBits_congr h hn _
  | readDiscreteInputs => exact decBits_congr h hn _
  | readHoldingRegisters => exact decRegs_congr h hn _
  | readInputRegisters => exact decRegs_congr h hn _
  | writeSingleCoil => exact decEcho_congr h _ _
  | writeSingleRegister => exact decEcho_congr h _ _
  | writeMultipleCoils => exact decEcho_congr h _ _
  | writeMultipleRegisters => exact decEcho_congr h _ _

/-- Two frames with good checksums that agree after the unit identifier have one verdict. -/
theorem decodeFor_congr (hf : crcCalc f = crcRx f) (hg : crcCalc g = crcRx g) (op : Op) :
    decodeFor op { x with f := f } = decodeFor op { x with f := g } := by
  let xf : Received := { x with f := f }
  let xg : Received := { x with f := g }
  rcases Bool.eq_false_or_eq_true x.ovf with ho | ho
  · rw [decodeFor_of_failure (commonFailure_of_overflow (x := xf) ho),
      decodeFor_of_failure (commonFailure_of_overflow (x := xg) ho)]
  · rcases Nat.lt_or_ge x.n 5 with hn | hn
    · rw [decodeFor_of_failure (commonFailure_of_short (x := xf) ho hn),
        decodeFor_of_failure (commonFailure_of_short (x := xg) ho hn)]
    · have hcheck : commonFailure xf = commonFailure xg := by
        rw [commonFailure_of_good (x := xf) ho hn hf, commonFailure_of_good (x := xg) ho hn hg]
        simp only [xf, xg, h 1 (by decide) (by omega), h 2 (by decide) (by omega)]
      rw [decodeFor_eq_checked, decodeFor_eq_checked, checked, checked, hcheck, extract_congr h hn op]

end verdict

theorem byteAt_cons_append (u : Byte) (rest tail : List Byte) {k : Nat} (h : k < rest.length) :
    byteAt (u :: rest ++ tail) (k + 1) = byteAt rest k := by
  simp [byteAt, List.getD_eq_getElem?_getD, List.getElem?_append_left h]

/-- Settles O33: two sealed frames that differ in the unit identifier agree up to their checksums, and both are good. -/
theorem replyUnitNotExamined : Obligations.ReplyUnitNotExamined := by
  unfold Obligations.ReplyUnitNotExamined
  intro op x u u' rest hn
  refine decodeFor_congr (fun k h1 h2 => ?_) (crcCalc_sealed _) (crcCalc_sealed _) op
  obtain ⟨j, rfl⟩ := Nat.exists_eq_add_of_le' h1
  have hj : j < rest.length := by omega
  exact (byteAt_cons_append u rest _ hj).trans (byteAt_cons_append u' rest _ hj).symm

end Sys2Proof.Machine

/-! A whole reply: the verdict on a sealed frame, and the awaited reply that ends the operation (42_decode.md R174,
R180 to R190; 43_transaction.md R208 to R212). -/

namespace Sys2Proof.Machine

open Claims

/-! ### The verdict on a sealed frame -/

/-- What the decoder is given of the reply `f`, where it fits RXBUF whole. -/
def receivedWhole (p : Config.Params) (q : Latched) (f : List Byte) : Received :=
  { rxCap := p.rxCap, ovf := false, n := f.length, f := f, req := q }

theorem funcCode_toNat_le (op : Op) : (funcCode op).toNat ≤ 0x80 := by cases op <;> decide

/-- A sealed frame with at least one byte after the function byte is long enough for check 1. -/
theorem five_le_sealed_length (u f b : Byte) (body : List Byte) : 5 ≤ (sealed (u :: f :: b :: body)).length := by
  simp

/-- A sealed reply of the requested function passes the common checks (R171 to R175). -/
theorem decodeFor_sealed {op : Op} {q : Latched} (hf : q.func = funcCode op) (p : Config.Params) (u b : Byte)
    (body : List Byte) :
    decodeFor op (receivedWhole p q (sealed (u :: funcCode op :: b :: body)))
      = extract op (receivedWhole p q (sealed (u :: funcCode op :: b :: body))) :=
  decodeFor_of_passed (commonFailure_eq_none (x := receivedWhole p q (sealed (u :: funcCode op :: b :: body))) rfl
    (five_le_sealed_length u _ b body) (crcCalc_sealed _) (funcCode_toNat_le op) hf.symm) op

/-- A sealed reply with a function byte above 0x80 is a device exception, whatever was requested (R174). -/
theorem decodeFor_sealed_exception {f : Byte} (hf : 0x80 < f.toNat) (op : Op) (p : Config.Params) (q : Latched)
    (u code : Byte) (extra : List Byte) :
    decodeFor op (receivedWhole p q (sealed (u :: f :: code :: extra))) = .failed (.deviceException code) :=
  decodeFor_of_failure (commonFailure_of_exception (x := receivedWhole p q (sealed (u :: f :: code :: extra))) rfl
    (five_le_sealed_length u f code extra) (crcCalc_sealed _) hf) op

theorem byteAt_sealed_data (u f n : Byte) (d : List Byte) {k : Nat} (hk : k < d.length) :
    byteAt (sealed (u :: f :: n :: d)) (3 + k) = d.getD k 0 := by
  have h3 : 3 + k = k + 1 + 1 + 1 := by omega
  simp [h3, byteAt, sealed, List.getD_eq_getElem?_getD, List.getElem?_append_left hk]

/-- A bit reply with bytes enough gives the first bits of its data, whatever follows them (R180). -/
theorem decBits_sealed (u f : Byte) {n : Byte} {d : List Byte} {qty : Nat} (hn : bitBytes qty ≤ n.toNat)
    (hd : bitBytes qty ≤ d.length) :
    decBits (sealed (u :: f :: n :: d)) (sealed (u :: f :: n :: d)).length qty
      = .ok ((unpackBits d qty).map bitWord) := by
  have hlen : (sealed (u :: f :: n :: d)).length - 5 = d.length := by simp
  rw [decBits_of_enough hn (hd.trans_eq hlen.symm), unpackBits, List.map_map]
  refine congrArg Result.ok (List.map_congr_left fun i hi => ?_)
  have hi' := List.mem_range.1 hi
  unfold bitBytes at hd
  rw [byteAt_sealed_data u f n d (by omega)]
  rfl

/-- Entry `i` of register data is at bytes `2i` and `2i + 1`, high byte first, whatever follows the data (R104). -/
theorem be16_regBytes_append (r : List Word) (extra : List Byte) {i : Nat} (hi : i < r.length) :
    be16 ((regBytes r ++ extra).getD (2 * i) 0) ((regBytes r ++ extra).getD (2 * i + 1) 0) = r[i] := by
  induction r generalizing i with
  | nil => exact absurd hi (Nat.not_lt_zero i)
  | cons v r ih =>
    cases i with
    | zero => exact be16_hi_lo v
    | succ i => exact ih (Nat.lt_of_succ_lt_succ hi)

/-- A register reply with the byte count of its values gives the values, whatever follows them (R183). -/
theorem decRegs_sealed (u f : Byte) {n : Byte} {r : List Word} (hn : n.toNat = 2 * r.length) (extra : List Byte) :
    decRegs (sealed (u :: f :: n :: (regBytes r ++ extra))) (sealed (u :: f :: n :: (regBytes r ++ extra))).length
      r.length = .ok r := by
  have hdata : (regBytes r ++ extra).length = 2 * r.length + extra.length := by simp
  have hlen : 5 + 2 * r.length ≤ (sealed (u :: f :: n :: (regBytes r ++ extra))).length := by simp; omega
  refine (decRegs_of_enough (f := sealed (u :: f :: n :: (regBytes r ++ extra))) hn hlen).trans ?_
  refine congrArg Result.ok (List.ext_getElem (by simp) fun i _ hi => ?_)
  have hfour : 4 + 2 * i = 3 + (2 * i + 1) := by omega
  rw [List.getElem_map, List.getElem_range, hfour, byteAt_sealed_data u f n _ (by omega),
    byteAt_sealed_data u f n _ (by omega), be16_regBytes_append r extra hi]

/-- The body of an RSP_ECHO reply (R97). -/
def echoBody (u f : Byte) (a v : Word) : List Byte := u :: f :: (be16bytes a ++ be16bytes v)

/-- An echo is compared field by field with what was sent (R186). -/
theorem decEcho_sealed (u f : Byte) (a v a' b : Word) :
    decEcho (sealed (echoBody u f a v)) (sealed (echoBody u f a v)).length a' b
      = if a ≠ a' then .failed (.echo false a' a) else if v ≠ b then .failed (.echo true b v) else .ok [] := by
  have h := decEcho_eight (sealed (echoBody u f a v)) a' b
  have ha : be16 (byteAt (sealed (echoBody u f a v)) 2) (byteAt (sealed (echoBody u f a v)) 3) = a := be16_hi_lo a
  have hv : be16 (byteAt (sealed (echoBody u f a v)) 4) (byteAt (sealed (echoBody u f a v)) 5) = v := be16_hi_lo v
  rwa [ha, hv] at h

/-- The reply to `op` is an echo of the address and of the value or quantity sent, as for the four writes (R187 to
R190). -/
def IsEcho (op : Op) : Prop :=
  ∀ x : Received, extract op x = decEcho x.f x.n x.req.addr (quantityOrValue op x.req)

section verdicts

variable {op : Op} {q : Latched} (hf : q.func = funcCode op) (p : Config.Params) (u : Byte)
include hf

theorem decodeFor_bits (hop : op = .readCoils ∨ op = .readDiscreteInputs) {n : Byte} {d : List Byte}
    (hn : bitBytes q.count.toNat ≤ n.toNat) (hd : bitBytes q.count.toNat ≤ d.length) :
    decodeFor op (receivedWhole p q (sealed (u :: funcCode op :: n :: d)))
      = .ok ((unpackBits d q.count.toNat).map bitWord) := by
  rw [decodeFor_sealed hf]
  rcases hop with rfl | rfl <;> exact decBits_sealed u _ hn hd

theorem decodeFor_registers (hop : op = .readHoldingRegisters ∨ op = .readInputRegisters) {n : Byte} {r : List Word}
    (hq : q.count.toNat = r.length) (hn : n.toNat = 2 * r.length) (extra : List Byte) :
    decodeFor op (receivedWhole p q (sealed (u :: funcCode op :: n :: (regBytes r ++ extra)))) = .ok r := by
  have hregs := decRegs_sealed u (funcCode op) hn extra
  rw [← hq] at hregs
  rw [decodeFor_sealed hf]
  rcases hop with rfl | rfl <;> exact hregs

theorem decodeFor_echo (hop : IsEcho op) (a v : Word) :
    decodeFor op (receivedWhole p q (sealed (echoBody u (funcCode op) a v)))
      = if a ≠ q.addr then .failed (.echo false q.addr a)
        else if v ≠ quantityOrValue op q then .failed (.echo true (quantityOrValue op q) v) else .ok [] := by
  have h := decodeFor_sealed hf p u (hi a) (lo a :: be16bytes v)
  exact h.trans ((hop _).trans (decEcho_sealed u (funcCode op) a v q.addr (quantityOrValue op q)))

end verdicts

/-! ### What the decoder is given after a reception -/

/-- The decoder is given the very bytes received, where reception began with none and they fit (R33, R210). -/
theorem received_receiveBytes {f : List Byte} {s : State} (h0 : s.rxLen = 0) (ho : s.rxOvf = false)
    (hfit : fits s f.length) : received (receiveBytes f s) = receivedWhole s.cfg s.req f := by
  have hroom : ∀ c, s.cfg.rxCap = some c → s.rxLen + f.length ≤ c := by
    rw [h0, Nat.zero_add]; exact hfit
  have hovf : (receiveBytes f s).rxOvf = false := (receiveBytes_rxBuf f s hroom).2.trans ho
  simp [received, receivedWhole, storedReply_receiveBytes h0 hfit, hovf, h0]

/-! ### The awaited reply (R208 to R212) -/

/-- The state in which the decoder runs on the awaited reply `f`. -/
def replyAwaited (f : List Byte) (s : State) : State :=
  { receiveBytes f (readOn s) with ibt := 0, reading := false, phase := .decoding }

theorem deliverReply_awaited {f : List Byte} {s : State} (hl : Listening s f.length) (hne : f ≠ []) :
    deliverReply f s = decodeMove (replyAwaited f s) := by
  obtain ⟨hp, h0, -, hb, -⟩ := hl
  have hs : { s with line := { s.line with inBuf := [] } } = s := by rw [← hb]
  have hlen : (receiveBytes f (readOn s)).rxLen ≠ 0 := by simpa [h0] using hne
  have hstall : stall (receiveBytes f (readOn s)) = replyAwaited f s := if_neg hlen
  unfold deliverReply
  rw [if_pos hp, hs, hb, List.nil_append, hstall]
  exact if_pos rfl

theorem received_replyAwaited {f : List Byte} {s : State} (hl : Listening s f.length) :
    received (replyAwaited f s) = receivedWhole s.cfg s.req f := by
  obtain ⟨-, h0, ho, -, hfit⟩ := hl
  have hfit' : fits (readOn s) f.length := by unfold fits; rwa [readOn_cfg]
  have h := received_receiveBytes ((readOn_rxLen s).trans h0) ((readOn_rxOvf s).trans ho) hfit'
  rwa [readOn_cfg, readOn_req] at h

/-- The read that waits for the first byte is issued if none is outstanding (R208). -/
theorem readOn_out {s : State} (hp : s.phase = .awaitingReply) :
    (readOn s).out = s.out ++ (if s.reading then [] else [Output.readReq]) := by
  cases hr : s.reading with
  | true => rw [readOn_of_reading hr]; simp
  | false => rw [readOn_of_idle hp hr]; simp

/-- The awaited reply `f` has ended the operation with result `r`: from `s` to `t`. -/
structure EndsOnReply (s : State) (f : List Byte) (r : Result) (t : State) : Prop where
  res : t.res = resultGroup r
  phase : t.phase = .idle
  done : t.done = true
  rxLen : t.rxLen = f.length
  crc : t.crc = crcCalc f
  rbuf : t.rbuf = resultBuffer s.rbuf r
  out : t.out = s.out ++ (if s.reading then [] else [Output.readReq]) ++ List.replicate f.length Output.readReq ++
    [Output.ret r]

/-- An awaited reply long enough for the checks ends the operation with its verdict. -/
theorem deliverReply_ends {s : State} {op : Op} {f : List Byte} {r : Result} (hl : Listening s f.length)
    (hlen : 5 ≤ f.length) (hop : s.req.func = funcCode op) (hr : decodeFor op (receivedWhole s.cfg s.req f) = r)
    (hfit : ∀ data, r = .ok data → data.length ≤ Config.rCap) :
    ∃ t, deliverReply f s = .next t ∧ EndsOnReply s f r t := by
  have hrec := received_replyAwaited hl
  have hne : f ≠ [] := by rintro rfl; exact absurd hlen (by decide)
  have hreq : (replyAwaited f s).req = s.req := by simp [replyAwaited]
  have hdecode : decodeMove (replyAwaited f s) = .next (decodeEnd r (replyAwaited f s)) :=
    decodeMove_eq_decodeEnd (hreq ▸ hop) (hrec ▸ hr) hfit
  have hcrc : crcAfterDecode (received (replyAwaited f s)) (replyAwaited f s).crc = crcCalc f := by
    rw [hrec]; exact crcAfterDecode_of_reached rfl hlen _
  have ⟨hp, h0, _⟩ := hl
  refine ⟨_, (deliverReply_awaited hl hne).trans hdecode, rfl, rfl, rfl, ?_, hcrc, ?_, ?_⟩
  · simp [decodeEnd, replyAwaited, h0]
  · simp [decodeEnd, replyAwaited]
  · simp [decodeEnd, replyAwaited, readOn_out hp]

/-- The same of a sealed reply of the requested function. -/
theorem deliverReply_sealed_ends {s : State} {op : Op} {u f b : Byte} {body : List Byte} {r : Result}
    (hl : Listening s (5 + body.length)) (hop : s.req.func = funcCode op)
    (hr : decodeFor op (receivedWhole s.cfg s.req (sealed (u :: f :: b :: body))) = r)
    (hfit : ∀ data, r = .ok data → data.length ≤ Config.rCap) :
    ∃ t, deliverReply (sealed (u :: f :: b :: body)) s = .next t ∧
      EndsOnReply s (sealed (u :: f :: b :: body)) r t := by
  have hlen : (sealed (u :: f :: b :: body)).length = 5 + body.length := by simp; omega
  exact deliverReply_ends (hlen ▸ hl) (by omega) hop hr hfit

theorem okGroup_of_toNat_eq {q : Word} {n : Nat} (h : q.toNat = n) :
    okGroup n = { ResultGroup.zero with resLen := q } := by
  subst h
  simp [okGroup]

theorem crcCalc_sealed_eq_checksum (s : List Byte) : crcCalc (sealed s) = checksum s := crcCalc_append s _ _

/-- A bit reply, awaited, ends the read with its bits (R180, R211). -/
theorem deliverReply_bits {s : State} {op : Op} (hop : op = .readCoils ∨ op = .readDiscreteInputs)
    (hf : s.req.func = funcCode op) (u : Byte) {n : Byte} {d : List Byte} (hl : Listening s (5 + d.length))
    (hn : bitBytes s.req.count.toNat ≤ n.toNat) (hd : bitBytes s.req.count.toNat ≤ d.length)
    (hq : s.req.count ≤ 2000) :
    ∃ t, deliverReply (sealed (u :: funcCode op :: n :: d)) s = .next t ∧
      t.res = { ResultGroup.zero with resLen := s.req.count } ∧ t.phase = .idle ∧ t.done = true ∧
      t.rxLen = 5 + d.length ∧ t.crc = checksum (u :: funcCode op :: n :: d) ∧
      ∀ j < s.req.count.toNat, memGet t.rbuf j = some (bitWord (packedBit d j)) := by
  have hlen : ((unpackBits d s.req.count.toNat).map bitWord).length = s.req.count.toNat := by simp
  have hq' : s.req.count.toNat ≤ 2000 := hq
  obtain ⟨t, ht, he⟩ := deliverReply_sealed_ends hl hf (decodeFor_bits hf s.cfg u hop hn hd)
    fun data h => by cases h; exact hlen.trans_le hq'
  refine ⟨t, ht, he.res.trans (okGroup_of_toNat_eq hlen.symm), he.phase, he.done, he.rxLen.trans (by simp; omega),
    he.crc.trans (crcCalc_sealed_eq_checksum _), fun j hj => ?_⟩
  rw [he.rbuf, memGet_resultBuffer_ok _ _ (by omega)]
  simp [unpackBits, hj]

/-- Settles O42: both rows are the sealed frame delivered. -/
theorem bitRepliesComplete : Obligations.BitRepliesComplete := by
  unfold Obligations.BitRepliesComplete
  rintro s u n d crc hl hn hd hq rfl i f hi hf
  simp only [List.mem_cons, List.not_mem_nil, or_false, Prod.mk.injEq] at hi
  rcases hi with ⟨rfl, rfl⟩ | ⟨rfl, rfl⟩ <;> rw [hf]
  · exact deliverReply_bits (op := .readCoils) (.inl rfl) hf u hl hn hd hq
  · exact deliverReply_bits (op := .readDiscreteInputs) (.inr rfl) hf u hl hn hd hq

/-- A register reply, awaited, ends the read with its values (R183, R211). -/
theorem deliverReply_registers {s : State} {op : Op} (hop : op = .readHoldingRegisters ∨ op = .readInputRegisters)
    (hf : s.req.func = funcCode op) (u : Byte) {n : Byte} {r : List Word} {extra : List Byte}
    (hl : Listening s (5 + 2 * r.length + extra.length)) (hq : s.req.count.toNat = r.length)
    (hn : n.toNat = 2 * r.length) :
    ∃ t, deliverReply (sealed (u :: funcCode op :: n :: (regBytes r ++ extra))) s = .next t ∧
      t.res = { ResultGroup.zero with resLen := s.req.count } ∧ t.phase = .idle ∧ t.done = true ∧
      t.rxLen = 5 + 2 * r.length + extra.length ∧
      t.crc = checksum (u :: funcCode op :: n :: (regBytes r ++ extra)) ∧
      ∀ j < r.length, memGet t.rbuf j = r[j]? := by
  have hcap : Config.rCap = 2000 := rfl
  have hlen : 5 + (regBytes r ++ extra).length = 5 + 2 * r.length + extra.length := by simp; omega
  obtain ⟨t, ht, he⟩ := deliverReply_sealed_ends (hlen ▸ hl) hf (decodeFor_registers hf s.cfg u hop hq hn extra)
    fun data h => by cases h; omega
  refine ⟨t, ht, he.res.trans (okGroup_of_toNat_eq hq), he.phase, he.done, he.rxLen.trans (by simp; omega),
    he.crc.trans (crcCalc_sealed_eq_checksum _), fun j hj => ?_⟩
  rw [he.rbuf, memGet_resultBuffer_ok _ _ hj]

/-- Settles O43: both rows are the sealed frame delivered. -/
theorem registerRepliesComplete : Obligations.RegisterRepliesComplete := by
  unfold Obligations.RegisterRepliesComplete
  rintro s u n r extra crc hl hq hn rfl i f hi hf
  simp only [List.mem_cons, List.not_mem_nil, or_false, Prod.mk.injEq] at hi
  rcases hi with ⟨rfl, rfl⟩ | ⟨rfl, rfl⟩ <;> rw [hf, List.append_assoc]
  · exact deliverReply_registers (op := .readHoldingRegisters) (.inl rfl) hf u hl hq hn
  · exact deliverReply_registers (op := .readInputRegisters) (.inr rfl) hf u hl hq hn

/-- An echo, awaited, ends the write by the first field that differs, if one does (R186). -/
theorem deliverReply_echo {s : State} {op : Op} (hop : IsEcho op) (hf : s.req.func = funcCode op) (u : Byte)
    (a v : Word) (hl : Listening s 8) :
    let b := quantityOrValue op s.req
    ∃ t, deliverReply (sealed (echoBody u (funcCode op) a v)) s = .next t ∧ t.phase = .idle ∧ t.done = true ∧
      t.rxLen = 8 ∧ t.crc = checksum (echoBody u (funcCode op) a v) ∧
      t.res = (if a ≠ s.req.addr then
          { ResultGroup.zero with resKind := 3, fcKind := 6, exp := s.req.addr, got := a, misField := false }
        else if v ≠ b then
          { ResultGroup.zero with resKind := 3, fcKind := 6, exp := b, got := v, misField := true }
        else ResultGroup.zero) := by
  intro b
  have hfit : ∀ data, (if a ≠ s.req.addr then Result.failed (.echo false s.req.addr a)
      else if v ≠ b then .failed (.echo true b v) else .ok []) = .ok data → data.length ≤ Config.rCap := by
    intro data h
    rw [decEcho_ok ((decEcho_sealed u (funcCode op) a v s.req.addr b).trans h)]
    exact Nat.zero_le _
  obtain ⟨t, ht, he⟩ := deliverReply_ends (f := sealed (echoBody u (funcCode op) a v)) hl
    (five_le_sealed_length u (funcCode op) (hi a) (lo a :: be16bytes v)) hf
    (decodeFor_echo hf s.cfg u hop a v) hfit
  refine ⟨t, ht, he.phase, he.done, he.rxLen, he.crc.trans (crcCalc_sealed_eq_checksum _), he.res.trans ?_⟩
  rw [apply_ite resultGroup, apply_ite resultGroup]
  rfl

/-- Settles O44: the four rows are the sealed echo delivered; the second field is the value or the quantity. -/
theorem echoRepliesComplete : Obligations.EchoRepliesComplete := by
  unfold Obligations.EchoRepliesComplete
  rintro s u a v crc hl rfl i f b hi hf
  simp only [List.mem_cons, List.not_mem_nil, or_false, Prod.mk.injEq] at hi
  rcases hi with ⟨rfl, rfl, rfl⟩ | ⟨rfl, rfl, rfl⟩ | ⟨rfl, rfl, rfl⟩ | ⟨rfl, rfl, rfl⟩ <;> rw [hf]
  · exact deliverReply_echo (op := .writeSingleCoil) (fun _ => rfl) hf u a v hl
  · exact deliverReply_echo (op := .writeSingleRegister) (fun _ => rfl) hf u a v hl
  · exact deliverReply_echo (op := .writeMultipleCoils) (fun _ => rfl) hf u a v hl
  · exact deliverReply_echo (op := .writeMultipleRegisters) (fun _ => rfl) hf u a v hl

/-- Settles O45: the row is the sealed frame delivered, and its verdict does not depend on the request. -/
theorem exceptionReplyCompletes : Obligations.ExceptionReplyCompletes := by
  unfold Obligations.ExceptionReplyCompletes
  rintro s op u func code extra crc hl hop hfunc rfl
  have hhigh : 0x80 < (1#1 ++ func).toNat := (lt_exceptionByte_and_setWidth hfunc).1
  obtain ⟨t, ht, he⟩ := deliverReply_sealed_ends hl hop
    (decodeFor_sealed_exception hhigh op s.cfg s.req u code extra) nofun
  have hlen : (sealed (u :: (1#1 ++ func) :: code :: extra)).length = 5 + extra.length := by simp; omega
  exact ⟨t, ht, he.res, he.phase, he.done, he.rbuf, hlen ▸ he.out⟩

end Sys2Proof.Machine

/-! The public operations against a faithful reply, whole: the request sent, the answers read, and what the operation
ends with (42_decode.md R193, 43_transaction.md R221 to R228). -/

namespace Sys2Proof.Machine

open Claims

/-! ### The transaction against a reply that fits (R214) -/

theorem callOperation_idle {s : State} (hi : s.phase = .idle) (op : Op) (load : State → State) :
    callOperation op load s = transact op (load s) := by
  unfold callOperation
  rw [busy_eq_false_iff.2 hi]
  rfl

/-- Of a stall the decoder sees nothing. -/
theorem received_stalled (s : State) (xs : List Input) :
    received { s with ibt := 0, reading := false, phase := .decoding, inputs := xs } = received s := rfl

theorem received_replyReceived {f : List Byte} {s : State} (hfit : fits s f.length) (op : Op) (rest : List Input) :
    received (replyReceived op f rest s) = receivedWhole s.cfg (latched op s) f := by
  let sent := sendRequest (latchAndEncode op (clearDone s))
  have hcfg : sent.cfg = s.cfg := by simp [sent]
  have hreq : sent.req = latched op s := by simp [sent]
  have hfit' : fits sent f.length := by unfold fits; rwa [hcfg]
  have h := received_receiveBytes (sendRequest_rxLen _) (sendRequest_rxOvf _) hfit'
  rw [hcfg, hreq] at h
  exact (received_stalled (receiveBytes f sent) rest).trans h

/-- What has been emitted where, after `es`, a transaction sends the request `g`, makes `k` reads and ends with result
`r` (R205 to R211). -/
def transcript (es : List Output) (g : List Byte) (k : Nat) (r : Result) : List Output :=
  es ++ [Output.discardIn, Output.discardOut, Output.write g] ++ List.replicate k Output.readReq ++ [Output.ret r]

/-- From `s` to `t` a transaction has sent the request `g`, was answered by `n` bytes and ended with result `r`; `rest`
is still to come. -/
structure EndsTransaction (s : State) (g : List Byte) (n : Nat) (rest : List Input) (r : Result) (t : State) :
    Prop where
  res : t.res = resultGroup r
  phase : t.phase = .idle
  done : t.done = true
  inputs : t.inputs = rest
  rbuf : t.rbuf = resultBuffer s.rbuf r
  out : t.out = transcript s.out g (n + 1) r

/-- The register writes of a call emit nothing and leave RBUF (R125). -/
theorem EndsTransaction.of_loaded {s s' t : State} {g : List Byte} {n : Nat} {rest : List Input} {r : Result}
    (h : EndsTransaction s' g n rest r t) (hrbuf : s'.rbuf = s.rbuf) (hout : s'.out = s.out) :
    EndsTransaction s g n rest r t :=
  { h with rbuf := hrbuf ▸ h.rbuf, out := hout ▸ h.out }

theorem sealed_ne_nil (s : List Byte) : sealed s ≠ [] := by simp [sealed, checksumBytes, le16bytes]

/-- What is emitted up to the decode: the discards, the request, and a read for each answer (R205 to R208). -/
theorem replyReceived_out {op : Op} {s : State} (hv : violatedBound s.cfg op (countOperand s) = none) (f : List Byte)
    (rest : List Input) :
    (replyReceived op f rest s).out
      = s.out ++ [Output.discardIn, Output.discardOut, Output.write (operandFrame op s)] ++
        List.replicate (f.length + 1) Output.readReq := by
  have hframe : requestFrame (latchAndEncode op (clearDone s)) = operandFrame op s :=
    (requestFrame_latchAndEncode (s := clearDone s) hv).1
  have hsent : (sendRequest (latchAndEncode op (clearDone s))).out
      = s.out ++ [Output.discardIn, Output.discardOut, Output.write (operandFrame op s), Output.readReq] := by
    rw [sendRequest_out, hframe]; rfl
  show (receiveBytes f (sendRequest (latchAndEncode op (clearDone s)))).out = _
  rw [receiveBytes_out, hsent, List.replicate_succ]
  simp

/-- An admitted transaction against a reply that fits ends with the reply's verdict (R214). -/
theorem transact_ends {op : Op} {s : State} {f : List Byte} {rest : List Input} {r : Result} (hne : f ≠ [])
    (hfit : fits s f.length) (hf : funcOperand s = funcCode op)
    (hv : violatedBound s.cfg op (countOperand s) = none) (hin : s.inputs = answers f ++ rest)
    (hr : decodeFor op (receivedWhole s.cfg (latched op s) f) = r)
    (hlen : ∀ data, r = .ok data → data.length ≤ Config.rCap) :
    ∃ t, transact op s = .next t ∧ EndsTransaction s (operandFrame op s) f.length rest r t := by
  have hin' : s.inputs = f.map (fun b => Input.answer (.byte b)) ++ Input.answer .timeout :: rest := by
    simp [hin, answers]
  have hreq : (replyReceived op f rest s).req = latched op s := by simp [replyReceived]
  have hdecode : decodeMove (replyReceived op f rest s) = .next (decodeEnd r (replyReceived op f rest s)) :=
    decodeMove_eq_decodeEnd (hreq ▸ hf) (received_replyReceived hfit op rest ▸ hr) hlen
  refine ⟨_, (transact_answers hne hv hin').trans hdecode, rfl, rfl, rfl, rfl, ?_, ?_⟩
  · simp [decodeEnd, replyReceived]
  · exact congrArg (· ++ [Output.ret r]) (replyReceived_out hv f rest)

/-- A quantity within its ceiling and not below the floor is admitted (R202). -/
theorem violatedBound_ofNat_eq_none {p : Config.Params} {op : Op} {n max : Nat}
    (hc : ceiling op = some (BitVec.ofNat 16 max)) (hmax : max ≤ 65535) (hn : n ≤ max)
    (hfloor : p.qtyFloor.toNat ≤ n) : violatedBound p op (BitVec.ofNat 16 n) = none := by
  rw [violatedBound_eq_none_iff hc, BitVec.le_def, BitVec.le_def, BitVec.toNat_ofNat, BitVec.toNat_ofNat,
    Nat.mod_eq_of_lt (by omega), Nat.mod_eq_of_lt (by omega)]
  exact ⟨hn, hfloor⟩

/-! ### The reads (R193 item 1) -/

/-- An admitted read's call against a reply that gives it `data`. -/
theorem callRead_ends {op : Op} {s : State} (hi : s.phase = .idle) (u : Byte) (a : Word) {q : Word} {f : List Byte}
    {data : List Word} (rest : List Input) (hne : f ≠ []) (hfit : fits s f.length)
    (hv : violatedBound s.cfg op q = none) (hlen : data.length ≤ Config.rCap)
    (hr : ∀ r : Latched, r.func = funcCode op → r.count = q →
      decodeFor op (receivedWhole s.cfg r f) = .ok data) :
    ∃ t, callOperation op (loadRead op u a q) (withInputs (answers f ++ rest) s) = .next t ∧
      EndsTransaction s (operandFrame op (loadRead op u a q s)) f.length rest (.ok data) t := by
  have hcall := callOperation_idle (s := withInputs (answers f ++ rest) s) hi op (loadRead op u a q)
  obtain ⟨t, ht, he⟩ := transact_ends (s := loadRead op u a q (withInputs (answers f ++ rest) s)) hne hfit rfl hv
    rfl (hr _ rfl rfl) fun _ h => by cases h; exact hlen
  exact ⟨t, hcall.trans ht, he.of_loaded rfl rfl⟩

/-- A bit read, whole: its packed bits come back as the entries of the result (R221, R222). -/
theorem callRead_bits {op : Op} (hop : op = .readCoils ∨ op = .readDiscreteInputs) {s : State} (hi : s.phase = .idle)
    (u u' : Byte) (a : Word) {c : List Bool} (rest : List Input) (hlen : c.length ≤ 2000)
    (hfloor : s.cfg.qtyFloor.toNat ≤ c.length) (hfit : fits s (5 + bitBytes c.length)) :
    ∃ t, callOperation op (loadRead op u a (BitVec.ofNat 16 c.length)) (withInputs (answers
          (sealed (u' :: funcCode op :: BitVec.ofNat 8 (bitBytes c.length) :: packBits c)) ++ rest) s) = .next t ∧
      t.res = { ResultGroup.zero with resLen := BitVec.ofNat 16 c.length } ∧ t.phase = .idle ∧ t.done = true ∧
      t.inputs = rest ∧ (∀ j < c.length, memGet t.rbuf j = some (bitWord (c.getD j false))) ∧
      t.out = transcript s.out (sealed ([u, funcCode op] ++ be16bytes a ++ be16bytes (BitVec.ofNat 16 c.length)))
        (6 + bitBytes c.length) (.ok (c.map bitWord)) := by
  have hceil : ceiling op = some 2000 := by rcases hop with rfl | rfl <;> rfl
  have hsent : operandFrame op (loadRead op u a (BitVec.ofNat 16 c.length) s)
      = sealed ([u, funcCode op] ++ be16bytes a ++ be16bytes (BitVec.ofNat 16 c.length)) := by
    rcases hop with rfl | rfl <;> rfl
  have hcount : (BitVec.ofNat 16 c.length).toNat = c.length := toNat_ofNat_length (by omega)
  have hbytes : bitBytes c.length ≤ 250 := by unfold bitBytes; omega
  have hbyte : (BitVec.ofNat 8 (bitBytes c.length)).toNat = bitBytes c.length := Nat.mod_eq_of_lt (by omega)
  have hframe : (sealed (u' :: funcCode op :: BitVec.ofNat 8 (bitBytes c.length) :: packBits c)).length
      = 5 + bitBytes c.length := by simp; omega
  have hmap : (c.map bitWord).length = c.length := List.length_map _
  obtain ⟨t, ht, he⟩ := callRead_ends hi u a rest (sealed_ne_nil _) (hframe ▸ hfit)
    (violatedBound_ofNat_eq_none hceil (by decide) hlen hfloor) (hmap.trans_le hlen) fun r hf hq => by
      have hbits := decodeFor_bits hf s.cfg u' hop (n := BitVec.ofNat 8 (bitBytes c.length)) (d := packBits c)
      rw [hq, hcount, hbyte, packBits_length, unpackBits_packBits] at hbits
      exact hbits le_rfl le_rfl
  refine ⟨t, ht, he.res.trans ?_, he.phase, he.done, he.inputs, fun j hj => ?_, ?_⟩
  · exact okGroup_of_toNat_eq (hcount.trans hmap.symm)
  · rw [he.rbuf, memGet_resultBuffer_ok _ _ (by omega)]
    simp [hj]
  · rw [he.out, hsent, hframe, Nat.add_right_comm 5]

/-- Settles O36: the two reads differ in the function code only. -/
theorem bitReadRoundTrip : Obligations.BitReadRoundTrip := by
  unfold Obligations.BitReadRoundTrip
  intro s u u' a c rest hi hlen hfloor hfit i f h
  simp only [List.mem_cons, List.not_mem_nil, or_false, Prod.mk.injEq] at h
  rcases h with ⟨rfl, rfl⟩ | ⟨rfl, rfl⟩
  · exact callRead_bits (op := .readCoils) (.inl rfl) hi u u' a rest hlen hfloor hfit
  · exact callRead_bits (op := .readDiscreteInputs) (.inr rfl) hi u u' a rest hlen hfloor hfit

/-- A register read, whole: its values come back as the entries of the result (R223, R224). -/
theorem callRead_registers {op : Op} (hop : op = .readHoldingRegisters ∨ op = .readInputRegisters) {s : State}
    (hi : s.phase = .idle) (u u' : Byte) (a : Word) {r : List Word} (rest : List Input) (hlen : r.length ≤ 125)
    (hfloor : s.cfg.qtyFloor.toNat ≤ r.length) (hfit : fits s (5 + 2 * r.length)) :
    ∃ t, callOperation op (loadRead op u a (BitVec.ofNat 16 r.length)) (withInputs (answers
          (sealed (u' :: funcCode op :: BitVec.ofNat 8 (2 * r.length) :: regBytes r)) ++ rest) s) = .next t ∧
      t.res = { ResultGroup.zero with resLen := BitVec.ofNat 16 r.length } ∧ t.phase = .idle ∧ t.done = true ∧
      t.inputs = rest ∧ (∀ j < r.length, memGet t.rbuf j = r[j]?) ∧
      t.out = transcript s.out (sealed ([u, funcCode op] ++ be16bytes a ++ be16bytes (BitVec.ofNat 16 r.length)))
        (6 + 2 * r.length) (.ok r) := by
  have hceil : ceiling op = some 125 := by rcases hop with rfl | rfl <;> rfl
  have hsent : operandFrame op (loadRead op u a (BitVec.ofNat 16 r.length) s)
      = sealed ([u, funcCode op] ++ be16bytes a ++ be16bytes (BitVec.ofNat 16 r.length)) := by
    rcases hop with rfl | rfl <;> rfl
  have hcount : (BitVec.ofNat 16 r.length).toNat = r.length := toNat_ofNat_length (by omega)
  have hbyte : (BitVec.ofNat 8 (2 * r.length)).toNat = 2 * r.length := Nat.mod_eq_of_lt (by omega)
  have hframe : (sealed (u' :: funcCode op :: BitVec.ofNat 8 (2 * r.length) :: regBytes r)).length
      = 5 + 2 * r.length := by simp; omega
  obtain ⟨t, ht, he⟩ := callRead_ends hi u a rest (sealed_ne_nil _) (hframe ▸ hfit)
    (violatedBound_ofNat_eq_none hceil (by decide) hlen hfloor) (hlen.trans (by decide)) fun q hf hq => by
      have hregs := decodeFor_registers hf s.cfg u' hop (hq ▸ hcount) hbyte []
      rwa [List.append_nil] at hregs
  refine ⟨t, ht, he.res.trans (okGroup_of_toNat_eq hcount), he.phase, he.done, he.inputs, fun j hj => ?_, ?_⟩
  · rw [he.rbuf, memGet_resultBuffer_ok _ _ hj]
  · rw [he.out, hsent, hframe, Nat.add_right_comm 5]

/-- Settles O37: the two reads differ in the function code only. -/
theorem registerReadRoundTrip : Obligations.RegisterReadRoundTrip := by
  unfold Obligations.RegisterReadRoundTrip
  intro s u u' a r rest hi hlen hfloor hfit i f h
  simp only [List.mem_cons, List.not_mem_nil, or_false, Prod.mk.injEq] at h
  rcases h with ⟨rfl, rfl⟩ | ⟨rfl, rfl⟩
  · exact callRead_registers (op := .readHoldingRegisters) (.inl rfl) hi u u' a rest hlen hfloor hfit
  · exact callRead_registers (op := .readInputRegisters) (.inr rfl) hi u u' a rest hlen hfloor hfit

/-! ### The writes (R193 items 1 and 2) -/

/-- A write whose registers are loaded, against the echo of what it sends. -/
theorem transact_echoed {op : Op} (hop : IsEcho op) {s : State} (u' : Byte) {a b : Word} {rest : List Input}
    (hf : funcOperand s = funcCode op) (ha : (latched op s).addr = a) (hb : quantityOrValue op (latched op s) = b)
    (hfit : fits s 8) (hv : violatedBound s.cfg op (countOperand s) = none)
    (hin : s.inputs = answers (sealed (echoBody u' (funcCode op) a b)) ++ rest) :
    ∃ t, transact op s = .next t ∧ EndsTransaction s (operandFrame op s) 8 rest (.ok []) t := by
  have hr := decodeFor_echo (q := latched op s) hf s.cfg u' hop a b
  rw [ha, hb, if_neg (not_not_intro rfl), if_neg (not_not_intro rfl)] at hr
  exact transact_ends (f := sealed (echoBody u' (funcCode op) a b)) (sealed_ne_nil _) hfit hf hv hin hr
    fun data h => by cases h; exact Nat.zero_le _

section writes

variable {s : State} (hi : s.phase = .idle) (u u' : Byte) (a : Word) (rest : List Input) (hfit : fits s 8)
include hi hfit

theorem callSingle_echoed {op : Op} (hop : IsEcho op) (hc : ceiling op = none) {v b : Word}
    (hb : ∀ s' : State, quantityOrValue op (latched op (loadSingle op u a v s')) = b) :
    ∃ t, callOperation op (loadSingle op u a v)
        (withInputs (answers (sealed (echoBody u' (funcCode op) a b)) ++ rest) s) = .next t ∧
      EndsTransaction s (operandFrame op (loadSingle op u a v s)) 8 rest (.ok []) t := by
  let s' := withInputs (answers (sealed (echoBody u' (funcCode op) a b)) ++ rest) s
  have hcall := callOperation_idle (s := s') hi op (loadSingle op u a v)
  obtain ⟨t, ht, he⟩ := transact_echoed (s := loadSingle op u a v s') hop u' rfl rfl (hb s') hfit
    (violatedBound_of_within fun c hc' => nomatch hc.symm.trans hc') rfl
  exact ⟨t, hcall.trans ht, he.of_loaded rfl rfl⟩

theorem callMultiple_echoed {op : Op} (hop : IsEcho op) {max : Nat} (hc : ceiling op = some (BitVec.ofNat 16 max))
    (hmax : max ≤ Config.vCap) {values : List Word} (hlen : values.length ≤ max)
    (hfloor : s.cfg.qtyFloor.toNat ≤ values.length)
    (hb : ∀ s' : State, quantityOrValue op (latched op (loadMultiple op u a values s'))
      = BitVec.ofNat 16 values.length) :
    ∃ t, callMultiple op u a values (withInputs
        (answers (sealed (echoBody u' (funcCode op) a (BitVec.ofNat 16 values.length))) ++ rest) s) = .next t ∧
      EndsTransaction s (operandFrame op (loadMultiple op u a values s)) 8 rest (.ok []) t := by
  let s' := withInputs (answers (sealed (echoBody u' (funcCode op) a (BitVec.ofNat 16 values.length))) ++ rest) s
  have hcap : Config.vCap = 1968 := rfl
  have hcall : callMultiple op u a values s' = transact op (loadMultiple op u a values s') :=
    (if_neg (by omega)).trans (callOperation_idle (s := s') hi op _)
  obtain ⟨t, ht, he⟩ := transact_echoed (s := loadMultiple op u a values s') hop u' rfl rfl (hb s') hfit
    (violatedBound_ofNat_eq_none hc (by omega) hlen hfloor) rfl
  exact ⟨t, hcall.trans ht, he.of_loaded rfl rfl⟩

theorem writeSingleCoil_echoed (on : Bool) :
    ∃ t, execWriteSingleCoil u a on (withInputs (answers (sealed (echoBody u' 0x05 a (coilWord on))) ++ rest) s)
        = .next t ∧
      EndsTransaction s (sealed (bodyWriteSingleCoil u a (coilWord on))) 8 rest (.ok []) t := by
  have hwire : wireValue .writeSingleCoil (bitWord on) = coilWord on := by cases on <;> rfl
  rw [← operandFrame_loadSingle_coil u a on s]
  exact callSingle_echoed (op := .writeSingleCoil) (v := bitWord on) hi u u' a rest hfit (fun _ => rfl) rfl
    fun _ => hwire

theorem writeMultipleCoils_echoed {bits : List Bool} (hlen : bits.length ≤ 1968)
    (hfloor : s.cfg.qtyFloor.toNat ≤ bits.length) :
    ∃ t, execWriteMultipleCoils u a bits (withInputs
        (answers (sealed (echoBody u' 0x0F a (BitVec.ofNat 16 bits.length))) ++ rest) s) = .next t ∧
      EndsTransaction s (sealed (bodyWriteMultipleCoils u a (BitVec.ofNat 16 bits.length) bits)) 8 rest (.ok []) t := by
  have hmap : (bits.map bitWord).length = bits.length := List.length_map _
  have h := callMultiple_echoed (op := .writeMultipleCoils) (max := 1968) (values := bits.map bitWord) hi u u' a rest
    hfit (fun _ => rfl) rfl (by decide) (by omega) (by omega) fun _ => rfl
  rwa [operandFrame_loadMultiple_coils u a hlen, hmap] at h

theorem writeMultipleRegisters_echoed {words : List Word} (hlen : words.length ≤ 123)
    (hfloor : s.cfg.qtyFloor.toNat ≤ words.length) :
    ∃ t, execWriteMultipleRegisters u a words (withInputs
        (answers (sealed (echoBody u' 0x10 a (BitVec.ofNat 16 words.length))) ++ rest) s) = .next t ∧
      EndsTransaction s (sealed (bodyWriteMultipleRegisters u a (BitVec.ofNat 16 words.length) words)) 8 rest
        (.ok []) t := by
  have h := callMultiple_echoed (op := .writeMultipleRegisters) (max := 123) (values := words) hi u u' a rest
    hfit (fun _ => rfl) rfl (by decide) hlen hfloor fun _ => rfl
  rwa [operandFrame_loadMultiple_registers u a (hlen.trans (by decide))] at h

end writes

/-- A write's call that sends its own frame and is answered by its echo. -/
theorem exists_frame_of_echoed {i : Instr} {g : List Byte} {s s' : State} {rest : List Input} (hg : encode i = .call g)
    (h : ∃ t, exec i s' = .next t ∧ EndsTransaction s g 8 rest (.ok []) t) :
    ∃ t g, exec i s' = .next t ∧ t.res = ResultGroup.zero ∧ t.phase = .idle ∧ t.done = true ∧
      t.inputs = rest ∧ t.rbuf = s.rbuf ∧ encode i = .call g ∧
      t.out = transcript s.out g 9 (.ok []) := by
  obtain ⟨t, ht, he⟩ := h
  exact ⟨t, g, ht, he.res, he.phase, he.done, he.inputs, he.rbuf, hg, he.out⟩

/-- Settles O38: what each write sends is its own frame, and what comes back its own address and value or quantity. -/
theorem writeRoundTrip : Obligations.WriteRoundTrip := by
  unfold Obligations.WriteRoundTrip
  intro s u u' a v on bits words rest hi hbits hwords hbfloor hwfloor hfit i f b h
  simp only [List.mem_cons, List.not_mem_nil, or_false, Prod.mk.injEq] at h
  rcases h with ⟨rfl, rfl, rfl⟩ | ⟨rfl, rfl, rfl⟩ | ⟨rfl, rfl, rfl⟩ | ⟨rfl, rfl, rfl⟩
  · exact exists_frame_of_echoed rfl (writeSingleCoil_echoed hi u u' a rest hfit on)
  · exact exists_frame_of_echoed rfl (callSingle_echoed (op := .writeSingleRegister) (v := b) (b := b) hi u u' a rest
      hfit (fun _ => rfl) rfl fun _ => rfl)
  · exact exists_frame_of_echoed rfl (writeMultipleCoils_echoed hi u u' a rest hfit hbits hbfloor)
  · exact exists_frame_of_echoed rfl (writeMultipleRegisters_echoed hi u u' a rest hfit hwords hwfloor)

end Sys2Proof.Machine

/-! The two faults of the machine belong to the decode move, and in a state of the invariant the decode move ends in
neither (42_decode.md R177, 20_memory.md R62). -/

namespace Sys2Proof.Machine

open Safety

/-- The event does not end in a fault. -/
def Faultless (o : Outcome) : Prop := ∀ e, o ≠ .fault e

theorem faultless_next (t : State) : Faultless (.next t) := nofun

theorem faultless_refused (r : Refusal) : Faultless (.refused r) := nofun

theorem faultless_ite {c : Prop} [Decidable c] {o o' : Outcome} (h : c → Faultless o) (h' : ¬c → Faultless o') :
    Faultless (if c then o else o') := by
  split
  · exact h ‹c›
  · exact h' ‹¬c›

theorem faultless_whenIdle (r : Refusal) (s t : State) : Faultless (whenIdle r s t) :=
  faultless_ite (fun _ => faultless_refused r) fun _ => faultless_next t

theorem faultless_startOperation (s : State) : Faultless (startOperation s) := by
  refine faultless_ite (fun _ => faultless_refused _) fun _ => ?_
  split
  · exact faultless_refused _
  · exact faultless_next _

/-! ### Register accesses (R40) -/

theorem faultless_hostWrite (reg : Word) (d : HostWord) (s : State) : Faultless (hostWrite reg d s) := by
  unfold hostWrite
  split
  case h_7 => exact faultless_ite (fun _ => faultless_startOperation s) fun _ => faultless_next s
  case h_2 | h_3 | h_4 | h_5 | h_6 | h_8 | h_9 | h_10 | h_11 => exact faultless_whenIdle _ _ _
  all_goals exact faultless_refused _

theorem faultless_hostRead (reg : Word) (s : State) : Faultless (hostRead reg s) := by
  unfold hostRead
  split
  case h_1 | h_20 | h_21 => exact faultless_refused _
  case h_22 => exact faultless_whenIdle _ _ _
  all_goals exact faultless_next _

/-! ### What leads to the decode move -/

section invariant

variable {s : State} (h : Inv s)
include h

/-- The latched request is admitted, so the decoder has an extraction and its data fit RBUF. -/
theorem faultless_decodeMove (hp : s.phase = .decoding) : Faultless (decodeMove s) := by
  obtain ⟨op, hop, hceiling⟩ := h.request (by rw [hp]; nofun)
  rw [decodeMove_completes hop hceiling]
  exact faultless_next _

theorem faultless_afterAwait : Faultless (afterAwait s) :=
  faultless_ite (faultless_decodeMove h) fun _ => faultless_next s

theorem faultless_deliverReply (f : List Byte) : Faultless (deliverReply f s) := by
  refine faultless_ite (fun hp => ?_) fun _ => faultless_next _
  have k := stepKeeps_inv
  have hread : (readOn { s with line := { s.line with inBuf := [] } }).phase = .awaitingReply := by
    rw [readOn_phase]; exact hp
  have hstall := k.stall _ (by rw [receiveBytes_phase]; exact hread)
    (k.toLineKeeps.receiveBytes (s.line.inBuf ++ f) hread (k.toLineKeeps.readOn (k.line s _ h)))
  exact faultless_ite (faultless_decodeMove hstall) fun _ => faultless_next _

theorem faultless_transact {op : Op} (hi : s.phase = .idle) (hop : opOfCode (funcOperand s) = some op) :
    Faultless (transact op s) := by
  have haccept := stepKeeps_inv.accept s op hi hop h
  refine faultless_ite (fun hsend => ?_) fun _ => faultless_next _
  exact faultless_afterAwait
    (stepKeeps_inv.toLineKeeps.awaitReply _ (stepKeeps_inv.sendRequest hsend haccept))

/-! ### The calls and the replies -/

omit h in
theorem faultless_callOperation {op : Op} {load : State → State}
    (hl : s.phase = .idle → (load s).phase = .idle ∧ opOfCode (funcOperand (load s)) = some op ∧ Inv (load s)) :
    Faultless (callOperation op load s) := by
  refine faultless_ite (fun _ => faultless_refused _) fun hb => ?_
  obtain ⟨hi, hop, hinv⟩ := hl (busy_eq_false_iff.1 (by simpa using hb))
  exact faultless_transact hinv hi hop

theorem faultless_callRead (op : Op) (u : Byte) (a q : Word) :
    Faultless (callOperation op (loadRead op u a q) s) :=
  faultless_callOperation fun hi => ⟨hi, by simp, stepKeeps_inv.operands s _ _ hi h⟩

theorem faultless_callSingle (op : Op) (u : Byte) (a v : Word) :
    Faultless (callOperation op (loadSingle op u a v) s) :=
  faultless_callOperation fun hi => ⟨hi, by simp, stepKeeps_inv.operands s _ _ hi h⟩

theorem faultless_callMultiple (op : Op) (u : Byte) (a : Word) (values : List Word) :
    Faultless (callMultiple op u a values s) :=
  faultless_ite (fun _ => faultless_next _) fun _ => faultless_callOperation fun hi =>
    ⟨hi, by simp, stepKeeps_inv.values _ values hi (stepKeeps_inv.operands s _ _ hi h)⟩

theorem faultless_exec (i : Instr) : Faultless (exec i s) := by
  cases i with
  | readCoils u a q => exact faultless_callRead h _ u a q
  | readDiscreteInputs u a q => exact faultless_callRead h _ u a q
  | readHoldingRegisters u a q => exact faultless_callRead h _ u a q
  | readInputRegisters u a q => exact faultless_callRead h _ u a q
  | writeSingleCoil u a on => exact faultless_callSingle h _ u a _
  | writeSingleRegister u a v => exact faultless_callSingle h _ u a v
  | writeMultipleCoils u a vs => exact faultless_callMultiple h _ u a _
  | writeMultipleRegisters u a vs => exact faultless_callMultiple h _ u a vs
  | readCoilsReply u n d c => exact faultless_deliverReply h _
  | readDiscreteInputsReply u n d c => exact faultless_deliverReply h _
  | readHoldingRegistersReply u n d c => exact faultless_deliverReply h _
  | readInputRegistersReply u n d c => exact faultless_deliverReply h _
  | writeSingleCoilReply u a v c => exact faultless_deliverReply h _
  | writeSingleRegisterReply u a v c => exact faultless_deliverReply h _
  | writeMultipleCoilsReply u a q c => exact faultless_deliverReply h _
  | writeMultipleRegistersReply u a q c => exact faultless_deliverReply h _
  | exceptionReply u f e x c => exact faultless_deliverReply h _
  | crcSeed => exact faultless_whenIdle _ _ _
  | crcByte b => exact faultless_whenIdle _ _ _
  | crcRead => exact faultless_whenIdle _ _ _
  | setTimeout v => exact faultless_whenIdle _ _ _
  | start go => exact faultless_ite (fun _ => faultless_startOperation s) fun _ => faultless_next s

theorem faultless_consumePacket (p : Packet) : Faultless (consumePacket p s) := by
  unfold consumePacket
  split
  · exact faultless_exec h _
  · unfold unlisted
    split
    · exact faultless_hostWrite _ _ _
    · exact faultless_hostRead _ _
    · exact faultless_deliverReply h _
    · split
      · exact faultless_refused _
      · exact faultless_next _

/-! ### The step -/

theorem faultless_ownMove {o : Outcome} (ho : ownMove s = some o) : Faultless o := by
  rcases ownMove_cases ho with ⟨-, rfl⟩ | ⟨-, -, rfl⟩ | ⟨-, -, -, rfl⟩ | ⟨hp, rfl⟩ | ⟨-, rfl⟩
  case inr.inr.inr.inl => exact faultless_decodeMove h hp
  all_goals exact faultless_next _

theorem faultless_consume (x : Input) : Faultless (consume x s) := by
  unfold consume
  split
  case h_1 | h_2 => exact faultless_consumePacket h _
  case h_3 =>
    cases ho : ownMove s with
    | none => exact faultless_next s
    | some o => exact faultless_ownMove h ho
  case h_4 | h_5 => exact faultless_ite (fun _ => faultless_next _) fun _ => faultless_refused _
  all_goals exact faultless_next _

end invariant

/-- Settles O60: a step is a move of the block's own, an event consumed, or an endless answer. -/
theorem invariantExcludesFaults : Obligations.InvariantExcludesFaults := by
  unfold Obligations.InvariantExcludesFaults
  intro s h
  show Faultless (step s)
  rcases step_cases (s := s) with ⟨-, o, ho, hs⟩ | ⟨x, rest, -, hs, -⟩ | ⟨-, -, hs⟩ <;> rw [hs]
  · exact faultless_ownMove h ho
  · exact faultless_consume (stepKeeps_inv.inputs s rest h) x
  · exact faultless_next _

end Sys2Proof.Machine

/-! The Transaction Coordinator one event a step: the transitions of STATE, the sending of the request, and the answers
of the Line (43_transaction.md R200, R205 to R209). -/

namespace Sys2Proof.Machine

open Safety Claims

/-! ### The transitions of STATE (R200) -/

/-- The changes of STATE that R200 names; that out of Failed is log entry 18. -/
def phaseArrows : List (Phase × Phase) :=
  [(.idle, .sending), (.sending, .awaitingReply), (.awaitingReply, .decoding), (.awaitingReply, .idle),
    (.decoding, .idle), (.failed, .idle)]

/-- From `s` to `t` STATE has stayed or gone one of the ways of R200, and at most one event was emitted (R7). -/
def Transition (s t : State) : Prop :=
  (t.phase = s.phase ∨ (s.phase, t.phase) ∈ phaseArrows) ∧ ∃ es, t.out = s.out ++ es ∧ es.length ≤ 1

namespace Transition

variable {s t : State}

/-- Neither STATE nor what has been emitted changes. -/
theorem quiet (hp : t.phase = s.phase) (ht : t.out = s.out) : Transition s t :=
  ⟨.inl hp, [], ht.trans (List.append_nil _).symm, Nat.zero_le 1⟩

/-- One event, and STATE stays. -/
theorem emits (hp : t.phase = s.phase) {e : Output} (ht : t.out = s.out ++ [e]) : Transition s t :=
  ⟨.inl hp, [e], ht, le_rfl⟩

/-- STATE changes, and nothing is emitted. -/
theorem turns {p q : Phase} (hs : s.phase = p) (hq : t.phase = q) (ht : t.out = s.out) (h : (p, q) ∈ phaseArrows) :
    Transition s t :=
  ⟨.inr (hs ▸ hq ▸ h), [], ht.trans (List.append_nil _).symm, Nat.zero_le 1⟩

/-- STATE changes with one event. -/
theorem turnsEmitting {p q : Phase} (hs : s.phase = p) (hq : t.phase = q) {e : Output} (ht : t.out = s.out ++ [e])
    (h : (p, q) ∈ phaseArrows) : Transition s t :=
  ⟨.inr (hs ▸ hq ▸ h), [e], ht, le_rfl⟩

end Transition

theorem transition_stall {s : State} (hp : s.phase = .awaitingReply) : Transition s (stall s) := by
  rcases stall_cases s with ⟨-, e⟩ | ⟨-, e⟩ <;> rw [e]
  · exact .turnsEmitting (q := .idle) hp rfl rfl (by decide)
  · exact .turns (q := .decoding) hp rfl rfl (by decide)

theorem transition_decodeMove {s t : State} (hp : s.phase = .decoding) (h : decodeMove s = .next t) :
    Transition s t := by
  obtain ⟨op, r, -, -, -, rfl⟩ := decodeMove_next h
  exact .turnsEmitting (q := .idle) hp rfl rfl (by decide)

theorem transition_accept (op : Op) {s : State} (hi : s.phase = .idle) : Transition s (accept op s) := by
  rcases accept_cases op s with ⟨bound, -, e⟩ | ⟨-, e⟩ <;> rw [e]
  · exact .emits hi.symm rfl
  · exact .turns (q := .sending) hi rfl rfl (by decide)

theorem transition_sendStep {s : State} (hp : s.phase = .sending) : Transition s (sendStep s) := by
  rcases sendStep_cases s with ⟨-, e⟩ | ⟨-, e⟩ | ⟨-, e⟩ <;> rw [e]
  · exact .emits rfl (discardIn_out s)
  · exact .emits rfl (discardOut_out s)
  · exact .turnsEmitting (q := .awaitingReply) hp rfl (writeRequest_out s) (by decide)

theorem transition_arrive (b : Byte) (s : State) : Transition s (arrive b s) := by
  unfold arrive
  split <;> exact .quiet rfl rfl

theorem transition_takeWaiting (s : State) : Transition s (takeWaiting s) := by
  unfold takeWaiting
  split <;> exact .quiet rfl rfl

theorem transition_tickTimer (s : State) : Transition s (tickTimer s) := by
  unfold tickTimer
  split
  · rename_i ha
    split
    · exact transition_stall (awaitsAnswer_iff.1 ha).1
    · exact .quiet rfl rfl
  · exact .quiet rfl rfl

theorem transition_receiveEndless (s : State) : Transition s (receiveEndless s) := by
  rcases receiveEndless_cases s with ⟨k, -, -, e⟩ | ⟨-, e⟩ <;> rw [e] <;> exact .quiet rfl rfl

/-- A host write is a `Start`, or changes neither STATE nor what has been emitted (R40). -/
theorem transition_hostWrite {reg : Word} {d : HostWord} {s t : State} (h : hostWrite reg d s = .next t) :
    Transition s t := by
  unfold hostWrite at h
  split at h
  case h_7 =>
    split at h
    · obtain ⟨hi, op, -, rfl⟩ := startOperation_next h; exact transition_accept op hi
    · cases h; exact .quiet rfl rfl
  case h_2 | h_3 | h_4 | h_5 | h_6 | h_8 | h_9 | h_10 | h_11 =>
    obtain ⟨-, rfl⟩ := whenIdle_next h
    exact .quiet rfl rfl
  all_goals cases h

theorem transition_hostRead {reg : Word} {s t : State} (h : hostRead reg s = .next t) : Transition s t := by
  obtain ⟨v, n, rfl⟩ := hostRead_next h
  exact .emits rfl rfl

/-- Of the packets a register access is one event; calls and replies are whole transactions (R7, R214). -/
theorem transition_consumePacket {p : Packet} {rest : List Input} (hc : compound (.packet p :: rest) = false)
    {s t : State} (h : consumePacket p s = .next t) : Transition s t := by
  cases p with
  | write reg d => exact transition_hostWrite (consumePacket_write reg d s ▸ h)
  | read reg => exact transition_hostRead (consumePacket_read reg s ▸ h)
  | call f => cases hc
  | reply f => cases hc

theorem transition_ownMove {s t : State} (h : ownMove s = some (.next t)) : Transition s t := by
  rcases ownMove_cases h with ⟨hp, e⟩ | ⟨-, -, e⟩ | ⟨-, -, -, e⟩ | ⟨hp, e⟩ | ⟨hp, e⟩
  · cases e; exact transition_sendStep hp
  · cases e; exact .emits rfl rfl
  · cases e; exact transition_takeWaiting s
  · exact transition_decodeMove hp e.symm
  · cases e; exact .turns (q := .idle) hp rfl rfl (by decide)

theorem transition_consume {x : Input} {rest : List Input} (hx : x ≠ .reset) (hc : compound (x :: rest) = false)
    {s t : State} (h : consume x s = .next t) : Transition s t := by
  unfold consume at h
  split at h
  · exact transition_consumePacket (rest := rest) hc h
  · rename_i p
    exact transition_consumePacket (rest := rest) (by cases p <;> exact hc) h
  · cases ho : ownMove s with
    | none => rw [ho] at h; cases h; exact .quiet rfl rfl
    | some o => rw [ho] at h; cases h; exact transition_ownMove ho
  · split at h
    · cases h; exact .quiet rfl rfl
    · cases h
  · split at h
    · rename_i ha; cases h; exact transition_stall (awaitsAnswer_iff.1 ha).1
    · cases h
  · cases h; exact transition_arrive _ s
  · cases h; exact transition_tickTimer s
  · cases h; exact .quiet rfl rfl
  · exact absurd rfl hx

/-- Settles O50: a step is a move of the block's own, an event consumed, or an endless answer, each one transition. -/
theorem phaseTransitions : Obligations.PhaseTransitions := by
  unfold Obligations.PhaseTransitions
  intro s t h hc hr
  have ht : Transition s t := by
    rcases step_cases (s := s) with ⟨-, o, ho, hs⟩ | ⟨x, rest, hi, hs, hnext⟩ | ⟨-, -, hs⟩ <;> rw [hs] at h
    · exact transition_ownMove (h ▸ ho)
    · have hx : x ≠ .reset := fun e => hr (by rw [hi, e]; rfl)
      exact transition_consume (s := withInputs rest s) hx (hi ▸ hc hnext) h
    · cases h; exact transition_receiveEndless s
  obtain ⟨hphase, es, hout, hes⟩ := ht
  rw [emitted_eq hout]
  exact ⟨hphase, hout, hes⟩

end Sys2Proof.Machine

/-! `Start` and `SetTimeout`: where they are accepted, and what an accepted `Start` builds (43_transaction.md R201 to
R204, R216). -/

namespace Sys2Proof.Machine

open Claims

/-! ### SetTimeout (R216) -/

/-- Settles O19: a write of T_CFG is accepted in Idle only. -/
theorem setTimeoutWritesTimer : Obligations.SetTimeoutWritesTimer := by
  unfold Obligations.SetTimeoutWritesTimer
  exact fun s t => ⟨fun hi => whenIdle_idle hi _ _, fun hb => whenIdle_busy hb _ _⟩

/-! ### Where Start is accepted (R201, R40) -/

section start

variable {s : State} (hi : s.phase = .idle)
include hi

theorem startOperation_idle {op : Op} (hf : funcOperand s = funcCode op) : startOperation s = .next (accept op s) := by
  unfold startOperation
  rw [busy_eq_false_iff.2 hi, hf, opOfCode_funcCode]
  rfl

theorem startOperation_reserved (hf : ∀ op, funcOperand s ≠ funcCode op) :
    startOperation s = .refused .reservedFunction := by
  have hnone : opOfCode (funcOperand s) = none :=
    Option.eq_none_iff_forall_ne_some.2 fun op hop => hf op (opOfCode_eq_some hop)
  unfold startOperation
  rw [busy_eq_false_iff.2 hi, hnone]
  rfl

end start

theorem exists_startOperation_next_iff (s : State) :
    (∃ t, startOperation s = .next t) ↔ s.phase = .idle ∧ ∃ op, funcOperand s = funcCode op := by
  constructor
  · rintro ⟨t, h⟩
    obtain ⟨hi, op, hop, -⟩ := startOperation_next h
    exact ⟨hi, op, opOfCode_eq_some hop⟩
  · rintro ⟨hi, op, hf⟩
    exact ⟨_, startOperation_idle hi hf⟩

/-- CTRL reads as 0 in every state (R40). -/
theorem readBack_ctrl (s : State) : readBack 0x05 s = some 0 := by
  have hread : consumePacket (.read 0x05) s = .next (answerRead 0x05 0 s) := consumePacket_read 0x05 s
  unfold readBack
  rw [hread]
  simp [answerRead]

/-- Settles O20, reason by reason. -/
theorem startAcceptedExactlyInIdle : Obligations.StartAcceptedExactlyInIdle := by
  unfold Obligations.StartAcceptedExactlyInIdle
  exact fun s => ⟨exists_startOperation_next_iff s, startOperation_busy, startOperation_reserved, rfl,
    readBack_ctrl s⟩

/-! ### What an accepted Start builds (R203, R204) -/

theorem accept_of_admitted {op : Op} {s : State} (hv : violatedBound s.cfg op (countOperand s) = none) :
    accept op s = latchAndEncode op (clearDone s) := by
  unfold accept
  rw [hv]

theorem accept_of_violated {op : Op} {s : State} {b : Word} (hv : violatedBound s.cfg op (countOperand s) = some b) :
    accept op s = fail (.parameterError b (countOperand s)) (clearDone s) := by
  unfold accept
  rw [hv]

/-- The value goes on the wire as it is, but for the coil's (R27, R101). -/
theorem wireValue_eq (op : Op) (v : Word) :
    wireValue op v = if op = .writeSingleCoil then if v.getLsbD 0 then 0xFF00 else 0x0000 else v := by
  cases op <;> rfl

/-- Settles O21: what the latch and the encoder leave, the frame from what TXBUF holds of it. -/
theorem startLatchesAndEncodes : Obligations.StartLatchesAndEncodes := by
  unfold Obligations.StartLatchesAndEncodes
  intro s op hi hf hq
  have hv : violatedBound s.cfg op (countOperand s) = none := violatedBound_of_within hq
  have hstart : exec (.start true) s = .next (latchAndEncode op (clearDone s)) :=
    accept_of_admitted hv ▸ startOperation_idle hi hf
  obtain ⟨hframe, hlen⟩ := requestFrame_latchAndEncode (s := clearDone s) hv
  refine ⟨_, hstart, rfl, rfl, rfl, rfl, rfl, rfl, rfl, rfl, wireValue_eq op (valueOperand s),
    ⟨hframe, hlen, rfl, rfl, fun a ha => memGet_memWrite_outside s.txBuf (.inr ((Nat.zero_add _).trans_le ha))⟩,
    rfl, rfl, rfl, rfl, rfl, rfl, rfl, rfl, rfl, rfl, rfl, rfl, rfl, rfl, rfl, rfl⟩

end Sys2Proof.Machine

/-! Sending and AwaitingReply, one event a step: the four moves that send a request, what lands between them, and the
two answers of the Line (43_transaction.md R205 to R209, 70_reset_and_hazards.md R281). -/

namespace Sys2Proof.Machine

open Claims

/-! ### The answers of the Line (R208, R209) -/

/-- A byte that arrives where none waits answers the outstanding read (R262). -/
theorem step_rx_awaiting {s : State} (hp : s.phase = .awaitingReply) (hr : s.reading = true) (hb : s.line.inBuf = [])
    (b : Byte) (xs : List Input) : step (withInputs (.rx b :: xs) s) = .next (withInputs xs (receiveByte b s)) := by
  have hready : (awaitsAnswer (withInputs xs s) && (withInputs xs s).line.inBuf.isEmpty) = true :=
    Bool.and_eq_true_iff.2 ⟨awaitsAnswer_iff.2 ⟨hp, hr⟩, List.isEmpty_iff.2 hb⟩
  rw [step_inputs s _ xs (.inr ⟨hp, hr, hb⟩), consume, arrive, if_pos hready]
  rfl

theorem receiveByte_of_room {s : State} (h : hasRoom s = true) (b : Byte) :
    (receiveByte b s).rxBuf = memSet s.rxBuf s.rxLen b ∧ (receiveByte b s).rxOvf = s.rxOvf := by
  simp [h]

theorem receiveByte_of_full {s : State} (h : hasRoom s = false) (b : Byte) :
    (receiveByte b s).rxBuf = s.rxBuf ∧ (receiveByte b s).rxOvf = true := by
  simp [h]

/-- Settles O24: the byte at either level is the same step, and the two branches are whether it fits. -/
theorem byteIsAccumulated : Obligations.ByteIsAccumulated := by
  unfold Obligations.ByteIsAccumulated
  intro s b rest hp hr hb
  refine ⟨withInputs rest (receiveByte b s), step_answer_byte hp hr hb b rest, step_rx_awaiting hp hr hb b rest, rfl,
    step_issueRead (s := withInputs rest (receiveByte b s)) hp rfl, fun hroom => ?_, fun ⟨c, hc, hfull⟩ => ?_⟩
  · obtain ⟨hbuf, hovf⟩ := receiveByte_of_room (hasRoom_iff.2 hroom) b
    show memGet (receiveByte b s).rxBuf s.rxLen = some b ∧ (receiveByte b s).rxOvf = s.rxOvf ∧
      ∀ a, a ≠ s.rxLen → memGet (receiveByte b s).rxBuf a = memGet s.rxBuf a
    rw [hbuf]
    exact ⟨memGet_memSet_same _ _ _, hovf, fun a ha => memGet_memSet_other _ _ ha⟩
  · have hroom : hasRoom s = false :=
      Bool.eq_false_iff.2 fun h => Nat.not_lt.2 hfull (hasRoom_iff.1 h c hc)
    exact receiveByte_of_full hroom b

theorem stall_of_silent {s : State} (h : s.rxLen = 0) :
    stall s = fail .transportTimeout { s with ibt := 0, reading := false } :=
  if_pos h

theorem stall_of_received {s : State} (h : 0 < s.rxLen) :
    stall s = { s with ibt := 0, reading := false, phase := .decoding } :=
  if_neg (Nat.ne_of_gt h)

/-- Settles O25: the two ends of a stalled read. -/
theorem stallEndsReception : Obligations.StallEndsReception := by
  unfold Obligations.StallEndsReception
  intro s rest hp hr hb
  refine ⟨_, step_answer_timeout hp hr hb rest, fun h0 => ?_, fun hpos => ?_⟩
  · rw [stall_of_silent (s := withInputs rest s) h0]
    simp [Ends, fail, resultGroup, failureGroup]
  · rw [stall_of_received (s := withInputs rest s) hpos]
    rfl

/-! ### Sending unasked (R205 to R208) -/

/-- The request as written is TXBUF, as far as it has been written (R206). -/
theorem requestFrame_getElem? {s : State} {a : Nat} {v : Byte} (ha : a < s.txLen.toNat)
    (hv : memGet s.txBuf a = some v) : (requestFrame s)[a]? = some v := by
  unfold requestFrame
  rw [memRead_getElem? _ _ ha, hv]
  rfl

theorem sendStep_of_discardIn {s : State} (h : s.sendStage = .discardIn) : sendStep s = discardIn s := by
  unfold sendStep
  rw [h]

theorem sendStep_of_discardOut {s : State} (h : s.sendStage = .discardOut) : sendStep s = discardOut s := by
  unfold sendStep
  rw [h]

theorem sendStep_of_write {s : State} (h : s.sendStage = .write) : sendStep s = writeRequest s := by
  unfold sendStep
  rw [h]

/-! ### The block's moves asked for, and what lands between them (R7, R78, R281) -/

theorem leads_own {s t : State} (h : ∀ xs, ownMove (withInputs xs s) = some (.next (withInputs xs t))) :
    Leads [.own] s t := by
  intro k xs
  have hstep : step (withInputs (.own :: xs) s) = .next (withInputs xs t) := by rw [step_asked, h]; rfl
  exact run_succ k hstep

/-- Where the block has no move of its own the asking for one is used up. -/
theorem leads_own_waiting {s : State} (hp : s.phase = .awaitingReply) (hr : s.reading = true)
    (hb : s.line.inBuf = []) : Leads [.own] s s := by
  intro k xs
  have hnone : ownMove (withInputs xs s) = none := ownMove_eq_none_iff.2 (.inr ⟨hp, hr, hb⟩)
  have hstep : step (withInputs (.own :: xs) s) = .next (withInputs xs s) := by rw [step_asked, hnone]; rfl
  exact run_succ k hstep

theorem sendStep_withInputs (xs : List Input) (s : State) :
    sendStep (withInputs xs s) = withInputs xs (sendStep s) := by
  unfold sendStep
  rw [withInputs_sendStage]
  cases s.sendStage <;> rfl

theorem leads_sendStep {s : State} (hp : s.phase = .sending) : Leads [.own] s (sendStep s) :=
  leads_own fun xs => by
    unfold ownMove
    rw [withInputs_phase, hp, sendStep_withInputs]

theorem leads_issueRead {s : State} (hp : s.phase = .awaitingReply) (hr : s.reading = false) :
    Leads [.own] s (issueRead s) :=
  leads_own fun xs => by
    unfold ownMove
    rw [withInputs_phase, hp]
    exact if_pos hr

/-- A host read of STATUS, answered (R40). -/
def seeStatus (s : State) : State := answerRead 0x06 (statusWord s).toNat s

/-- A host read marked early lands before the block's next move (R78). -/
theorem leads_seeStatus (s : State) : Leads [.early (.read 0x06)] s (seeStatus s) := by
  intro k xs
  have hstep : step (withInputs (.early (.read 0x06) :: xs) s) = .next (withInputs xs (seeStatus s)) :=
    (step_of_landsEarly (x := .early (.read 0x06)) (rest := xs) rfl rfl).trans (consumePacket_read 0x06 _)
  exact run_succ k hstep

/-- What is emitted and answered where the host reads STATUS between any two events of Sending. -/
def seenOutputs (s : State) : List Output :=
  [.discardIn, .data 0x06 (statusWord s).toNat, .discardOut, .data 0x06 (statusWord s).toNat,
    .write (requestFrame s), .data 0x06 (statusWord (writeRequest s)).toNat, .readReq]

section asked

variable {s : State} (hp : s.phase = .sending) (hs : s.sendStage = .discardIn)
include hp hs

theorem leads_discardIn : Leads [.own] s (discardIn s) := by
  have hmove := leads_sendStep hp
  rwa [sendStep_of_discardIn hs] at hmove

/-- The four events of Sending, with a host read of STATUS between any two of them. -/
theorem leads_sendRequest_seen :
    Leads [.own, .early (.read 0x06), .own, .early (.read 0x06), .own, .early (.read 0x06), .own] s
      (issueRead (seeStatus (writeRequest (seeStatus (discardOut (seeStatus (discardIn s))))))) :=
  (leads_discardIn hp hs).cons <| (leads_seeStatus _).cons <|
    (leads_sendStep (s := seeStatus (discardIn s)) hp).cons <| (leads_seeStatus _).cons <|
    (leads_sendStep (s := seeStatus (discardOut (seeStatus (discardIn s)))) hp).cons <| (leads_seeStatus _).cons <|
    leads_issueRead rfl rfl

theorem run_sendRequest_seen (rest : List Input) :
    core.run 7 (withInputs ([Input.own, .early (.read 0x06), .own, .early (.read 0x06), .own, .early (.read 0x06), .own]
        ++ rest) s) = .next { sendRequest (withInputs rest s) with out := s.out ++ seenOutputs s } := by
  have hout : (issueRead (seeStatus (writeRequest (seeStatus (discardOut (seeStatus (discardIn s))))))).out
      = s.out ++ seenOutputs s := by
    simp [seenOutputs, seeStatus, answerRead, statusWord, busy, requestFrame]
  rw [← hout]
  exact leads_sendRequest_seen hp hs 0 rest

/-- However often the block is asked for a move, it emits the four events of Sending in their order and then waits. -/
theorem exists_leads_own (k : Nat) : ∃ u, Leads (List.replicate k .own) s u ∧
    u.out = s.out ++ [Output.discardIn, .discardOut, .write (requestFrame s), .readReq].take k := by
  have h1 : Leads [.own] s (discardIn s) := leads_discardIn hp hs
  have h2 : Leads [.own, .own] s (discardOut (discardIn s)) := h1.append (leads_sendStep (s := discardIn s) hp)
  have h3 : Leads [.own, .own, .own] s (writeRequest (discardOut (discardIn s))) :=
    h2.append (leads_sendStep (s := discardOut (discardIn s)) hp)
  have h4 : Leads [.own, .own, .own, .own] s (sendRequest s) := h3.append (leads_issueRead rfl rfl)
  match k with
  | 0 => exact ⟨s, .nil s, (List.append_nil _).symm⟩
  | 1 => exact ⟨_, h1, rfl⟩
  | 2 => exact ⟨_, h2, List.append_assoc _ _ _⟩
  | 3 => exact ⟨_, h3, (List.append_assoc _ _ _).trans (List.append_assoc _ _ _)⟩
  | k + 4 =>
    refine ⟨sendRequest s, ?_, by rw [List.take_of_length_le (Nat.le_add_left 4 k), sendRequest_out]⟩
    have hwait : ∀ j, Leads (List.replicate j .own) (sendRequest s) (sendRequest s) := fun j => by
      induction j with
      | zero => exact .nil _
      | succ j ih => exact (leads_own_waiting rfl rfl rfl).cons ih
    rw [Nat.add_comm k 4, List.replicate_add]
    exact h4.append (hwait k)

/-- A reset after `k` moves asked for leaves the events of these moves, and Idle (R281). -/
theorem run_sendRequest_reset (k : Nat) (rest : List Input) :
    ∃ t, core.run (k + 1) (withInputs (List.replicate k .own ++ .reset :: rest) s) = .next t ∧ t.phase = .idle ∧
      t.done = false ∧ t.inputs = rest ∧
      t.out = s.out ++ [Output.discardIn, .discardOut, .write (requestFrame s), .readReq].take k := by
  obtain ⟨u, hu, hout⟩ := exists_leads_own hp hs k
  have hmoves := hu 1 (.reset :: rest)
  rw [List.length_replicate, Nat.add_comm] at hmoves
  exact ⟨resetBlock (withInputs rest u), hmoves, rfl, rfl, rfl, hout⟩

end asked

/-- Settles O23: the steps unasked one by one and all four together, then the moves asked for. -/
theorem sendingEmitsInOrder : Obligations.SendingEmitsInOrder := by
  unfold Obligations.SendingEmitsInOrder
  refine ⟨fun s he => ⟨fun hp => ⟨fun hs => ?_, fun hs => ?_, fun hs => ?_, fun hs => ?_⟩, fun hp hr => ?_⟩,
    fun s rest hp hs => ⟨run_sendRequest_seen hp hs rest, fun k => run_sendRequest_reset hp hs k rest⟩⟩
  · exact step_discardIn hp hs he
  · rw [step_sending hp he, sendStep_of_discardOut hs]
    rfl
  · rw [step_sending hp he, sendStep_of_write hs]
    exact ⟨rfl, memRead_length _ _ _, fun a v => requestFrame_getElem?⟩
  · exact ⟨run_sendRequest hp hs he, sendRequest_line s, sendRequest_out s⟩
  · exact step_issueRead hp hr he

end Sys2Proof.Machine

/-! The public operations whatever the Line does: a call outside a transaction completes, against a silent Line it times
out, and out of its bounds it ends before any I/O (43_transaction.md R202, R209, R214, R221 to R228; 30_encoding.md
R125). -/

namespace Sys2Proof.Machine

open Claims

/-! ### The parameter check fails (R202, R241) -/

/-- The bound reported is the ceiling where it is exceeded, else the floor (R202). -/
theorem violatedBound_of_outside {p : Config.Params} {op : Op} {q c : Word} (hc : ceiling op = some c)
    (h : c < q ∨ q < p.qtyFloor) : violatedBound p op q = some (if c < q then c else p.qtyFloor) := by
  unfold violatedBound
  rw [hc]
  dsimp only
  split
  · rfl
  · rename_i hle
    exact if_pos (h.resolve_left hle)

/-- From `s` to `t` the operation has ended in ParameterError with the bound `b` and the quantity `q`, and nothing has
reached the Line (R241). -/
def EndsInParameterError (s t : State) (b q : Word) : Prop :=
  t.res = { ResultGroup.zero with resKind := 1, exp := b, got := q } ∧ t.phase = .idle ∧ t.done = true ∧
    t.line = s.line ∧ t.inputs = s.inputs ∧ t.out = s.out ++ [.ret (.failed (.parameterError b q))]

theorem transact_rejected {op : Op} {s : State} {b : Word} (hv : violatedBound s.cfg op (countOperand s) = some b) :
    ∃ t, transact op s = .next t ∧ EndsInParameterError s t b (countOperand s) := by
  refine ⟨fail (.parameterError b (countOperand s)) (clearDone s), ?_, rfl, rfl, rfl, rfl, rfl, rfl⟩
  unfold transact
  rw [accept_of_violated hv]
  rfl

theorem callRead_rejected {op : Op} {s : State} (hi : s.phase = .idle) (u : Byte) (a : Word) {q max : Word}
    (hc : ceiling op = some max) (h : max < q ∨ q < s.cfg.qtyFloor) :
    ∃ t bound, callOperation op (loadRead op u a q) s = .next t ∧ bound = (if max < q then max else s.cfg.qtyFloor) ∧
      EndsInParameterError s t bound q := by
  obtain ⟨t, ht, hend⟩ := transact_rejected (s := loadRead op u a q s) (violatedBound_of_outside hc h)
  exact ⟨t, _, (callOperation_idle hi op _).trans ht, rfl, hend⟩

/-- The bounds of a multiple write of at most VCAP values, as numbers (R202). -/
theorem callMultiple_rejected {op : Op} {s : State} (hi : s.phase = .idle) (u : Byte) (a : Word) {values : List Word}
    {max : Nat} (hc : ceiling op = some (BitVec.ofNat 16 max)) (hmax : max ≤ 1968) (hlen : values.length ≤ 1968)
    (h : max < values.length ∨ values.length < s.cfg.qtyFloor.toNat) :
    ∃ t bound, callMultiple op u a values s = .next t ∧
      bound = (if max < values.length then BitVec.ofNat 16 max else s.cfg.qtyFloor) ∧
      EndsInParameterError s t bound (BitVec.ofNat 16 values.length) := by
  have hcap : Config.vCap = 1968 := rfl
  have habove : BitVec.ofNat 16 max < BitVec.ofNat 16 values.length ↔ max < values.length := by
    rw [BitVec.lt_def, BitVec.toNat_ofNat, BitVec.toNat_ofNat, Nat.mod_eq_of_lt (by omega), Nat.mod_eq_of_lt (by omega)]
  have hbelow : BitVec.ofNat 16 values.length < s.cfg.qtyFloor ↔ values.length < s.cfg.qtyFloor.toNat := by
    rw [BitVec.lt_def, BitVec.toNat_ofNat, Nat.mod_eq_of_lt (by omega)]
  have hv := violatedBound_of_outside (p := s.cfg) hc (h.imp habove.2 hbelow.2)
  simp only [habove] at hv
  have hcall : callMultiple op u a values s = transact op (loadMultiple op u a values s) :=
    (if_neg (by omega)).trans (callOperation_idle hi op _)
  obtain ⟨t, ht, hend⟩ := transact_rejected (s := loadMultiple op u a values s) hv
  exact ⟨t, _, hcall.trans ht, rfl, hend⟩

/-- A sequence longer than VCAP is the host-side wrapper's ParameterError (R125, D7). -/
theorem callMultiple_wrapper {op : Op} {c : Word} (hc : ceiling op = some c) (u : Byte) (a : Word) {values : List Word}
    (hlen : Config.vCap < values.length) (s : State) :
    callMultiple op u a values s = .next { s with out := s.out ++ [.wrapperError c values.length] } := by
  unfold callMultiple
  rw [if_pos hlen, hc]
  rfl

/-- Settles O35: the four reads alike, and the two multiple writes alike. -/
theorem callsOutOfBoundsDoNoIo : Obligations.CallsOutOfBoundsDoNoIo := by
  unfold Obligations.CallsOutOfBoundsDoNoIo
  intro s u a q bits words
  refine ⟨fun i max hi hidle h => ?_, fun i n max hi => ?_⟩
  · simp only [List.mem_cons, List.not_mem_nil, or_false, Prod.mk.injEq] at hi
    rcases hi with ⟨rfl, rfl⟩ | ⟨rfl, rfl⟩ | ⟨rfl, rfl⟩ | ⟨rfl, rfl⟩ <;> exact callRead_rejected hidle u a rfl h
  · have hmap : (bits.map bitWord).length = bits.length := List.length_map _
    simp only [List.mem_cons, List.not_mem_nil, or_false, Prod.mk.injEq] at hi
    rcases hi with ⟨rfl, rfl, rfl⟩ | ⟨rfl, rfl, rfl⟩
    · rw [← hmap]
      exact ⟨fun hidle hlen h => callMultiple_rejected hidle u a rfl (by decide) hlen h,
        fun hlen => callMultiple_wrapper rfl u a hlen s⟩
    · exact ⟨fun hidle hlen h => callMultiple_rejected hidle u a rfl (by decide) hlen h,
        fun hlen => callMultiple_wrapper rfl u a hlen s⟩

/-! ### A call completes, whatever the Line does (R214) -/

/-- The request `r` has been sent, and the block awaits the reply, is about to decode it, or has ended. -/
def Sent (r : Latched) (s : State) : Prop :=
  s.req = r ∧ (s.phase = .idle ∨ s.phase = .awaitingReply ∨ s.phase = .decoding)

/-- No event of the Line's takes the block back into Sending. -/
theorem lineKeeps_sent (r : Latched) : LineKeeps (Sent r) where
  byte _ _ _ h := h
  issue _ _ h := h
  stall s _ h := by
    refine ⟨(stall_req s).trans h.1, ?_⟩
    rcases stall_cases s with ⟨-, e⟩ | ⟨-, e⟩ <;> rw [e]
    · exact .inl rfl
    · exact .inr (.inr rfl)
  line _ _ h := h
  count _ h := h
  inputs _ _ h := h
  endless _ _ h := h

/-- Once the request is sent the transaction goes on to its end, or to where the Line's events run out. -/
theorem afterAwait_completes {op : Op} {r : Latched} {s : State} (h : Sent r s) (hop : opOfCode r.func = some op)
    (hc : ∀ c, ceiling op = some c → r.count.toNat ≤ c.toNat) :
    ∃ t, afterAwait s = .next t ∧ (t.phase = .idle ∨ t.phase = .awaitingReply) := by
  obtain ⟨rfl, hphase⟩ := h
  unfold afterAwait
  split
  · exact ⟨_, decodeMove_completes hop hc, .inl rfl⟩
  · rename_i hd
    exact ⟨s, rfl, hphase.imp_right (Or.resolve_right · hd)⟩

theorem transact_completes {op : Op} {s : State} (hf : funcOperand s = funcCode op) :
    ∃ t, transact op s = .next t ∧ (t.phase = .idle ∨ t.phase = .awaitingReply) := by
  cases hv : violatedBound s.cfg op (countOperand s) with
  | some b =>
    obtain ⟨t, ht, hend⟩ := transact_rejected hv
    exact ⟨t, ht, .inl hend.2.1⟩
  | none =>
    let sent := sendRequest (latchAndEncode op (clearDone s))
    have hsent : Sent (latched op s) sent := ⟨rfl, .inr (.inl rfl)⟩
    have htransact : transact op s = afterAwait (awaitReply s.inputs sent) := by
      unfold transact
      rw [accept_of_admitted hv]
      rfl
    have hop : opOfCode (latched op s).func = some op := (congrArg opOfCode hf).trans (opOfCode_funcCode op)
    rw [htransact]
    exact afterAwait_completes ((lineKeeps_sent _).awaitReply s.inputs hsent) hop
      fun c hc => (violatedBound_eq_none hv hc).1

/-- An operation that has failed goes no further (R212). -/
theorem afterAwait_fail (f : Failure) (s : State) : afterAwait (fail f s) = .next (fail f s) := rfl

/-- A transaction whose first read stalls ends in TransportTimeout with no byte received (R209). -/
theorem transact_timesOut {op : Op} {s : State} {rest : List Input}
    (hv : violatedBound s.cfg op (countOperand s) = none) (hin : s.inputs = .answer .timeout :: rest) :
    ∃ t, transact op s = .next t ∧
      EndsTransaction s (operandFrame op s) 0 rest (.failed .transportTimeout) t ∧ t.rxLen = 0 := by
  let sent := sendRequest (latchAndEncode op (clearDone s))
  have hframe : requestFrame (latchAndEncode op (clearDone s)) = operandFrame op s :=
    (requestFrame_latchAndEncode (s := clearDone s) hv).1
  have hout : sent.out = s.out
      ++ [Output.discardIn, .discardOut, .write (operandFrame op s), .readReq] := by
    rw [sendRequest_out, hframe]
    rfl
  have hrbuf : sent.rbuf = s.rbuf := by simp [sent]
  have hstall : stall (withInputs rest sent) = fail .transportTimeout _ := stall_of_silent rfl
  have htransact : transact op s = afterAwait (stall (withInputs rest sent)) := transact_awaited [] hv hin
  rw [hstall, afterAwait_fail] at htransact
  refine ⟨_, htransact, ⟨rfl, rfl, rfl, rfl, hrbuf, ?_⟩, rfl⟩
  show sent.out ++ [.ret (.failed .transportTimeout)] = _
  rw [hout]
  simp [transcript]

/-! ### What a call loads (R125) -/

/-- In `u` the registers of `s` hold the call `i` of operation `op`, whose request is `f`; an admitted call passes the
parameter check, and what is to come, RBUF and what has been emitted are as in `s`. -/
structure Loaded (i : Instr) (f : List Byte) (op : Op) (s u : State) : Prop where
  inputs : u.inputs = s.inputs
  rbuf : u.rbuf = s.rbuf
  out : u.out = s.out
  func : funcOperand u = funcCode op
  request : f = operandFrame op u
  admitted : Admitted s.cfg i → violatedBound u.cfg op (countOperand u) = none

theorem violatedBound_toNat_eq_none {p : Config.Params} {op : Op} {q : Word} {max : Nat}
    (hc : ceiling op = some (BitVec.ofNat 16 max)) (hmax : max ≤ 65535)
    (h : p.qtyFloor.toNat ≤ q.toNat ∧ q.toNat ≤ max) : violatedBound p op q = none := by
  simpa using violatedBound_ofNat_eq_none hc hmax h.2 h.1

/-- A call goes through the block, its registers loaded, or is longer than VCAP and answered by the host-side wrapper
alone (R125). -/
theorem exec_call_loaded {i : Instr} {f : List Byte} (he : encode i = .call f) (s : State) :
    (∃ e, exec i s = .next (emit [e] s) ∧ ¬ Admitted s.cfg i) ∨
      ∃ op load, exec i s = callOperation op load s ∧ Loaded i f op s (load s) := by
  cases i <;> cases he
  case readCoils u a q | readDiscreteInputs u a q | readHoldingRegisters u a q | readInputRegisters u a q =>
    exact .inr ⟨_, loadRead _ u a q, rfl, rfl, rfl, rfl, rfl, rfl,
      fun h => violatedBound_toNat_eq_none rfl (by decide) (h _ _ rfl)⟩
  case writeSingleCoil u a on =>
    exact .inr ⟨_, loadSingle _ u a (bitWord on), rfl, rfl, rfl, rfl, rfl,
      (operandFrame_loadSingle_coil u a on s).symm, fun _ => rfl⟩
  case writeSingleRegister u a v =>
    exact .inr ⟨_, loadSingle _ u a v, rfl, rfl, rfl, rfl, rfl, rfl, fun _ => rfl⟩
  case writeMultipleCoils u a bits =>
    have hmap : (bits.map bitWord).length = bits.length := List.length_map _
    rcases callMultiple_cases .writeMultipleCoils u a (bits.map bitWord) s with ⟨hlen, e⟩ | ⟨hlen, bound, e⟩ <;>
      rw [hmap] at hlen
    · refine .inr ⟨_, loadMultiple _ u a (bits.map bitWord), e, rfl, rfl, rfl, rfl,
        (operandFrame_loadMultiple_coils u a hlen s).symm, fun h => ?_⟩
      obtain ⟨hfloor, hmax⟩ := h _ _ rfl
      exact violatedBound_ofNat_eq_none rfl (by decide) (hmap.trans_le hmax) (hfloor.trans_eq hmap.symm)
    · exact .inl ⟨_, e, fun h => Nat.not_lt.2 (h _ _ rfl).2 hlen⟩
  case writeMultipleRegisters u a words =>
    rcases callMultiple_cases .writeMultipleRegisters u a words s with ⟨hlen, e⟩ | ⟨hlen, bound, e⟩
    · refine .inr ⟨_, loadMultiple _ u a words, e, rfl, rfl, rfl, rfl,
        (operandFrame_loadMultiple_registers u a hlen s).symm, fun h => ?_⟩
      obtain ⟨hfloor, hmax⟩ := h _ _ rfl
      exact violatedBound_ofNat_eq_none rfl (by decide) hmax hfloor
    · exact .inl ⟨_, e, fun h => Nat.not_lt.2 ((h _ _ rfl).2.trans (by decide)) hlen⟩

/-! ### The eight operations (R221 to R228) -/

section calls

variable {i : Instr} {f : List Byte} (he : encode i = .call f) {s : State} (hi : s.phase = .idle)
include he hi

theorem exec_call_completes : ∃ t, exec i s = .next t ∧ (t.phase = .idle ∨ t.phase = .awaitingReply) := by
  rcases exec_call_loaded he s with ⟨e, hw, -⟩ | ⟨op, load, hcall, hload⟩
  · exact ⟨_, hw, .inl hi⟩
  · rw [hcall, callOperation_idle hi]
    exact transact_completes hload.func

/-- An admitted call against a silent Line sends its own frame, reads once and times out (R209). -/
theorem exec_call_timesOut (ha : Admitted s.cfg i) (rest : List Input) :
    ∃ t, exec i (withInputs (.answer .timeout :: rest) s) = .next t ∧
      EndsTransaction s f 0 rest (.failed .transportTimeout) t ∧ t.rxLen = 0 := by
  rcases exec_call_loaded he (withInputs (.answer .timeout :: rest) s) with ⟨e, -, hna⟩ | ⟨op, load, hcall, hload⟩
  · exact absurd ha hna
  · obtain ⟨t, ht, hend, hlen⟩ := transact_timesOut (hload.admitted ha) hload.inputs
    have hidle := callOperation_idle (s := withInputs (.answer .timeout :: rest) s) hi op load
    exact ⟨t, (hcall.trans hidle).trans ht, hload.request ▸ hend.of_loaded hload.rbuf hload.out, hlen⟩

end calls

/-- Settles O34: the eight calls alike, the timeout by the transcript of a transaction with no byte. -/
theorem callsComplete : Obligations.CallsComplete := by
  unfold Obligations.CallsComplete
  intro s u a v on bits words hi i hmem
  have hcall : ∃ f, encode i = .call f := by
    simp only [List.mem_cons, List.not_mem_nil, or_false] at hmem
    rcases hmem with rfl | rfl | rfl | rfl | rfl | rfl | rfl | rfl <;> exact ⟨_, rfl⟩
  obtain ⟨f, he⟩ := hcall
  refine ⟨exec_call_completes he hi, fun rest ha => ?_⟩
  obtain ⟨t, ht, hend, hlen⟩ := exec_call_timesOut he hi ha rest
  exact ⟨t, f, ht, hend.res, hend.phase, hend.done, hlen, hend.inputs, he, hend.out.trans (by simp [transcript])⟩

end Sys2Proof.Machine

/-! How an operation ends, and what stands when it does: a `Start` out of its bounds (60_exceptions.md R241), the timer
of the stalled read (R262), and the frame of a reply (R248). -/

namespace Sys2Proof.Machine

open Claims

/-! ### The quantity out of its bounds (R202, R241) -/

/-- A rejected `Start` writes the result group and nothing else (R248). -/
theorem ends_parameterError (b q : Word) (s : State) :
    Ends s (fail (.parameterError b q) (clearDone s)) (.failed (.parameterError b q))
      { ResultGroup.zero with resKind := 1, exp := b, got := q } := by
  simp [Ends, fail, resultGroup, failureGroup]

/-- A `Start` whose quantity is above its ceiling or below the floor ends in the step that accepts it. -/
theorem start_rejected {s : State} {op : Op} {max : Word} (hi : s.phase = .idle) (hf : funcOperand s = funcCode op)
    (hc : ceiling op = some max) (h : max < countOperand s ∨ countOperand s < s.cfg.qtyFloor) :
    ∃ t bound, exec (.start true) s = .next t ∧ bound = (if max < countOperand s then max else s.cfg.qtyFloor) ∧
      Ends s t (.failed (.parameterError bound (countOperand s)))
        { ResultGroup.zero with resKind := 1, exp := bound, got := countOperand s } ∧
      t.crc = s.crc := by
  have hstart : exec (.start true) s = .next (fail (.parameterError _ (countOperand s)) (clearDone s)) :=
    accept_of_violated (violatedBound_of_outside hc h) ▸ startOperation_idle hi hf
  exact ⟨_, _, hstart, rfl, ends_parameterError _ _ s, rfl⟩

/-- An operation without a quantity passes the parameter check (R202). -/
theorem start_without_quantity {s : State} {op : Op} (hi : s.phase = .idle) (hf : funcOperand s = funcCode op)
    (hc : ceiling op = none) : exec (.start true) s = .next (latchAndEncode op (clearDone s)) := by
  have hv : violatedBound s.cfg op (countOperand s) = none :=
    violatedBound_of_within fun c h => nomatch hc.symm.trans h
  exact accept_of_admitted hv ▸ startOperation_idle hi hf

/-- Settles O22: the six operations with a quantity alike, then the two without. -/
theorem startRejectsQuantity : Obligations.StartRejectsQuantity := by
  unfold Obligations.StartRejectsQuantity
  refine ⟨fun s op max hi hf hmem h => ?_, fun s op hi hf hop => ?_⟩
  · have hc : ceiling op = some max := by
      simp only [List.mem_cons, List.not_mem_nil, or_false, Prod.mk.injEq] at hmem
      rcases hmem with ⟨rfl, rfl⟩ | ⟨rfl, rfl⟩ | ⟨rfl, rfl⟩ | ⟨rfl, rfl⟩ | ⟨rfl, rfl⟩ | ⟨rfl, rfl⟩ <;> rfl
    exact start_rejected hi hf hc h
  · have hc : ceiling op = none := by rcases hop with rfl | rfl <;> rfl
    exact ⟨_, start_without_quantity hi hf hc, rfl, rfl, rfl⟩

/-! ### The timer of an outstanding read (R262) -/

/-- Where no read is outstanding the counter does not run. -/
theorem consume_tick_of_not_awaiting {s : State} (h : s.phase ≠ .awaitingReply ∨ s.reading = false) :
    consume .tick s = .next s := by
  have hno : ¬ awaitsAnswer s = true := by
    rw [awaitsAnswer_iff]
    rintro ⟨hp, hr⟩
    rcases h with h | h
    · exact h hp
    · rw [hr] at h; cases h
  exact congrArg Host.Outcome.next (if_neg hno)

/-- The stall does not depend on what IBT held: it leaves 0 there. -/
theorem stall_of_ibt (n : Nat) (s : State) : stall { s with ibt := n } = stall s := rfl

section timer

variable {s : State} (hp : s.phase = .awaitingReply) (hr : s.reading = true)
include hp hr

/-- A byte that waits is taken before the tick. -/
theorem step_tick_waiting {b : Byte} {bs : List Byte} (hb : s.line.inBuf = b :: bs) (xs : List Input) :
    step (withInputs (.tick :: xs) s)
      = .next (receiveByte b (withInputs (.tick :: xs) { s with line := { s.line with inBuf := bs } })) := by
  have hmove : ownMove (withInputs (.tick :: xs) s) = some (.next (takeWaiting (withInputs (.tick :: xs) s))) := by
    simp [ownMove, hp, hr, hb]
  rw [step_own rfl hmove]
  simp [takeWaiting, hb, withInputs]

variable (hb : s.line.inBuf = [])
include hb

theorem step_tick (xs : List Input) :
    step (withInputs (.tick :: xs) s)
      = .next (if countDown s.ibt = 0 then stall (withInputs xs s)
          else withInputs xs { s with ibt := countDown s.ibt }) := by
  rw [step_inputs s _ xs (.inr ⟨hp, hr, hb⟩)]
  exact congrArg Host.Outcome.next (if_pos (awaitsAnswer_iff.2 ⟨hp, hr⟩))

theorem step_tick_counting (h : 1 < s.ibt) (xs : List Input) :
    step (withInputs (.tick :: xs) s) = .next (withInputs xs { s with ibt := s.ibt - 1 }) := by
  have hruns : countDown s.ibt ≠ 0 := Nat.sub_ne_zero_of_lt h
  rw [step_tick hp hr hb, if_neg hruns]
  rfl

theorem step_tick_last (h : s.ibt ≤ 1) (xs : List Input) :
    step (withInputs (.tick :: xs) s) = .next (stall (withInputs xs s)) := by
  have hdown : countDown s.ibt = 0 := Nat.sub_eq_zero_of_le h
  rw [step_tick hp hr hb, if_pos hdown]

/-- Ticks before the last only count IBT down. -/
theorem run_ticks {j : Nat} (hj : j < max 1 s.ibt) (xs : List Input) :
    core.run j (withInputs (List.replicate j .tick ++ xs) s) = .next (withInputs xs { s with ibt := s.ibt - j }) := by
  induction j generalizing s with
  | zero => rfl
  | succ j ih =>
    have hibt : s.ibt - 1 - j = s.ibt - (j + 1) := by omega
    calc core.run (j + 1) (withInputs (.tick :: (List.replicate j .tick ++ xs)) s)
      _ = core.run j (withInputs (List.replicate j .tick ++ xs) { s with ibt := s.ibt - 1 }) :=
        run_succ j (step_tick_counting hp hr hb (by omega) _)
      _ = .next (withInputs xs { s with ibt := s.ibt - (j + 1) }) :=
        hibt ▸ ih (s := { s with ibt := s.ibt - 1 }) hp hr hb (by simp only; omega)

/-- A silent read stalls when IBT has run down; a count of 0 is as one of 1. -/
theorem run_ticks_stall (xs : List Input) :
    core.run (max 1 s.ibt) (withInputs (List.replicate (max 1 s.ibt) .tick ++ xs) s)
      = .next (stall (withInputs xs s)) := by
  obtain ⟨j, hj⟩ : ∃ j, max 1 s.ibt = j + 1 := ⟨max 1 s.ibt - 1, by omega⟩
  rw [hj, List.replicate_succ', List.append_assoc, run_add 1 (run_ticks hp hr hb (by omega) _), run_one]
  have hlast : s.ibt - j ≤ 1 := by omega
  calc step (withInputs (.tick :: xs) { s with ibt := s.ibt - j })
    _ = .next (stall { withInputs xs s with ibt := s.ibt - j }) :=
      step_tick_last (s := { s with ibt := s.ibt - j }) hp hr hb hlast xs
    _ = .next (stall (withInputs xs s)) := by rw [stall_of_ibt]

end timer

/-- Settles O26: the ticks that count and the one that stalls, by induction on their number. -/
theorem ticksGiveTimeout : Obligations.TicksGiveTimeout := by
  unfold Obligations.TicksGiveTimeout
  intro s rest
  refine ⟨fun hp hr hb hibt => ⟨fun j hj => ?_, ?_⟩, fun b bs hp hr hb => step_tick_waiting hp hr hb rest,
    consume_tick_of_not_awaiting, fun hi => ?_⟩
  · have hsplit : max 1 s.tCfg = j + (max 1 s.tCfg - j) := by omega
    rw [hsplit, List.replicate_add, List.append_assoc, Nat.add_sub_cancel_left]
    exact hibt ▸ run_ticks hp hr hb (hibt.symm ▸ hj) _
  · rw [step_answer_timeout hp hr hb]
    exact hibt ▸ run_ticks_stall hp hr hb rest
  · rw [step_inputs s _ rest (.inl hi)]
    exact consume_tick_of_not_awaiting (s := withInputs rest s) (.inl (by rw [withInputs_phase, hi]; nofun))

/-! ### The frame of a reply (R27, R248) -/

/-- `t` has of `s` what lies beside the transaction: the owner of CRC, the stage of sending, the events to come, the
resets counted, and what the Line has yet to transmit. -/
def SameSurroundings (s t : State) : Prop :=
  t.crcOwned = s.crcOwned ∧ t.sendStage = s.sendStage ∧ t.inputs = s.inputs ∧ t.endless = s.endless ∧
    t.resets = s.resets ∧ t.line.outBuf = s.line.outBuf

theorem sameSurroundings_decodeMove {s t : State} (h : decodeMove s = .next t) : SameSurroundings s t := by
  obtain ⟨op, r, -, -, -, rfl⟩ := decodeMove_next h
  exact ⟨rfl, rfl, rfl, rfl, rfl, rfl⟩

theorem decodeMove_rxBuf {s t : State} (h : decodeMove s = .next t) : t.rxBuf = s.rxBuf := by
  obtain ⟨op, r, -, -, -, rfl⟩ := decodeMove_next h
  rfl

theorem SameSurroundings.trans {s t u : State} (h : SameSurroundings s t) (h' : SameSurroundings t u) :
    SameSurroundings s u := by
  obtain ⟨h1, h2, h3, h4, h5, h6⟩ := h
  obtain ⟨g1, g2, g3, g4, g5, g6⟩ := h'
  exact ⟨g1.trans h1, g2.trans h2, g3.trans h3, g4.trans h4, g5.trans h5, g6.trans h6⟩

section reply

variable {f : List Byte} {s t : State} (h : deliverReply f s = .next t)
include h

theorem sameSurroundings_deliverReply : SameSurroundings s t := by
  rcases deliverReply_next h with ⟨-, rfl⟩ | ⟨-, u, hu, hd⟩
  · exact ⟨rfl, rfl, rfl, rfl, rfl, rfl⟩
  · have hsu : SameSurroundings s u := by subst hu; simp [SameSurroundings]
    rcases hd with ⟨-, hd⟩ | rfl
    · exact hsu.trans (sameSurroundings_decodeMove hd)
    · exact hsu

/-- A reply reaches RXBUF at the offsets of its bytes, and of those that waited before it, only (R33). -/
theorem deliverReply_rxBuf_outside {a : Nat} (ha : a < s.rxLen ∨ s.rxLen + (s.line.inBuf ++ f).length ≤ a) :
    memGet t.rxBuf a = memGet s.rxBuf a := by
  rcases deliverReply_next h with ⟨-, rfl⟩ | ⟨-, u, hu, hd⟩
  · rfl
  · have hsu : memGet u.rxBuf a = memGet s.rxBuf a := by
      rw [hu, stall_rxBuf, receiveBytes_rxBuf_outside _ _ (by rw [readOn_rxLen]; exact ha), readOn_rxBuf]
    rcases hd with ⟨-, hd⟩ | rfl
    · rw [decodeMove_rxBuf hd, hsu]
    · exact hsu

end reply

/-- Settles O47: the nine replies are one delivery, which keeps the request and the surroundings (`replyFrame` is the
model's builder of reply words). -/
theorem replyFrame_holds : Obligations.ReplyFrame := by
  unfold Obligations.ReplyFrame
  intro s t i f he h
  have hd : deliverReply f s = .next t := exec_of_encode_reply he s ▸ h
  have hcfg : t.cfg = s.cfg := (stepKeeps_cfg s.cfg).exec h rfl
  obtain ⟨hreq, hcmd, hwritten, hvbuf, htCfg, htxBuf, htxLen⟩ := sameRequest_deliverReply hd
  obtain ⟨hcrcOwned, hsendStage, hinputs, hendless, hresets, houtBuf⟩ := sameSurroundings_deliverReply hd
  obtain ⟨-, hrbuf⟩ := (receives_deliverReply hd).rBufFrame
  exact ⟨hcfg, hcmd, hwritten, hreq, hcrcOwned, hsendStage, htCfg, htxLen, hinputs, hendless, hresets, houtBuf,
    fun a => by rw [hvbuf], fun a => by rw [htxBuf], fun a ha => deliverReply_rxBuf_outside hd ha, hrbuf⟩

end Sys2Proof.Machine

/-! Reset in any state, and a reply without end (70_reset_and_hazards.md R281, R295, 00_scope.md R12, 60_exceptions.md
R274). -/

namespace Sys2Proof.Machine

open Claims

/-! ### Reset (R281) -/

/-- A reset that comes next is taken before any move of the block's. -/
theorem step_inputs_reset (s : State) (rest : List Input) :
    step (withInputs (.reset :: rest) s) = .next (resetBlock (withInputs rest s)) :=
  step_of_landsEarly (s := withInputs (.reset :: rest) s) rfl rfl

/-- Settles O56: the step is the reset of the block, whose fields say the rest. -/
theorem resetAbandonsTransaction : Obligations.ResetAbandonsTransaction := by
  unfold Obligations.ResetAbandonsTransaction
  intro s rest
  exact ⟨resetBlock (withInputs rest s), step_inputs_reset s rest, resetBlock_phase _, resetBlock_done _,
    resetBlock_reading _, resetBlock_res _, resetBlock_rxLen _, resetBlock_rxOvf _, resetBlock_txLen _,
    resetBlock_tCfg _, resetBlock_cfg _, resetBlock_out _, resetBlock_line _, resetBlock_inputs _,
    resetBlock_endless _⟩

/-! ### No event to come (R274, R295) -/

/-- Where the block has no move of its own and no event is to come, the Line's endless sequence is asked. -/
theorem step_without_inputs {s : State} (hin : s.inputs = [])
    (h : s.phase = .idle ∨ (s.phase = .awaitingReply ∧ s.reading = true ∧ s.line.inBuf = [])) :
    step s = .next (receiveEndless s) := by
  have hnone : ownMove s = none := ownMove_eq_none_iff.2 h
  rcases step_cases (s := s) with ⟨-, o, ho, -⟩ | ⟨x, rest, hx, -, -⟩ | ⟨-, -, hs⟩
  · exact nomatch hnone.symm.trans ho
  · exact nomatch hin.symm.trans hx
  · exact hs

/-- A silent Line answers nothing. -/
theorem receiveEndless_of_silent {s : State} (he : s.endless = none) : receiveEndless s = s := by
  rcases receiveEndless_cases s with ⟨k, hk, -, -⟩ | ⟨-, e⟩
  · exact nomatch he.symm.trans hk
  · exact e

/-- An outstanding read is answered with the next byte of the endless sequence. -/
theorem receiveEndless_of_awaitsAnswer {s : State} {k : Nat} (he : s.endless = some k) (ha : awaitsAnswer s = true) :
    receiveEndless s = receiveByte (Config.freeAnswer k) { s with endless := some (k + 1) } := by
  rcases receiveEndless_cases s with ⟨k', hk', -, e⟩ | ⟨hnone | hno, -⟩
  · cases he.symm.trans hk'
    exact e
  · exact nomatch he.symm.trans hnone
  · exact nomatch ha.symm.trans hno

/-- Against a silent Line the block waits, however long. -/
theorem run_waiting {s : State} (hin : s.inputs = [])
    (h : s.phase = .idle ∨ (s.phase = .awaitingReply ∧ s.reading = true ∧ s.line.inBuf = []))
    (he : s.endless = none) (n : Nat) : core.run n s = .next s := by
  have hstep : step s = .next s := (step_without_inputs hin h).trans (congrArg _ (receiveEndless_of_silent he))
  induction n with
  | zero => rfl
  | succ n ih => rw [run_succ n hstep, ih]

/-! ### A reply without end (R12, R295) -/

/-- The next `n` bytes of the Line's endless sequence, from number `k` on. -/
def endlessBytes (k n : Nat) : List Byte := (List.range' k n).map Config.freeAnswer

theorem endlessBytes_succ (k n : Nat) : endlessBytes k (n + 1) = Config.freeAnswer k :: endlessBytes (k + 1) n := rfl

@[simp] theorem endlessBytes_length (k n : Nat) : (endlessBytes k n).length = n := by simp [endlessBytes]

theorem endlessBytes_getElem? (k : Nat) {n j : Nat} (hj : j < n) :
    (endlessBytes k n)[j]? = some (Config.freeAnswer (k + j)) := by
  simp [endlessBytes, hj]

/-- The endless sequence is received as any bytes are, two steps a byte: its answer and the next read (R208). -/
theorem run_endless {s : State} {k : Nat} (n : Nat) (hp : s.phase = .awaitingReply) (hr : s.reading = true)
    (hb : s.line.inBuf = []) (hin : s.inputs = []) (he : s.endless = some k) :
    core.run (2 * n) s = .next (receiveBytes (endlessBytes k n) { s with endless := some (k + n) }) := by
  induction n generalizing s k with
  | zero => exact congrArg Host.Outcome.next (by rw [Nat.add_zero, ← he]; rfl)
  | succ n ih =>
    let t : State := receiveByte (Config.freeAnswer k) { s with endless := some (k + 1) }
    have hanswer : step s = .next t := by
      rw [step_without_inputs hin (.inr ⟨hp, hr, hb⟩),
        receiveEndless_of_awaitsAnswer he (awaitsAnswer_iff.2 ⟨hp, hr⟩)]
    have hread : step t = .next (issueRead t) := step_issueRead hp rfl (congrArg landsEarly hin)
    calc core.run (2 * n + 2) s
      _ = core.run (2 * n + 1) t := run_succ _ hanswer
      _ = core.run (2 * n) (issueRead t) := run_succ _ hread
      _ = .next (receiveBytes (endlessBytes (k + 1) n) { issueRead t with endless := some (k + 1 + n) }) :=
        ih hp rfl hb hin rfl
      _ = .next (receiveBytes (endlessBytes k (n + 1)) { s with endless := some (k + (n + 1)) }) := by
        rw [Nat.add_assoc, Nat.add_comm 1]
        rfl

/-- Each byte that fits is stored at the offset of its arrival, whether or not those after it fit (R33). -/
theorem receiveBytes_rxBuf_getElem? (bs : List Byte) {s : State} {j : Nat} (hj : j < bs.length)
    (hroom : ∀ c, s.cfg.rxCap = some c → s.rxLen + j < c) :
    memGet (receiveBytes bs s).rxBuf (s.rxLen + j) = bs[j]? := by
  induction bs generalizing s j with
  | nil => exact absurd hj (Nat.not_lt_zero j)
  | cons b bs ih =>
    cases j with
    | zero =>
      rw [receiveBytes_cons, receiveBytes_rxBuf_outside bs _ (.inl (Nat.lt_succ_self s.rxLen)), issueRead_rxBuf,
        (receiveByte_of_room (hasRoom_iff.2 hroom) b).1]
      exact memGet_memSet_same _ _ _
    | succ j =>
      have hoff : s.rxLen + (j + 1) = s.rxLen + 1 + j := by omega
      rw [hoff] at hroom ⊢
      exact ih (s := issueRead (receiveByte b s)) (Nat.lt_of_succ_lt_succ hj) hroom

/-- Settles O27: answers to come and endless ones are both received by `receiveBytes`, which leaves AwaitingReply with
the next read issued; without an answer the block waits. -/
theorem endlessReplyKeepsAwaiting : Obligations.EndlessReplyKeepsAwaiting := by
  unfold Obligations.EndlessReplyKeepsAwaiting
  refine ⟨fun s bs rest hp hr hb he => ?_, fun s k n hp hr hb hin he => ?_, fun s n hin h he => run_waiting hin h he n⟩
  · refine ⟨withInputs rest (receiveBytes bs s), run_answer_bytes hp hr hb bs he, ?_⟩
    simp [hp, receiveBytes_reading bs hr]
  · refine ⟨_, run_endless n hp hr hb hin he, ?_, receiveBytes_reading _ hr, ?_, ?_, ?_, ?_, fun j hj hroom => ?_⟩
    · rw [receiveBytes_phase, hp]
    · rw [receiveBytes_rxLen, endlessBytes_length]
    · rw [receiveBytes_endless]
    · rw [receiveBytes_res]
    · rw [receiveBytes_out, endlessBytes_length]
    · have hstored := receiveBytes_rxBuf_getElem? (endlessBytes k n) (s := { s with endless := some (k + n) })
        (by rwa [endlessBytes_length]) hroom
      rw [hstored, endlessBytes_getElem? k hj]

end Sys2Proof.Machine
